-- ==== Sys2Proof/Word.lean ====
section
/-! DEFINITION. The word types of the block (00_scope.md R9, R10). -/

namespace Sys2Proof

/-- A ring-buffer element, and one byte of a code (R9). -/
abbrev Byte := BitVec 8

/-- A command word `W[31:0]` (30_encoding.md R95). -/
abbrev Word := BitVec 32

/-- A run length in sampler ticks, 15 bits (R8 `DUR_BITS`, 30_encoding.md R92). -/
abbrev Duration := BitVec 15

/-- The opaque 24-bit name of a consumer (10_state.md R36). -/
abbrev Handle := BitVec 24

end Sys2Proof
end

