-- ==== Sys2Proof/Config.lean ====
section
/-! DEFINITION. The configuration CFG0 to CFG7 (00_scope.md R8, 10_state.md R40) and the fixed parameters. -/

namespace Sys2Proof

/-- The configuration record of a run (R8, R40): the tunables, fixed for the life of the run.
DESIGN CHOICE (log 1, safe): it is carried in the machine's state, where no operation writes it. -/
structure Config where
  /-- CFG0 `SAMPLER_TICK_US`: read by no rule (41_pulse_sampler.md R145). -/
  samplerTickUs : Nat
  /-- CFG1 `SYNC_MIN_RATIO`. -/
  syncMinRatio : Nat
  /-- CFG2 `SYNC_MAX_RATIO`. -/
  syncMaxRatio : Nat
  /-- CFG3 `DATA_MIN_RATIO`. -/
  dataMinRatio : Nat
  /-- CFG4 `DATA_MAX_RATIO`. -/
  dataMaxRatio : Nat
  /-- CFG5 `REFRACTORY_TICKS`. -/
  refractoryTicks : Nat
  /-- CFG6 `RAW_CAP`: bytes the RAW ring retains when full. -/
  rawCap : Nat
  /-- CFG7 `PULSE_CAP`: bytes the PULSE ring retains when full. -/
  pulseCap : Nat
deriving DecidableEq, Repr

/-- `FRAME_BITS`: data bits per frame, fixed (R8). -/
def frameBits : Nat := 24

/-- `DUR_MAX`: the largest duration, `2^15 - 1`, fixed (R8). -/
def durMax : Nat := 32767

/-- `SAMPLES_PER_BYTE`: samples packed per RAW byte, fixed (R8). -/
def samplesPerByte : Nat := 8

/-- `REFRACTORY_TICKS` of the machine: OPEN, the spec gives no default (R8, 92_eei_decisions.md D16).
A free value: it has no body, so nothing is provable of its number (log 2, safe). -/
opaque Config.openRefractoryTicks : Nat

/-- The configuration with every default of R8 and the given `REFRACTORY_TICKS`. -/
def Config.reference (refractoryTicks : Nat) : Config where
  samplerTickUs := 50
  syncMinRatio := 20
  syncMaxRatio := 44
  dataMinRatio := 2
  dataMaxRatio := 5
  refractoryTicks := refractoryTicks
  rawCap := 32
  pulseCap := 256

end Sys2Proof
end

