-- ==== Sys2Proof/Syntax.lean ====
section
/-! DEFINITION. The fourteen operations and their operands (30_encoding.md R92, R94, R97, R98). -/

namespace Sys2Proof

/-- The ring instance an operation names: exactly two exist (10_state.md R25). -/
inductive RingId where
  /-- The raw-sample buffer. -/
  | raw
  /-- The pulse-record buffer. -/
  | pulse
deriving DecidableEq, Repr

/-- A device code: three bytes `code[0]`, `code[1]`, `code[2]` (30_encoding.md R94). -/
structure Code where
  c0 : Byte
  c1 : Byte
  c2 : Byte
deriving DecidableEq, Repr

/-- A pulse record: the level of one run (true is high) and its duration (30_encoding.md R92). -/
structure PulseRecord where
  level : Bool
  duration : Duration
deriving DecidableEq, Repr

/-- The operations, one constructor per row of the operation map (30_encoding.md R97). A bit operand is a
Bool: true is 1, the line high (R91). Every term is well formed: each operand type holds exactly the operand
values of R98. -/
inductive Instr where
  /-- SAMPLE s (R141). -/
  | sample (s : Bool)
  /-- POLL (R211). -/
  | poll
  /-- TIMER (R197). -/
  | timer
  /-- REGCB h (R198). -/
  | regcb (h : Handle)
  /-- RESET (R213). -/
  | reset
  /-- FLT.FRAME c24 (R191). -/
  | fltFrame (c : Code)
  /-- RB.PUSH b, v (R121). -/
  | rbPush (b : RingId) (v : Byte)
  /-- RB.POP b (R122). -/
  | rbPop (b : RingId)
  /-- RB.LEN b (R123). -/
  | rbLen (b : RingId)
  /-- RB.CLEAR b (R124). -/
  | rbClear (b : RingId)
  /-- RLE.BIT s (R151). -/
  | rleBit (s : Bool)
  /-- RLE.STEP (R154). -/
  | rleStep
  /-- DEC.PULSE rec (R166). -/
  | decPulse (r : PulseRecord)
  /-- DEC.STEP (R177). -/
  | decStep
deriving DecidableEq, Repr

/-- The agents that issue operations (00_scope.md R15, 60_exceptions.md R236). -/
inductive Agent where
  /-- The interrupt context: the sampler tick. -/
  | interrupt
  /-- The cooperative task context; a test bench issues as this agent. -/
  | task
  /-- The host: RESET. -/
  | host
deriving DecidableEq, Repr

end Sys2Proof
end

