-- ==== Sys2Proof/WellFormed.lean ====
section
/-! DEFINITION. Well-formedness. An `Instr` is well formed by its types (each operand type holds exactly the values
30_encoding.md R98 gives); what must be checked is the configuration (00_scope.md R8, 10_state.md R40). -/

namespace Sys2Proof

/-- `1 <= SYNC_MIN_RATIO <= SYNC_MAX_RATIO <= 64` (R8). -/
def Config.syncRatiosLegal (c : Config) : Bool :=
  decide (1 ≤ c.syncMinRatio) && decide (c.syncMinRatio ≤ c.syncMaxRatio) && decide (c.syncMaxRatio ≤ 64)

/-- `1 <= DATA_MIN_RATIO <= DATA_MAX_RATIO <= 64` (R8). -/
def Config.dataRatiosLegal (c : Config) : Bool :=
  decide (1 ≤ c.dataMinRatio) && decide (c.dataMinRatio ≤ c.dataMaxRatio) && decide (c.dataMaxRatio ≤ 64)

/-- `RAW_CAP >= 1` (R8). -/
def Config.rawCapLegal (c : Config) : Bool := decide (1 ≤ c.rawCap)

/-- `PULSE_CAP >= 2` and `PULSE_CAP` even (R8, 20_memory.md R66). -/
def Config.pulseCapLegal (c : Config) : Bool := decide (2 ≤ c.pulseCap) && decide (c.pulseCap % 2 = 0)

/-- `SAMPLER_TICK_US > 0` (R40). -/
def Config.tickLegal (c : Config) : Bool := decide (0 < c.samplerTickUs)

/-- All constraints of R8 and R40 at once (`REFRACTORY_TICKS >= 0` holds of every natural). A configuration outside
them is refused (20_memory.md R67, 93_implementation_defined.md U19; log 15). -/
def Config.legal (c : Config) : Bool :=
  c.syncRatiosLegal && c.dataRatiosLegal && c.rawCapLegal && c.pulseCapLegal && c.tickLegal

end Sys2Proof
end

