-- ==== Sys2Proof/Decode.lean ====
section
/-! DEFINITION. The command word: its fields, the operation map, the decoder and the encoder (30_encoding.md R92 to R106).
A command word is issued, not stored, so it has no byte order (20_memory.md R61, R80). -/

namespace Sys2Proof

/-! ## The data encodings carried by operands -/

/-- `c24 = {code[0], code[1], code[2]}` (R94, R98). -/
def Code.toC24 (c : Code) : BitVec 24 := c.c0 ++ c.c1 ++ c.c2

/-- `code[0] = c24[23:16]`, `code[1] = c24[15:8]`, `code[2] = c24[7:0]` (R98). -/
def Code.ofC24 (w : BitVec 24) : Code :=
  ⟨w.extractLsb' 16 8, w.extractLsb' 8 8, w.extractLsb' 0 8⟩

/-- `rec[15:0]`: `level` in bit 15, `duration` in bits 14:0 (R92). -/
def PulseRecord.toRec (r : PulseRecord) : BitVec 16 := BitVec.ofBool r.level ++ r.duration

/-- `level = rec[15]`, `duration = rec[14:0]` (R92, R98). -/
def PulseRecord.ofRec (w : BitVec 16) : PulseRecord := ⟨w.getLsbD 15, w.extractLsb' 0 15⟩

/-! ## The fields of a command word -/

/-- The operation number `W[31:28]` (R95). -/
def opField (w : Word) : BitVec 4 := w.extractLsb' 28 4

/-- The ring instance select `W[27:24]` (R95). -/
def selField (w : Word) : BitVec 4 := w.extractLsb' 24 4

/-- The immediate operand `W[23:0]` (R95). -/
def immField (w : Word) : BitVec 24 := w.extractLsb' 0 24

/-- `b = RAW if sel[0] == 0 else PULSE` (R98). -/
def RingId.ofSel (sel : BitVec 4) : RingId := if sel.getLsbD 0 then .pulse else .raw

/-- `sel` of an instance: `0` is RAW, `1` is PULSE (R96). -/
def RingId.toSel : RingId → BitVec 4
  | .raw => 0x0#4
  | .pulse => 0x1#4

/-! ## The formats: which bits must be zero (R96) -/

/-- Format Z: `sel` and `imm` must be 0. -/
def formatZ (w : Word) : Bool := selField w == 0#4 && immField w == 0#24

/-- Format S: `sel` and `imm[23:1]` must be 0. -/
def formatS (w : Word) : Bool := selField w == 0#4 && (immField w).extractLsb' 1 23 == 0#23

/-- Format B: `sel[3:1]` and `imm` must be 0. -/
def formatB (w : Word) : Bool := (selField w).extractLsb' 1 3 == 0#3 && immField w == 0#24

/-- Format BD: `sel[3:1]` and `imm[23:8]` must be 0. -/
def formatBD (w : Word) : Bool := (selField w).extractLsb' 1 3 == 0#3 && (immField w).extractLsb' 8 16 == 0#16

/-- Format P: `sel` and `imm[23:16]` must be 0. -/
def formatP (w : Word) : Bool := selField w == 0#4 && (immField w).extractLsb' 16 8 == 0#8

/-- Format C: `sel` must be 0. -/
def formatC (w : Word) : Bool := selField w == 0#4

/-! ## The decoder -/

/-- Why a word is reserved (R100). -/
inductive Reject where
  /-- `op` is 0x0 or 0x7. -/
  | reservedOpcode (op : BitVec 4)
  /-- A must-be-zero bit of the row with this `op` is set. -/
  | mustBeZeroBitSet (op : BitVec 4)
deriving DecidableEq, Repr

/-- Answer the row's operation if its must-be-zero bits are zero, else reject the word by name (R99, R106). -/
def decodeRow (w : Word) (format : Bool) (i : Instr) : Except Reject Instr :=
  if format then .ok i else .error (.mustBeZeroBitSet (opField w))

/-- The decoding procedure of R106, total on every word: the row of `op`, its must-be-zero bits (R96), its operands (R98). -/
def decode (w : Word) : Except Reject Instr :=
  match (opField w).toNat with
  | 0x1 => decodeRow w (formatS w) (.sample ((immField w).getLsbD 0))
  | 0x2 => decodeRow w (formatZ w) .poll
  | 0x3 => decodeRow w (formatZ w) .timer
  | 0x4 => decodeRow w (formatC w) (.regcb (immField w))
  | 0x5 => decodeRow w (formatZ w) .reset
  | 0x6 => decodeRow w (formatC w) (.fltFrame (Code.ofC24 (immField w)))
  | 0x8 => decodeRow w (formatBD w) (.rbPush (RingId.ofSel (selField w)) ((immField w).extractLsb' 0 8))
  | 0x9 => decodeRow w (formatB w) (.rbPop (RingId.ofSel (selField w)))
  | 0xA => decodeRow w (formatB w) (.rbLen (RingId.ofSel (selField w)))
  | 0xB => decodeRow w (formatB w) (.rbClear (RingId.ofSel (selField w)))
  | 0xC => decodeRow w (formatS w) (.rleBit ((immField w).getLsbD 0))
  | 0xD => decodeRow w (formatZ w) .rleStep
  | 0xE => decodeRow w (formatP w) (.decPulse (PulseRecord.ofRec ((immField w).extractLsb' 0 16)))
  | 0xF => decodeRow w (formatZ w) .decStep
  | _ => .error (.reservedOpcode (opField w))

/-! ## The encoder -/

/-- `W = {op, sel, imm}` (R95). -/
def assemble (op sel : BitVec 4) (imm : BitVec 24) : Word := op ++ sel ++ imm

/-- `imm` of format S: the bit operand in `imm[0]` (R96). -/
def immOfBit (s : Bool) : BitVec 24 := 0#23 ++ BitVec.ofBool s

/-- The command word of an operation (R95 to R98). -/
def encode : Instr → Word
  | .sample s => assemble 0x1#4 0#4 (immOfBit s)
  | .poll => assemble 0x2#4 0#4 0#24
  | .timer => assemble 0x3#4 0#4 0#24
  | .regcb h => assemble 0x4#4 0#4 h
  | .reset => assemble 0x5#4 0#4 0#24
  | .fltFrame c => assemble 0x6#4 0#4 c.toC24
  | .rbPush b v => assemble 0x8#4 b.toSel (0#16 ++ v)
  | .rbPop b => assemble 0x9#4 b.toSel 0#24
  | .rbLen b => assemble 0xA#4 b.toSel 0#24
  | .rbClear b => assemble 0xB#4 b.toSel 0#24
  | .rleBit s => assemble 0xC#4 0#4 (immOfBit s)
  | .rleStep => assemble 0xD#4 0#4 0#24
  | .decPulse r => assemble 0xE#4 0#4 (0#8 ++ r.toRec)
  | .decStep => assemble 0xF#4 0#4 0#24

/-! ## The operation map -/

/-- One row of the operation map: a word selects it iff `(W & mask) == match` (R97). -/
structure OpcodeRow where
  pattern : Word
  mask : Word
deriving DecidableEq, Repr

/-- The operation's row of R97, `match` and `mask` as the table writes them. -/
def opcodeRow : Instr → OpcodeRow
  | .sample _ => ⟨0x10000000#32, 0xFFFFFFFE#32⟩
  | .poll => ⟨0x20000000#32, 0xFFFFFFFF#32⟩
  | .timer => ⟨0x30000000#32, 0xFFFFFFFF#32⟩
  | .regcb _ => ⟨0x40000000#32, 0xFF000000#32⟩
  | .reset => ⟨0x50000000#32, 0xFFFFFFFF#32⟩
  | .fltFrame _ => ⟨0x60000000#32, 0xFF000000#32⟩
  | .rbPush _ _ => ⟨0x80000000#32, 0xFEFFFF00#32⟩
  | .rbPop _ => ⟨0x90000000#32, 0xFEFFFFFF#32⟩
  | .rbLen _ => ⟨0xA0000000#32, 0xFEFFFFFF#32⟩
  | .rbClear _ => ⟨0xB0000000#32, 0xFEFFFFFF#32⟩
  | .rleBit _ => ⟨0xC0000000#32, 0xFFFFFFFE#32⟩
  | .rleStep => ⟨0xD0000000#32, 0xFFFFFFFF#32⟩
  | .decPulse _ => ⟨0xE0000000#32, 0xFFFF0000#32⟩
  | .decStep => ⟨0xF0000000#32, 0xFFFFFFFF#32⟩

/-- The fourteen rows of R97, in the table's order. -/
def opcodeTable : List OpcodeRow :=
  [⟨0x10000000#32, 0xFFFFFFFE#32⟩, ⟨0x20000000#32, 0xFFFFFFFF#32⟩, ⟨0x30000000#32, 0xFFFFFFFF#32⟩,
   ⟨0x40000000#32, 0xFF000000#32⟩, ⟨0x50000000#32, 0xFFFFFFFF#32⟩, ⟨0x60000000#32, 0xFF000000#32⟩,
   ⟨0x80000000#32, 0xFEFFFF00#32⟩, ⟨0x90000000#32, 0xFEFFFFFF#32⟩, ⟨0xA0000000#32, 0xFEFFFFFF#32⟩,
   ⟨0xB0000000#32, 0xFEFFFFFF#32⟩, ⟨0xC0000000#32, 0xFFFFFFFE#32⟩, ⟨0xD0000000#32, 0xFFFFFFFF#32⟩,
   ⟨0xE0000000#32, 0xFFFF0000#32⟩, ⟨0xF0000000#32, 0xFFFFFFFF#32⟩]

/-- A word selects a row of the operation map (R97). -/
def OpcodeRow.selects (r : OpcodeRow) (w : Word) : Bool := w &&& r.mask == r.pattern

/-- What the decoder reads from a table row's word (log 14): the word is 32 bits whatever `nbits` says (R105), and a number
that is no 32-bit word is no command word. -/
def decodeTableWord (_nbits w : Nat) : Option Instr :=
  if w < 2 ^ 32 then (decode (BitVec.ofNat 32 w)).toOption else none

end Sys2Proof
end

