-- ==== Sys2Proof/Machine/State.lean ====
section
/-! DEFINITION. The machine's state as plain data (10_state.md R20 to R45), the reasons a step stops, and the state after
reset. Fields under "The model's own" are not hardware: they carry inputs still to come and the observations claims are
stated over. -/

namespace Sys2Proof.Machine

/-- The contents of one ring memory: (slot, byte) pairs, slots strictly rising, no byte equal to what an unlisted slot
reads as (`Memory.wf` in Ops.lean). One smallest addressable unit, the byte (20_memory.md R60, R68). -/
abbrev Memory := List Host.Cell

/-- One ring-buffer instance: backing array and cursors (10_state.md R21, R22). -/
structure Ring where
  mem : Memory
  /-- The read cursor: slot of the oldest unread byte. -/
  head : Nat
  /-- The write cursor: slot the next push writes. -/
  tail : Nat
deriving DecidableEq, Repr

/-- The pulse sampler (10_state.md R26, R27). -/
structure Sampler where
  acc : Byte
  cnt : Fin 8
deriving DecidableEq, Repr

/-- The run-length encoder (10_state.md R28, R29). -/
structure Encoder where
  level : Bool
  count : Duration
deriving DecidableEq, Repr

/-- The decoder's phase (10_state.md R30). -/
inductive Phase where
  /-- Number 0. -/
  | seekingSync
  /-- Number 1. -/
  | receivingData
deriving DecidableEq, Repr

/-- The frame decoder (10_state.md R30 to R33). -/
structure Decoder where
  phase : Phase
  bitCount : Nat
  code : Code
  t1Valid : Bool
  t1 : Duration
deriving DecidableEq, Repr

/-- The confirmation and refractory filter (10_state.md R34, R35). -/
structure Filter where
  candValid : Bool
  cand : Code
  refrCnt : Nat
deriving DecidableEq, Repr

/-- The callback registration (10_state.md R36). -/
structure Registration where
  registered : Bool
  handle : Handle
deriving DecidableEq, Repr

/-- One `deliver(h, c)` event (10_state.md R43). -/
structure Delivery where
  handle : Handle
  code : Code
deriving DecidableEq, Repr

/-- The response of an operation to its issuer (30_encoding.md R102). -/
inductive Response where
  /-- RB.POP: the byte popped, or none. -/
  | pop (v : Option Byte)
  /-- RB.LEN: the count. -/
  | len (n : Nat)
deriving DecidableEq, Repr

/-- The silent-drop cause tags (60_exceptions.md R221). -/
inductive DropCause where
  | rawOverflow
  | pulseOverflow
  | lowSkipped
  | highReplaced
  | badSync
  | badBit
  | unconfirmed
  | refractory
  | noCallback
  | regcbIgnored
deriving DecidableEq, Repr

/-- One event of the schedule (92_eei_decisions.md D32, 10_state.md R37, R47): an agent issues an operation by its
command word, or the host writes its interrupt-enable flag. -/
inductive Event where
  | issue (a : Agent) (w : Word)
  | hostIe (v : Bool)
deriving DecidableEq, Repr

/-- The whole state of the block (10_state.md R20). -/
structure State where
  /-- CFG0 to CFG7 (R40): constant, carried here (log 1). -/
  cfg : Config
  raw : Ring
  pulse : Ring
  smp : Sampler
  rle : Encoder
  dec : Decoder
  flt : Filter
  cb : Registration
  /-- The host's interrupt-enable flag, borrowed (R37). -/
  ie : Bool
  /-- The host's, borrowed as `ie` is: the sampler tick its interrupt hardware holds while `ie` is 0, with the line level the
  handler will read (60_exceptions.md R226; log 19). -/
  pendingTick : Option Bool
  /-- The output trace, in order of delivery (R43). -/
  out : List Delivery
  /-- The model's own: responses given to outside issuers, in order (log 10). -/
  responses : List Response
  /-- The model's own: the silent drops, in order (60_exceptions.md R221; log 11). -/
  drops : List DropCause
  /-- The model's own: the events still to come, next first (log 5). -/
  sched : List Event
  /-- The model's own: for each coming interruption point inside a POLL, the sampler ticks that fall there (log 6). -/
  ticks : List (List Bool)
deriving DecidableEq, Repr

/-- The reasons a step stops with a fault: there are none. The block raises no exception, and a model's step never returns a
fault (60_exceptions.md R220); no access reaches a slot that does not exist (log 9). -/
inductive Fault
deriving DecidableEq, Repr

/-- The reasons a step refuses. -/
inductive Refusal where
  /-- Raised by a dispatch arm of an instruction that has no meaning yet: none is left. Safe. -/
  | notModelled (mnemonic : String)
  /-- Raised by `step` on a command word whose `op` is reserved: a model should refuse it (30_encoding.md R100). Safe (log 7). -/
  | reservedOpcode (op : BitVec 4)
  /-- Raised by `step` on a command word with a must-be-zero bit set (30_encoding.md R100). Safe (log 7). -/
  | mustBeZeroBitSet (op : BitVec 4)
  /-- Raised by `step` on an operation issued from a context that may not issue it (60_exceptions.md R236). Safe (log 8). -/
  | wrongContext
  /-- Raised by `step` under a configuration outside its constraints (93_implementation_defined.md U19). Safe (log 15). -/
  | illegalConfiguration
deriving DecidableEq, Repr

/-- An empty ring of unspecified contents (10_state.md R45; log 3). -/
def Ring.reset : Ring := ⟨[], 0, 0⟩

/-- Code 00 00 00. -/
def zeroCode : Code := ⟨0#8, 0#8, 0#8⟩

/-- The state after reset under a given configuration (10_state.md R45). -/
def State.resetWith (cfg : Config) : State where
  cfg := cfg
  raw := Ring.reset
  pulse := Ring.reset
  smp := ⟨0x00#8, 0⟩
  rle := ⟨false, 0#15⟩
  dec := ⟨.seekingSync, 0, zeroCode, false, 0#15⟩
  flt := ⟨false, zeroCode, 0⟩
  cb := ⟨false, 0#24⟩
  -- DESIGN CHOICE (log 4): the spec leaves `ie` to the host
  ie := true
  -- DESIGN CHOICE (log 19): no tick is held
  pendingTick := none
  out := []
  responses := []
  drops := []
  sched := []
  ticks := []

/-- The machine right after reset, under the reference configuration with `REFRACTORY_TICKS` open (R8, R45; log 2). -/
def State.reset : State := State.resetWith (Config.reference Config.openRefractoryTicks)

end Sys2Proof.Machine
end

