-- ==== Sys2Proof/Machine/Ops.lean ====
section
/-! DEFINITION. The named operations over memory, rings and observations. The block takes no exception (60_exceptions.md
R220): in an exception's place stands `State.drop`, the silent drop of R221, and the only saving and restoring is that of
`ie` in `State.critical` (R71, R232). -/

namespace Sys2Proof.Machine

/-! ## Ring memory (20_memory.md R60, R68) -/

/-- What a slot that nothing has written reads as. DESIGN CHOICE (log 3, unsafe): the spec leaves ring memory after reset
unspecified and lets a model initialise it to anything (70_reset_and_hazards.md R251). -/
def Memory.blank : Byte := 0x00#8

/-- `MemRead(b:i, 1)` (00_scope.md R11). -/
def Memory.read : Memory → Nat → Byte
  | [], _ => Memory.blank
  | (k, v) :: rest, i => if k = i then v else Memory.read rest i

/-- `MemWrite(b:i, 1, v)` (00_scope.md R11), keeping the canonical form. -/
def Memory.write : Memory → Nat → Byte → Memory
  | [], i, v => if v = Memory.blank then [] else [(i, v)]
  | (k, w) :: rest, i, v =>
    if i < k then
      if v = Memory.blank then (k, w) :: rest else (i, v) :: (k, w) :: rest
    else if i = k then
      if v = Memory.blank then rest else (i, v) :: rest
    else (k, w) :: Memory.write rest i v

/-- Slots strictly rising from `lo` on, and no listed byte blank. -/
def Memory.wfFrom : Nat → Memory → Bool
  | _, [] => true
  | lo, (k, v) :: rest => decide (lo ≤ k) && decide (v ≠ Memory.blank) && Memory.wfFrom (k + 1) rest

/-- The canonical form of a memory. -/
def Memory.wf (m : Memory) : Bool := Memory.wfFrom 0 m

/-! ## One ring; `S = cap + 1` slots, cursor arithmetic modulo `S` (10_state.md R21 to R24) -/

/-- The slot after slot `i`. -/
def nextSlot (cap i : Nat) : Nat := (i + 1) % (cap + 1)

/-- The slot a cursor names: cursor arithmetic is modulo `S` (R22), so there is no access outside `0 .. cap`; a cursor in its
range names itself (log 9). -/
def slotOf (cap i : Nat) : Nat := i % (cap + 1)

/-- `len = (tail - head) mod S` (R23). -/
def Ring.length (cap : Nat) (r : Ring) : Nat := (r.tail + (cap + 1) - r.head) % (cap + 1)

/-- The ring is empty iff `tail == head` (R23). -/
def Ring.isEmpty (r : Ring) : Bool := r.head == r.tail

/-- The ring is full iff the slot after `tail` is `head` (R23). -/
def Ring.isFull (cap : Nat) (r : Ring) : Bool := nextSlot cap r.tail == r.head

/-- The abstract view `q_b`: the unread bytes, oldest first (R24). -/
def Ring.queue (cap : Nat) (r : Ring) : List Byte :=
  (List.range (r.length cap)).map fun i => r.mem.read (slotOf cap (r.head + i))

/-- Insert one byte at the tail; if the ring was full, `head` advances too (40_ring_buffer.md R121). -/
def Ring.push (cap : Nat) (v : Byte) (r : Ring) : Ring where
  mem := r.mem.write (slotOf cap r.tail) v
  head := if r.isFull cap then nextSlot cap r.head else r.head
  tail := nextSlot cap r.tail

/-- Remove and return the oldest byte, if any (40_ring_buffer.md R122). -/
def Ring.pop (cap : Nat) (r : Ring) : Option Byte × Ring :=
  if r.isEmpty then (none, r) else (some (r.mem.read (slotOf cap r.head)), { r with head := nextSlot cap r.head })

/-- Both cursors to 0; the memory is not modified (40_ring_buffer.md R124). -/
def Ring.clear (r : Ring) : Ring := { r with head := 0, tail := 0 }

/-! ## The two instances in the state -/

/-- `rb[b]`. -/
def State.ring (s : State) : RingId → Ring
  | .raw => s.raw
  | .pulse => s.pulse

/-- `CAP_b` (10_state.md R21). -/
def State.cap (s : State) : RingId → Nat
  | .raw => s.cfg.rawCap
  | .pulse => s.cfg.pulseCap

/-- Replace `rb[b]`. -/
def State.setRing (s : State) (b : RingId) (r : Ring) : State :=
  match b with
  | .raw => { s with raw := r }
  | .pulse => { s with pulse := r }

/-- `q_b` (10_state.md R24). -/
def State.queue (s : State) (b : RingId) : List Byte := (s.ring b).queue (s.cap b)

/-! ## Observations (00_scope.md R11) -/

/-- `drop <Cause>`: the silent drop; the hardware records nothing, the model notes the tag (60_exceptions.md R221). -/
def State.drop (s : State) (d : DropCause) : State := { s with drops := s.drops ++ [d] }

/-- `respond(v)` to an outside issuer (30_encoding.md R102). -/
def State.respond (s : State) (r : Response) : State := { s with responses := s.responses ++ [r] }

/-- `deliver(h, c)`: the consumer's callback runs to completion and is not otherwise seen (44_confirmation_filter.md R195). -/
def State.deliver (s : State) (h : Handle) (c : Code) : State := { s with out := s.out ++ [⟨h, c⟩] }

/-- The 9-bit response of RB.POP `{valid, byte}` (30_encoding.md R102). -/
def popWord : Option Byte → BitVec 9
  | none => 0#9
  | some v => 1#1 ++ v

/-- A response as a word of 32 bits. RB.LEN's count is zero-extended (30_encoding.md R102). DESIGN CHOICE (log 20), on two points
that the spec leaves open: RB.POP's response, which R102 gives in 9 bits and in no longer word, is zero-extended too; and a count
of `2^32` or more (`CAP` has no upper bound) has the word of the count modulo `2^32`, while `State.responses` keeps the count
itself. -/
def Response.word : Response → Word
  | .pop v => (popWord v).setWidth 32
  | .len n => BitVec.ofNat 32 n

/-- The numbers of the cause tags (60_exceptions.md R221). -/
def DropCause.number : DropCause → Nat
  | .rawOverflow => 1
  | .pulseOverflow => 2
  | .lowSkipped => 3
  | .highReplaced => 4
  | .badSync => 5
  | .badBit => 6
  | .unconfirmed => 7
  | .refractory => 8
  | .noCallback => 9
  | .regcbIgnored => 10

/-- The number of a phase (10_state.md R30). -/
def Phase.number : Phase → Nat
  | .seekingSync => 0
  | .receivingData => 1

/-! ## The scoped critical section and the ring operations in it (20_memory.md R71, 40_ring_buffer.md R127) -/

/-- `saved <- ie; ie <- 0; body; ie <- saved` (R71). Each call has its own `saved`, so sections nest (R73). -/
def State.critical {α : Type} (s : State) (body : State → α × State) : α × State :=
  let saved := s.ie
  let r := body { s with ie := false }
  (r.1, { r.2 with ie := saved })

/-- The tag of an overflow of `b` (R121). -/
def overflowCause : RingId → DropCause
  | .raw => .rawOverflow
  | .pulse => .pulseOverflow

/-- RB.PUSH as a sub-step (R121). -/
def State.rbPush (s : State) (b : RingId) (v : Byte) : State :=
  (s.critical fun s =>
    let r := s.ring b
    let s' := s.setRing b (r.push (s.cap b) v)
    ((), if r.isFull (s.cap b) then s'.drop (overflowCause b) else s')).2

/-- RB.POP as a sub-step, with its response to the caller (R122). -/
def State.rbPop (s : State) (b : RingId) : Option Byte × State :=
  s.critical fun s =>
    let p := (s.ring b).pop (s.cap b)
    (p.1, s.setRing b p.2)

/-- RB.LEN as a sub-step, with its response to the caller (R123). -/
def State.rbLen (s : State) (b : RingId) : Nat × State :=
  s.critical fun s => ((s.ring b).length (s.cap b), s)

/-- RB.CLEAR as a sub-step (R124). -/
def State.rbClear (s : State) (b : RingId) : State :=
  (s.critical fun s => ((), s.setRing b (s.ring b).clear)).2

/-! ## The schedule (92_eei_decisions.md D32; log 5) -/

/-- The event that comes next, if any, and the state without it. -/
def State.nextEvent (s : State) : Option (Event × State) :=
  match s.sched with
  | [] => none
  | e :: rest => some (e, { s with sched := rest })

/-- The event comes next, before every other. -/
def State.withNextEvent (s : State) (e : Event) : State := { s with sched := e :: s.sched }

end Sys2Proof.Machine
end

