-- ==== Sys2Proof/Machine/Operands.lean ====
section
/-! DEFINITION. The data encodings inside the machine: sample bytes, records in PULSE, code bits (30_encoding.md R91 to R94). -/

namespace Sys2Proof.Machine

/-- The samples of a RAW byte in time order: bit 7 first (R91). -/
def samplesOf (v : Byte) : List Bool :=
  [v.getLsbD 7, v.getLsbD 6, v.getLsbD 5, v.getLsbD 4, v.getLsbD 3, v.getLsbD 2, v.getLsbD 1, v.getLsbD 0]

/-- The accumulator after one more sample: shifted left by one, the sample in bit 0 (41_pulse_sampler.md R141). -/
def shiftIn (acc : Byte) (s : Bool) : Byte := BitVec.ofNat 8 ((acc.toNat * 2 + s.toNat) % 256)

/-- The first byte of a record in PULSE: `{level, duration[14:8]}` (R93). -/
def recordByte0 (r : PulseRecord) : Byte := r.toRec.extractLsb' 8 8

/-- The second byte of a record in PULSE: `duration[7:0]` (R93). -/
def recordByte1 (r : PulseRecord) : Byte := r.toRec.extractLsb' 0 8

/-- The record of two PULSE bytes: `rec = {B0, B1}` (R93). -/
def recordOfBytes (b0 b1 : Byte) : PulseRecord := PulseRecord.ofRec (b0 ++ b1)

/-- Write one bit of a byte, the other seven unchanged. -/
def writeBit (v : Byte) (n : Nat) (x : Bool) : Byte :=
  let m := 1#8 <<< n
  if x then v ||| m else v &&& ~~~m

/-- Write data bit `i` of a code: byte `i div 8`, bit `7 - (i mod 8)` (R94, 43_frame_decoder.md R174). There are three
bytes: an index of 24 or more, which R31 excludes, writes none (log 9). -/
def writeCodeBit (c : Code) (i : Nat) (x : Bool) : Code :=
  match i / 8 with
  | 0 => { c with c0 := writeBit c.c0 (7 - i % 8) x }
  | 1 => { c with c1 := writeBit c.c1 (7 - i % 8) x }
  | 2 => { c with c2 := writeBit c.c2 (7 - i % 8) x }
  | _ => c

/-- Data bit `i` of a code is `c24[23 - i]` (R94). -/
def codeBit (c : Code) (i : Nat) : Bool := c.toC24.getLsbD (23 - i)

end Sys2Proof.Machine
end

