-- ==== Sys2Proof/Machine/Flags.lean ====
section
/-! DEFINITION. The tests that decide what an operation does (10_state.md R39, 43_frame_decoder.md R168 to R173) and the
saturating count (42_run_length_encoder.md R153). Products are exact naturals; nothing divides (R168). -/

namespace Sys2Proof.Machine

/-- `min(count + 1, 32767)` (R153). -/
def saturatingSucc (d : Duration) : Duration := BitVec.ofNat 15 (min (d.toNat + 1) durMax)

/-- The sync test: `t1 * SMIN <= t2` and `t2 <= t1 * SMAX` (R171). -/
def syncOk (cfg : Config) (t1 t2 : Nat) : Bool :=
  decide (t1 * cfg.syncMinRatio ≤ t2) && decide (t2 ≤ t1 * cfg.syncMaxRatio)

/-- `is_one`: `t1 > t2 * DMIN` and `t1 <= t2 * DMAX` (R173). -/
def isOne (cfg : Config) (t1 t2 : Nat) : Bool :=
  decide (t1 > t2 * cfg.dataMinRatio) && decide (t1 ≤ t2 * cfg.dataMaxRatio)

/-- `is_zero`: `t2 > t1 * DMIN` and `t2 <= t1 * DMAX` (R173). -/
def isZero (cfg : Config) (t1 t2 : Nat) : Bool :=
  decide (t2 > t1 * cfg.dataMinRatio) && decide (t2 ≤ t1 * cfg.dataMaxRatio)

/-- The data bit of a pair, `is_one` tested first; none where classification fails (R174). -/
def classify (cfg : Config) (t1 t2 : Nat) : Option Bool :=
  if isOne cfg t1 t2 then some true else if isZero cfg t1 t2 then some false else none

/-- A frame's code is confirmed: there is a candidate and all three bytes are equal (44_confirmation_filter.md R192). -/
def Filter.confirms (f : Filter) (c : Code) : Bool := f.candValid && decide (f.cand = c)

/-- The refractory window is active iff `refr_cnt > 0` (10_state.md R35). -/
def Filter.windowActive (f : Filter) : Bool := decide (0 < f.refrCnt)

end Sys2Proof.Machine
end

