-- ==== Sys2Proof/Machine/Sampler.lean ====
section
/-! DEFINITION. The pulse sampler (41_pulse_sampler.md) and the points at which its interrupt falls inside a task operation. -/

namespace Sys2Proof.Machine

/-- SAMPLE s: shift the sample in; the eighth completes a byte, which is pushed to RAW (R141). -/
def State.sample (s : State) (x : Bool) : State :=
  let a := shiftIn s.smp.acc x
  if s.smp.cnt = 7 then { s with smp := ⟨a, 0⟩ }.rbPush .raw a
  else { s with smp := ⟨a, s.smp.cnt + 1⟩ }

/-- SAMPLE s (R141). -/
def execSample (x : Bool) (s : State) : Host.Outcome State Fault Refusal := .next (s.sample x)

/-- The host's interrupt hardware holds a tick that occurs while `ie` is 0; if one is already held, the second is lost
(60_exceptions.md R226; log 17, log 19). -/
def State.hold (s : State) (tick : Option Bool) : State := { s with pendingTick := s.pendingTick.or tick }

/-- A sampler tick (60_exceptions.md R223): its SAMPLE runs at once, an ordinary call (R230), unless `ie` is 0, which masks
it (R225). -/
def State.tick (s : State) (x : Bool) : State := if s.ie then s.sample x else s.hold (some x)

/-- The host writes `ie` (10_state.md R37, R39). A tick held while `ie` was 0 has its SAMPLE as soon as `ie` is 1
(60_exceptions.md R226). -/
def State.setIe (s : State) (v : Bool) : State :=
  match v, s.pendingTick with
  | true, some x => { s with ie := true, pendingTick := none }.sample x
  | true, none => { s with ie := true }
  | false, _ => { s with ie := false }

/-- An interruption point inside a task operation: the ticks that fall here occur one after another; the handler does not
nest (45_pipeline_sequencing.md R212, 20_memory.md R74, R76; log 6). -/
def State.interruptPoint (s : State) : State :=
  match s.ticks with
  | [] => s
  | xs :: rest => xs.foldl State.tick { s with ticks := rest }

/-- The interrupt agent is idle: none of its ticks is held, to fall inside a task operation, or to be issued (60_exceptions.md
R236; log 8). -/
def State.interruptIdle (s : State) : Bool :=
  s.pendingTick.isNone && s.ticks.flatten.isEmpty && s.sched.all fun
    | .issue a _ => decide (a ≠ .interrupt)
    | .hostIe _ => true

end Sys2Proof.Machine
end

