-- ==== Sys2Proof/Machine/Context.lean ====
section
/-! DEFINITION. Which agent may issue which operation (30_encoding.md R97, 60_exceptions.md R236; log 8). -/

namespace Sys2Proof.Machine

/-- The agent may issue the operation now. SAMPLE belongs to the interrupt agent, which issues nothing else: its RB.PUSH is the
one inside SAMPLE (R236, 10_state.md R48, R97 "either"). A test bench (the task agent) may issue SAMPLE while the interrupt
agent is idle (R236). RESET is the host's. -/
def permitted (a : Agent) (i : Instr) (s : State) : Bool :=
  match i with
  | .sample _ => decide (a = .interrupt) || (decide (a = .task) && s.interruptIdle)
  | .reset => decide (a = .host)
  | .rbPush _ _ => decide (a = .task)
  | .poll => decide (a = .task)
  | .timer => decide (a = .task)
  | .regcb _ => decide (a = .task)
  | .fltFrame _ => decide (a = .task)
  | .rbPop _ => decide (a = .task)
  | .rbLen _ => decide (a = .task)
  | .rbClear _ => decide (a = .task)
  | .rleBit _ => decide (a = .task)
  | .rleStep => decide (a = .task)
  | .decPulse _ => decide (a = .task)
  | .decStep => decide (a = .task)

/-- The agent that issues an operation in normal service (R97, R236). -/
def issuer : Instr → Agent
  | .sample _ => .interrupt
  | .reset => .host
  | .rbPush _ _ => .task
  | .poll => .task
  | .timer => .task
  | .regcb _ => .task
  | .fltFrame _ => .task
  | .rbPop _ => .task
  | .rbLen _ => .task
  | .rbClear _ => .task
  | .rleBit _ => .task
  | .rleStep => .task
  | .decPulse _ => .task
  | .decStep => .task

/-- The sample an operation carries; none but SAMPLE carries one. -/
def sampleOperand : Instr → Option Bool
  | .sample x => some x
  | .reset => none
  | .rbPush _ _ => none
  | .poll => none
  | .timer => none
  | .regcb _ => none
  | .fltFrame _ => none
  | .rbPop _ => none
  | .rbLen _ => none
  | .rbClear _ => none
  | .rleBit _ => none
  | .rleStep => none
  | .decPulse _ => none
  | .decStep => none

/-- The agent that issues a command word; a reserved word has none and is given to the task agent. -/
def issuerOfWord (w : Word) : Agent :=
  match decode w with
  | .ok i => issuer i
  | .error _ => .task

/-- The refusal of a reserved word (R100; log 7). -/
def refusalOf : Reject → Refusal
  | .reservedOpcode op => .reservedOpcode op
  | .mustBeZeroBitSet op => .mustBeZeroBitSet op

end Sys2Proof.Machine
end

