-- ==== Sys2Proof/Machine/RingBuffer.lean ====
section
/-! DEFINITION. The ring buffer operations (40_ring_buffer.md). -/

namespace Sys2Proof.Machine

/-- RB.PUSH b, v (R121): no response. -/
def execRbPush (b : RingId) (v : Byte) (s : State) : Host.Outcome State Fault Refusal := .next (s.rbPush b v)

/-- RB.POP b (R122): responds with the oldest byte, or none. -/
def execRbPop (b : RingId) (s : State) : Host.Outcome State Fault Refusal :=
  let p := s.rbPop b
  .next (p.2.respond (.pop p.1))

/-- RB.LEN b (R123): responds with the count. -/
def execRbLen (b : RingId) (s : State) : Host.Outcome State Fault Refusal :=
  let p := s.rbLen b
  .next (p.2.respond (.len p.1))

/-- RB.CLEAR b (R124): no response. -/
def execRbClear (b : RingId) (s : State) : Host.Outcome State Fault Refusal := .next (s.rbClear b)

end Sys2Proof.Machine
end

