-- ==== Sys2Proof/Machine/Filter.lean ====
section
/-! DEFINITION. The confirmation and refractory filter (44_confirmation_filter.md). -/

namespace Sys2Proof.Machine

/-- FLT.FRAME as a sub-step: confirm, check the window, deliver (R191 to R196). The window starts before the delivery (R194). -/
def State.fltFrame (s : State) (c : Code) : State :=
  if s.flt.confirms c then
    if s.flt.windowActive then s.drop .refractory
    else
      let s' := { s with flt := { s.flt with refrCnt := s.cfg.refractoryTicks } }
      if s'.cb.registered then s'.deliver s'.cb.handle c else s'.drop .noCallback
  else { s with flt := { s.flt with cand := c, candValid := true } }.drop .unconfirmed

/-- FLT.FRAME c24 (R191). -/
def execFltFrame (c : Code) (s : State) : Host.Outcome State Fault Refusal := .next (s.fltFrame c)

/-- TIMER: run the refractory window down (R197). -/
def execTimer (s : State) : Host.Outcome State Fault Refusal :=
  if s.flt.windowActive then .next { s with flt := { s.flt with refrCnt := s.flt.refrCnt - 1 } }
  else .next s

/-- REGCB h: register the consumer, once (R198). -/
def execRegcb (h : Handle) (s : State) : Host.Outcome State Fault Refusal :=
  if s.cb.registered then .next (s.drop .regcbIgnored)
  else .next { s with cb := ⟨true, h⟩ }

end Sys2Proof.Machine
end

