-- ==== Sys2Proof/Machine/FrameDecoder.lean ====
section
/-! DEFINITION. The frame decoder (43_frame_decoder.md). -/

namespace Sys2Proof.Machine

/-- SYNC_TEST(t1, t2) (R172). -/
def State.syncTest (s : State) (t1 t2 : Nat) : State :=
  if syncOk s.cfg t1 t2 then
    { s with dec := { s.dec with bitCount := 0, code := zeroCode, phase := .receivingData } }
  else s.drop .badSync

/-- BIT_TEST(t1, t2): write the classified bit and advance, completing the frame on the 24th (R174, R175), or abandon the
frame (R176). The phase returns to SeekingSync before the filter runs (R175). -/
def State.bitTest (s : State) (t1 t2 : Nat) : State :=
  match classify s.cfg t1 t2 with
  | none => { s with dec := { s.dec with phase := .seekingSync } }.drop .badBit
  | some x =>
    let i := s.dec.bitCount
    let code := writeCodeBit s.dec.code i x
    if i + 1 = frameBits then
      { s with dec := { s.dec with code := code, bitCount := i + 1, phase := .seekingSync } }.fltFrame code
    else { s with dec := { s.dec with code := code, bitCount := i + 1 } }

/-- DEC.PULSE as a sub-step: form pairs, and test each completed pair by the phase (R166, R167, R169, R170). -/
def State.decPulse (s : State) (r : PulseRecord) : State :=
  if r.level then
    let s' := if s.dec.t1Valid then s.drop .highReplaced else s
    { s' with dec := { s'.dec with t1 := r.duration, t1Valid := true } }
  else if s.dec.t1Valid then
    let s' := { s with dec := { s.dec with t1Valid := false } }
    match s.dec.phase with
    | .seekingSync => s'.syncTest s.dec.t1.toNat r.duration.toNat
    | .receivingData => s'.bitTest s.dec.t1.toNat r.duration.toNat
  else s.drop .lowSkipped

/-- DEC.STEP as a sub-step: pop one record from PULSE, if it holds one whole, and decode it; answers whether a record was
consumed (R177). With two bytes waiting both pops succeed, so the last case is never taken. -/
def State.decStep (s : State) : Bool × State :=
  let n := s.rbLen .pulse
  if n.1 < 2 then (false, n.2)
  else
    let p0 := n.2.rbPop .pulse
    let p1 := p0.2.rbPop .pulse
    match p0.1, p1.1 with
    | some b0, some b1 => (true, p1.2.decPulse (recordOfBytes b0 b1))
    | _, _ => (false, p1.2)

/-- DEC.PULSE rec (R166). -/
def execDecPulse (r : PulseRecord) (s : State) : Host.Outcome State Fault Refusal := .next (s.decPulse r)

/-- DEC.STEP (R177): no response to the issuer. -/
def execDecStep (s : State) : Host.Outcome State Fault Refusal := .next s.decStep.2

end Sys2Proof.Machine
end

