-- ==== Sys2Proof/Machine/RunLength.lean ====
section
/-! DEFINITION. The run-length encoder (42_run_length_encoder.md). -/

namespace Sys2Proof.Machine

/-- EMIT(level, duration): two separate RB.PUSH on PULSE (R152). -/
def State.emit (s : State) (r : PulseRecord) : State :=
  (s.rbPush .pulse (recordByte0 r)).rbPush .pulse (recordByte1 r)

/-- RLE.BIT s as a sub-step: close the run and open a new one, whose first tick is this sample, or extend the run (R151). -/
def State.rleBit (s : State) (x : Bool) : State :=
  if x ≠ s.rle.level then { s.emit ⟨s.rle.level, s.rle.count⟩ with rle := ⟨x, 1#15⟩ }
  else { s with rle := { s.rle with count := saturatingSucc s.rle.count } }

/-- RLE.STEP as a sub-step: pop one RAW byte and account its eight samples, bit 7 first; answers whether a byte was
consumed (R154). -/
def State.rleStep (s : State) : Bool × State :=
  let p := s.rbPop .raw
  match p.1 with
  | none => (false, p.2)
  | some v => (true, (samplesOf v).foldl State.rleBit p.2)

/-- RLE.BIT s (R151). -/
def execRleBit (x : Bool) (s : State) : Host.Outcome State Fault Refusal := .next (s.rleBit x)

/-- RLE.STEP (R154): no response to the issuer. -/
def execRleStep (s : State) : Host.Outcome State Fault Refusal := .next s.rleStep.2

end Sys2Proof.Machine
end

