-- ==== Sys2Proof/Machine/Sequencing.lean ====
section
/-! DEFINITION. Pipeline sequencing: POLL and RESET (45_pipeline_sequencing.md). -/

namespace Sys2Proof.Machine

/-- Phase 1 of POLL: RLE.STEP until one finds RAW empty, with an interruption point after each (R211, R212). -/
def State.pollEncode : Nat → State → State
  | 0, s => s
  | fuel + 1, s =>
    let r := s.rleStep
    if r.1 then State.pollEncode fuel r.2.interruptPoint else r.2.interruptPoint

/-- Phase 2 of POLL: DEC.STEP until one finds fewer than 2 bytes in PULSE, with an interruption point between any two
(R211, R212). -/
def State.pollDecode : Nat → State → State
  | 0, s => s
  | fuel + 1, s =>
    let r := s.decStep
    if r.1 then State.pollDecode fuel r.2.interruptPoint else r.2

/-- Steps that phase 1 can take: one for every byte in RAW and every SAMPLE still to fall, and the last (R214; log 13). -/
def State.encodeFuel (s : State) : Nat := s.raw.length s.cfg.rawCap + s.ticks.flatten.length + 1

/-- Steps that phase 2 can take: one for every two bytes in PULSE, and the last (R214). -/
def State.decodeFuel (s : State) : Nat := s.pulse.length s.cfg.pulseCap / 2 + 1

/-- POLL as a sub-step: encode everything waiting in RAW, then decode everything waiting in PULSE (R211). -/
def State.poll (s : State) : State :=
  let s' := State.pollEncode s.encodeFuel s
  State.pollDecode s'.decodeFuel s'

/-- POLL (R211). -/
def execPoll (s : State) : Host.Outcome State Fault Refusal := .next s.poll

/-- RESET (R213): ring memory, the configuration, `ie`, what was observed and what is still to come are not touched. -/
def execReset (s : State) : Host.Outcome State Fault Refusal :=
  .next { (s.rbClear .raw).rbClear .pulse with
    smp := ⟨0x00#8, 0⟩
    rle := ⟨false, 0#15⟩
    dec := ⟨.seekingSync, 0, zeroCode, false, 0#15⟩
    flt := ⟨false, zeroCode, 0⟩
    cb := ⟨false, 0#24⟩ }

end Sys2Proof.Machine
end

