-- ==== Sys2Proof/Machine/Dispatch.lean ====
section
/-! DEFINITION. The dispatch: one arm per operation. -/

namespace Sys2Proof.Machine

def exec (i : Instr) (s : State) : Host.Outcome State Fault Refusal :=
  match i with
  | .sample x => Sys2Proof.Machine.execSample x s
  | .poll => Sys2Proof.Machine.execPoll s
  | .timer => Sys2Proof.Machine.execTimer s
  | .regcb h => Sys2Proof.Machine.execRegcb h s
  | .reset => Sys2Proof.Machine.execReset s
  | .fltFrame c => Sys2Proof.Machine.execFltFrame c s
  | .rbPush b v => Sys2Proof.Machine.execRbPush b v s
  | .rbPop b => Sys2Proof.Machine.execRbPop b s
  | .rbLen b => Sys2Proof.Machine.execRbLen b s
  | .rbClear b => Sys2Proof.Machine.execRbClear b s
  | .rleBit x => Sys2Proof.Machine.execRleBit x s
  | .rleStep => Sys2Proof.Machine.execRleStep s
  | .decPulse r => Sys2Proof.Machine.execDecPulse r s
  | .decStep => Sys2Proof.Machine.execDecStep s

end Sys2Proof.Machine
end

