-- ==== Sys2Proof/Machine/Issue.lean ====
section
/-! DEFINITION. Issuing a command word: the block's form of fetching and running an instruction (30_encoding.md R106, 10_state.md R46). -/

namespace Sys2Proof.Machine

/-- Perform an operation for the agent that issues it: at once, but for the interrupt agent's SAMPLE while `ie` is 0, whose
tick the host holds (60_exceptions.md R225, R226). -/
def perform (a : Agent) (i : Instr) (s : State) : Host.Outcome State Fault Refusal :=
  if a = .interrupt ∧ s.ie = false then .next (s.hold (sampleOperand i)) else exec i s

/-- Issue a command word from an agent: decode it, check its context, perform it. -/
def issue (a : Agent) (w : Word) (s : State) : Host.Outcome State Fault Refusal :=
  match decode w with
  | .error e => .refused (refusalOf e)
  | .ok i => if permitted a i s then perform a i s else .refused .wrongContext

/-- An event takes effect: the host writes `ie` (10_state.md R37, R39), or an agent issues a command word. -/
def occur (e : Event) (s : State) : Host.Outcome State Fault Refusal :=
  match e with
  | .hostIe v => .next (s.setIe v)
  | .issue a w => issue a w s

/-- The event that issues a table row's word (log 14), from the agent that issues its operation in normal service. -/
def eventOfTableWord (w : Nat) : Event := .issue (issuerOfWord (BitVec.ofNat 32 w)) (BitVec.ofNat 32 w)

end Sys2Proof.Machine
end

