-- ==== Sys2Proof/Machine/Step.lean ====
section
/-! DEFINITION. One step of the block: the next event of the schedule takes effect (10_state.md R46, R47; log 5). -/

namespace Sys2Proof.Machine

/-- One step. With no event to come the block holds its state (60_exceptions.md R241). -/
def step (s : State) : Host.Outcome State Fault Refusal :=
  if s.cfg.legal = false then .refused .illegalConfiguration
  else
    match s.nextEvent with
    | none => .next s
    | some (e, s') => occur e s'

/-- The command word is the next one issued (log 5, log 14). -/
def State.withFetchWord (s : State) (_nbits w : Nat) : State := s.withNextEvent (eventOfTableWord w)

end Sys2Proof.Machine
end

