-- ==== Sys2Proof/Machine/Trace.lean ====
section
/-! DEFINITION. The trace syntax of operations and its pseudo-operations (30_encoding.md R103, R104), over lists of
characters. Conventions the grammar leaves open are in log 18. -/

namespace Sys2Proof.Machine

/-! ## Pseudo-operations (R104) -/

/-- `SAMPLE.BYTE v`: bit 7 first. -/
def sampleByte (v : Byte) : List Instr := (samplesOf v).map .sample

/-- `SAMPLE.RUN s, n`. -/
def sampleRun (x : Bool) (n : Nat) : List Instr := List.replicate n (.sample x)

/-- `RLE.BYTE v`: bit 7 first. -/
def rleByte (v : Byte) : List Instr := (samplesOf v).map .rleBit

/-- `DEC.PAIR t1, t2`. -/
def decPair (t1 t2 : Duration) : List Instr := [.decPulse ⟨true, t1⟩, .decPulse ⟨false, t2⟩]

/-- `TIMER.N n`. -/
def timerN (n : Nat) : List Instr := List.replicate n .timer

/-- `RB.RECORD rec`. -/
def rbRecord (r : PulseRecord) : List Instr := [.rbPush .pulse (recordByte0 r), .rbPush .pulse (recordByte1 r)]

/-! ## Writing -/

/-- The digit of a number below 16. -/
def digitChar (n : Nat) : Char := Char.ofNat (if n < 10 then 48 + n else 55 + n)

/-- The last `k` hexadecimal digits of a number. -/
def hexDigits : Nat → Nat → List Char
  | 0, _ => []
  | k + 1, n => hexDigits k (n / 16) ++ [digitChar (n % 16)]

/-- The decimal digits of a number below `10 ^ k`, without leading zeros. -/
def decDigits : Nat → Nat → List Char
  | 0, _ => []
  | k + 1, n => if n < 10 then [digitChar n] else decDigits k (n / 10) ++ [digitChar (n % 10)]

/-- A hexadecimal number with `k` digits and its `0x`. -/
def hexNumber (k n : Nat) : List Char := '0' :: 'x' :: hexDigits k n

/-- An instance's name. -/
def ringName : RingId → List Char
  | .raw => ['R', 'A', 'W']
  | .pulse => ['P', 'U', 'L', 'S', 'E']

/-- A bit operand. -/
def bitChar (x : Bool) : Char := if x then '1' else '0'

/-- An operation as one trace line (R103). -/
def traceLine : Instr → List Char
  | .sample x => "SAMPLE ".toList ++ [bitChar x]
  | .poll => "POLL".toList
  | .timer => "TIMER".toList
  | .regcb h => "REGCB ".toList ++ hexNumber 6 h.toNat
  | .reset => "RESET".toList
  | .fltFrame c => "FLT.FRAME ".toList ++ hexNumber 6 c.toC24.toNat
  | .rbPush b v => "RB.PUSH ".toList ++ ringName b ++ [',', ' '] ++ hexNumber 2 v.toNat
  | .rbPop b => "RB.POP ".toList ++ ringName b
  | .rbLen b => "RB.LEN ".toList ++ ringName b
  | .rbClear b => "RB.CLEAR ".toList ++ ringName b
  | .rleBit x => "RLE.BIT ".toList ++ [bitChar x]
  | .rleStep => "RLE.STEP".toList
  | .decPulse r => "DEC.PULSE ".toList ++ [if r.level then 'H' else 'L', ',', ' '] ++ decDigits 5 r.duration.toNat
  | .decStep => "DEC.STEP".toList

/-- A response, as it is written after `->` (R103). -/
def traceResponse : Response → List Char
  | .pop none => "None".toList
  | .pop (some v) => "Some ".toList ++ hexNumber 2 v.toNat
  | .len n => decDigits (n + 1) n

/-- A delivery, as it is written after `=>` (R103). -/
def traceDelivery (d : Delivery) : List Char :=
  "deliver(".toList ++ hexNumber 6 d.handle.toNat ++ [',', ' '] ++ hexDigits 2 d.code.c0.toNat ++ [' '] ++
    hexDigits 2 d.code.c1.toNat ++ [' '] ++ hexDigits 2 d.code.c2.toNat ++ [')']

/-! ## Reading -/

/-- The value of a digit in base 10 or 16. -/
def digitValue (base : Nat) (c : Char) : Option Nat :=
  let n := c.toNat
  let v := if 48 ≤ n ∧ n ≤ 57 then n - 48
    else if 65 ≤ n ∧ n ≤ 70 then n - 55
    else if 97 ≤ n ∧ n ≤ 102 then n - 87
    else base
  if v < base then some v else none

/-- The value of digits in a base, on top of what was read. -/
def digitsValue (base : Nat) : Nat → List Char → Option Nat
  | acc, [] => some acc
  | acc, c :: rest =>
    match digitValue base c with
    | none => none
    | some v => digitsValue base (acc * base + v) rest

/-- A number: decimal, or hexadecimal with `0x` (R103). -/
def readNumber : List Char → Option Nat
  | [] => none
  | '0' :: 'x' :: c :: rest => digitsValue 16 0 (c :: rest)
  | c :: rest => digitsValue 10 0 (c :: rest)

/-- A number below a bound. -/
def readBelow (bound : Nat) (cs : List Char) : Option Nat :=
  match readNumber cs with
  | none => none
  | some n => if n < bound then some n else none

/-- A bit operand `0 | 1`. -/
def readBit : List Char → Option Bool
  | ['0'] => some false
  | ['1'] => some true
  | _ => none

/-- An instance operand `RAW | PULSE`. -/
def readRing (cs : List Char) : Option RingId :=
  if cs = ringName .raw then some .raw else if cs = ringName .pulse then some .pulse else none

/-- A duration operand. -/
def readDuration (cs : List Char) : Option Duration := (readBelow 32768 cs).map (BitVec.ofNat 15)

/-- A byte operand. -/
def readByte (cs : List Char) : Option Byte := (readBelow 256 cs).map (BitVec.ofNat 8)

/-- A 24-bit operand. -/
def readWord24 (cs : List Char) : Option (BitVec 24) := (readBelow 16777216 cs).map (BitVec.ofNat 24)

/-- A record operand in its alternative spelling. -/
def readRecord (cs : List Char) : Option PulseRecord :=
  (readBelow 65536 cs).map fun n => PulseRecord.ofRec (BitVec.ofNat 16 n)

/-- A level operand `H | L`. -/
def readLevel : List Char → Option Bool
  | ['H'] => some true
  | ['L'] => some false
  | _ => none

/-- Cut at each separator. -/
def cutAt (sep : Char) : List Char → List (List Char)
  | [] => [[]]
  | c :: rest =>
    match cutAt sep rest with
    | [] => [[c]]
    | w :: ws => if c = sep then [] :: w :: ws else (c :: w) :: ws

/-- A text without its leading spaces. -/
def skipSpaces : List Char → List Char
  | [] => []
  | c :: rest => if c = ' ' then skipSpaces rest else c :: rest

/-- A text without its outer spaces. -/
def trimSpaces (cs : List Char) : List Char := (skipSpaces (skipSpaces cs).reverse).reverse

/-- The operands after a mnemonic: none, or separated by commas. -/
def operandsOf (cs : List Char) : List (List Char) :=
  let t := trimSpaces cs
  if t = [] then [] else (cutAt ',' t).map trimSpaces

/-- The operations a mnemonic and its operands stand for (R103, R104). -/
def readOperation (mnemonic : List Char) (args : List (List Char)) : Option (List Instr) :=
  match String.ofList mnemonic, args with
  | "SAMPLE", [x] => (readBit x).map fun x => [.sample x]
  | "POLL", [] => some [.poll]
  | "TIMER", [] => some [.timer]
  | "REGCB", [h] => (readWord24 h).map fun h => [.regcb h]
  | "RESET", [] => some [.reset]
  | "FLT.FRAME", [c] => (readWord24 c).map fun c => [.fltFrame (Code.ofC24 c)]
  | "RB.PUSH", [b, v] => (readRing b).bind fun b => (readByte v).map fun v => [.rbPush b v]
  | "RB.POP", [b] => (readRing b).map fun b => [.rbPop b]
  | "RB.LEN", [b] => (readRing b).map fun b => [.rbLen b]
  | "RB.CLEAR", [b] => (readRing b).map fun b => [.rbClear b]
  | "RLE.BIT", [x] => (readBit x).map fun x => [.rleBit x]
  | "RLE.STEP", [] => some [.rleStep]
  | "DEC.PULSE", [lv, d] => (readLevel lv).bind fun lv => (readDuration d).map fun d => [.decPulse ⟨lv, d⟩]
  | "DEC.PULSE", [r] => (readRecord r).map fun r => [.decPulse r]
  | "DEC.STEP", [] => some [.decStep]
  | "SAMPLE.BYTE", [v] => (readByte v).map sampleByte
  | "SAMPLE.RUN", [x, n] => (readBit x).bind fun x => (readNumber n).map (sampleRun x)
  | "RLE.BYTE", [v] => (readByte v).map rleByte
  | "DEC.PAIR", [t1, t2] => (readDuration t1).bind fun t1 => (readDuration t2).map (decPair t1)
  | "TIMER.N", [n] => (readNumber n).map timerN
  | "RB.RECORD", [r] => (readRecord r).map rbRecord
  | _, _ => none

/-- A trace line: a mnemonic, its operands, and an optional comment after `;` (R103). -/
def readLine (line : List Char) : Option (List Instr) :=
  let t := trimSpaces ((cutAt ';' line).headD [])
  readOperation (t.takeWhile (· ≠ ' ')) (operandsOf (t.dropWhile (· ≠ ' ')))

end Sys2Proof.Machine
end

