-- ==== Sys2Proof/Safety.lean ====
section
/-! DEFINITION. What a legal state is, runs of operations, and the other terms that claims use. -/

namespace Sys2Proof.Machine

/-- A ring of capacity `cap` in the form of 10_state.md R21 to R23: cursors in `0 .. cap`, its memory in canonical form and
within `0 .. cap`. -/
abbrev RingLegal (cap : Nat) (r : Ring) : Prop :=
  r.head ≤ cap ∧ r.tail ≤ cap ∧ r.mem.wf = true ∧ ∀ c ∈ r.mem, c.1 ≤ cap

/-- Every element is in its range (10_state.md R23, R31, R35, R49), and a tick is held only while `ie` is 0 (60_exceptions.md
R226); the ranges of `smp.cnt`, `rle.count` and `dec.t1` are their types. -/
abbrev Legal (s : State) : Prop :=
  RingLegal s.cfg.rawCap s.raw ∧ RingLegal s.cfg.pulseCap s.pulse ∧ s.dec.bitCount ≤ frameBits ∧
    (s.dec.phase = .receivingData → s.dec.bitCount < frameBits) ∧ s.flt.refrCnt ≤ s.cfg.refractoryTicks ∧
    (s.ie = true → s.pendingTick = none)

/-- Operations performed one after another (20_memory.md R75), stopping at the first that has no next state. -/
def run : List Instr → State → Host.Outcome State Fault Refusal
  | [], s => .next s
  | i :: rest, s =>
    match exec i s with
    | .next t => run rest t
    | .fault f => .fault f
    | .refused r => .refused r

/-- The samples that operations take, in order: the operand of each SAMPLE, and those of the ticks whose SAMPLE runs inside the
other operations. -/
def samplesTaken : List Instr → State → List Bool
  | [], _ => []
  | i :: rest, s =>
    match exec i s with
    | .next t =>
      (match sampleOperand i with
        | some x => [x]
        | none => if s.ie then s.ticks.flatten.take (s.ticks.flatten.length - t.ticks.flatten.length) else []) ++
      samplesTaken rest t
    | .fault _ => []
    | .refused _ => []

/-- The interrupt agent is idle: none of its ticks is held, to fall inside a task operation, or to be issued (60_exceptions.md
R236). -/
abbrev InterruptIdle (s : State) : Prop :=
  s.pendingTick = none ∧ s.ticks.flatten = [] ∧ ∀ w, .issue .interrupt w ∉ s.sched

/-- The records held in a PULSE queue: whole pairs of bytes, oldest first (30_encoding.md R93). -/
def recordsOf : List Byte → List PulseRecord
  | b0 :: b1 :: rest => recordOfBytes b0 b1 :: recordsOf rest
  | [_] => []
  | [] => []

/-- The ticks of the given level in a list of records. -/
def ticksAt (level : Bool) : List PulseRecord → Nat
  | [] => 0
  | r :: rest => (if r.level = level then r.duration.toNat else 0) + ticksAt level rest

/-- The values 10_state.md R45 gives after RESET, for every element whose value it gives. -/
def AtReset (s : State) : Prop :=
  s.raw.head = 0 ∧ s.raw.tail = 0 ∧ s.pulse.head = 0 ∧ s.pulse.tail = 0 ∧
  s.smp.acc = 0x00#8 ∧ s.smp.cnt = 0 ∧ s.rle.level = false ∧ s.rle.count = 0#15 ∧
  s.dec.phase = .seekingSync ∧ s.dec.bitCount = 0 ∧ s.dec.code = ⟨0#8, 0#8, 0#8⟩ ∧ s.dec.t1Valid = false ∧ s.dec.t1 = 0#15 ∧
  s.flt.candValid = false ∧ s.flt.cand = ⟨0#8, 0#8, 0#8⟩ ∧ s.flt.refrCnt = 0 ∧
  s.cb.registered = false ∧ s.cb.handle = 0#24

/-- Two states are equal but for the order in which silent drops were noted. -/
def SameButDropOrder (s t : State) : Prop :=
  { s with drops := [] } = { t with drops := [] } ∧ s.drops.Perm t.drops

/-- No ring overflowed between two states of a run (60_exceptions.md R221, causes 1 and 2). -/
def NoOverflow (s t : State) : Prop :=
  t.drops.count .rawOverflow = s.drops.count .rawOverflow ∧ t.drops.count .pulseOverflow = s.drops.count .pulseOverflow

/-- No SAMPLE runs inside a task operation: no tick is to fall there, or interrupts are disabled (60_exceptions.md R225). -/
abbrev Uninterrupted (s : State) : Prop := s.ticks = [] ∨ s.ie = false

end Sys2Proof.Machine
end

