-- ==== Sys2Proof/Certificates/Slice0/Obligations.lean ====
section
/-! DEFINITION. The statements for the provers, each from numbered rules of spec/ (cited in OBLIGATIONS.json). A statement about
`exec` holds in every state that meets its hypotheses, reached or not, and under every configuration. -/

open Sys2Proof Sys2Proof.Machine

/-! ## Encodings (30_encoding.md) -/

/-- Decode and encode agree, one way: no operand bit is dropped (R95 to R98, R106). -/
def Obligations.DecodeOfEncodeIsTheOperation : Prop := ∀ i : Instr, decode (encode i) = .ok i

/-- Decode and encode agree, the other way: each legal word names one operation with one operand value (R99). -/
def Obligations.EncodeOfDecodeIsTheWord : Prop := ∀ (w : Word) (i : Instr), decode w = .ok i → encode i = w

/-- A word selects a row iff `(W & mask) == match`; the rows are disjoint; a word that selects none is reserved (R97). -/
def Obligations.DecoderFollowsTheOperationMap : Prop :=
  (∀ (w : Word) (i : Instr), decode w = .ok i → (opcodeRow i).selects w = true) ∧
  (∀ (w : Word) (r : OpcodeRow), r ∈ opcodeTable → r.selects w = true → ∃ i, decode w = .ok i ∧ opcodeRow i = r) ∧
  (∀ w : Word, (∀ r ∈ opcodeTable, r.selects w = false) → ∃ e, decode w = .error e)

/-- The words of 95_test_vectors.md V51 decode to the operations it names. -/
def Obligations.SpecWordsDecode : Prop :=
  decode 0x10000001#32 = .ok (.sample true) ∧ decode 0x81000080#32 = .ok (.rbPush .pulse 0x80#8) ∧
  decode 0x91000000#32 = .ok (.rbPop .pulse) ∧ decode 0xA0000000#32 = .ok (.rbLen .raw) ∧
  decode 0xC0000000#32 = .ok (.rleBit false) ∧ decode 0xE000800A#32 = .ok (.decPulse ⟨true, 10#15⟩) ∧
  decode 0xE0000118#32 = .ok (.decPulse ⟨false, 280#15⟩) ∧
  decode 0x600CBBAA#32 = .ok (.fltFrame ⟨0x0C#8, 0xBB#8, 0xAA#8⟩) ∧ decode 0x4000BEEF#32 = .ok (.regcb 0x00BEEF#24) ∧
  decode 0x20000000#32 = .ok .poll ∧ decode 0x30000000#32 = .ok .timer ∧ decode 0x50000000#32 = .ok .reset ∧
  decode 0xD0000000#32 = .ok .rleStep ∧ decode 0xF0000000#32 = .ok .decStep

/-- A record in PULSE: `B0 = rec[15:8]`, `B1 = rec[7:0]` with `rec = level * 32768 + duration`; back, `level = B0[7]` and
`duration = B0[6:0] * 256 + B1` (R92, R93). -/
def Obligations.RecordBytesRoundTrip : Prop :=
  (∀ r : PulseRecord,
    (recordByte0 r).toNat = (r.level.toNat * 32768 + r.duration.toNat) / 256 ∧
    (recordByte1 r).toNat = (r.level.toNat * 32768 + r.duration.toNat) % 256 ∧
    recordOfBytes (recordByte0 r) (recordByte1 r) = r) ∧
  (∀ b0 b1 : Byte,
    (recordOfBytes b0 b1).level = b0.getLsbD 7 ∧
    (recordOfBytes b0 b1).duration.toNat = b0.toNat % 128 * 256 + b1.toNat)

/-- Writing data bit `i` of a code writes that bit and leaves the other 23 (R94, 43_frame_decoder.md R174). -/
def Obligations.CodeBitWriteTouchesOneBit : Prop :=
  ∀ (c : Code) (i : Nat) (x : Bool), i < 24 →
    ∀ j, j < 24 → codeBit (writeCodeBit c i x) j = if j = i then x else codeBit c j

/-! ## The step -/

/-- A step runs the operation the next command word decodes to, issued from a context that may issue it (30_encoding.md R97,
60_exceptions.md R236): SAMPLE from the interrupt agent while `ie` is 1, RESET from the host, every other operation from the
task agent, and SAMPLE from the task agent (a test bench) while the interrupt agent is idle. The step adds only that the event
leaves the schedule (R106; the schedule is the model's, log 5, and what an idle interrupt agent is, log 8). -/
def Obligations.StepRunsTheDecodedOperation : Prop :=
  ∀ (s : State) (a : Agent) (w : Word) (rest : List Event) (i : Instr),
    s.cfg.legal = true → s.sched = .issue a w :: rest → decode w = .ok i →
    ((a = .interrupt ∧ (∃ x, i = .sample x) ∧ s.ie = true) ∨ (a = .host ∧ i = .reset) ∨
      (a = .task ∧ i ≠ .reset ∧ ∀ x, i ≠ .sample x) ∨
      (a = .task ∧ (∃ x, i = .sample x) ∧ s.pendingTick = none ∧ s.ticks.flatten = [] ∧
        ∀ w', .issue .interrupt w' ∉ rest)) →
    step s = exec i { s with sched := rest }

/-- A reserved word is refused by name, from whatever agent (the refusal the spec asks of a model, R100; log 7). -/
def Obligations.ReservedWordIsRefused : Prop :=
  ∀ (s : State) (a : Agent) (w : Word) (rest : List Event) (e : Reject),
    s.cfg.legal = true → s.sched = .issue a w :: rest → decode w = .error e →
    step s = .refused (refusalOf e)

/-- An operation issued from the wrong context is refused (60_exceptions.md R236): anything but SAMPLE from the interrupt agent,
anything but RESET from the host, RESET from the task agent, and SAMPLE from the task agent while the interrupt agent has a tick
held, to fall or to be issued (what an idle interrupt agent is, is the model's reading, log 8). -/
def Obligations.WrongContextIsRefused : Prop :=
  ∀ (s : State) (a : Agent) (w : Word) (rest : List Event) (i : Instr),
    s.cfg.legal = true → s.sched = .issue a w :: rest → decode w = .ok i →
    ((a = .interrupt ∧ ∀ x, i ≠ .sample x) ∨ (a = .host ∧ i ≠ .reset) ∨ (a = .task ∧ i = .reset) ∨
      (a = .task ∧ (∃ x, i = .sample x) ∧
        (s.pendingTick ≠ none ∨ s.ticks.flatten ≠ [] ∨ ∃ w', .issue .interrupt w' ∈ rest))) →
    step s = .refused .wrongContext

/-- With no event to come the block holds its state (60_exceptions.md R241); a write of `ie` by the host, with no tick held,
changes only `ie` (10_state.md R39; the event is the model's, log 4). -/
def Obligations.StepWithoutAnOperation : Prop :=
  ∀ s : State, s.cfg.legal = true →
    (s.sched = [] → step s = .next s) ∧
    (∀ (v : Bool) (rest : List Event), s.sched = .hostIe v :: rest → (v = false ∨ s.pendingTick = none) →
      step s = .next { s with sched := rest, ie := v })

/-- The sampler interrupt is masked exactly while `ie` is 0: a tick that occurs then is held, a second one is lost, and the
SAMPLE of the held one runs as soon as the host sets `ie` to 1 (60_exceptions.md R225, R226; the field that holds it is the
model's, log 19). -/
def Obligations.MaskedTickWaitsForIe : Prop :=
  ∀ (s : State) (w : Word) (x : Bool) (rest : List Event), s.cfg.legal = true → s.ie = false →
    (s.sched = .issue .interrupt w :: rest → decode w = .ok (.sample x) →
      (s.pendingTick = none → step s = .next { s with sched := rest, pendingTick := some x }) ∧
      (s.pendingTick ≠ none → step s = .next { s with sched := rest })) ∧
    (s.sched = .hostIe true :: rest → s.pendingTick = some x →
      ∃ t, step s = .next t ∧ exec (.sample x) { s with sched := rest, ie := true, pendingTick := none } = .next t)

/-- Where a step stops: under a configuration outside its constraints, and otherwise only on a reserved word or an operation from
a context that may not issue it; never with a fault (60_exceptions.md R220; 93_implementation_defined.md U15, U16, U19; the
refusals' names are the model's, log 7, log 8, log 15). The constraints are those of 00_scope.md R8 and 10_state.md R40. -/
def Obligations.StepStopsOnlyOutsideTheModel : Prop :=
  (∀ c : Config, c.legal = true ↔
    (1 ≤ c.syncMinRatio ∧ c.syncMinRatio ≤ c.syncMaxRatio ∧ c.syncMaxRatio ≤ 64 ∧
      1 ≤ c.dataMinRatio ∧ c.dataMinRatio ≤ c.dataMaxRatio ∧ c.dataMaxRatio ≤ 64 ∧
      1 ≤ c.rawCap ∧ 2 ≤ c.pulseCap ∧ c.pulseCap % 2 = 0 ∧ 0 < c.samplerTickUs)) ∧
  ∀ s : State,
    (s.cfg.legal = false → step s = .refused .illegalConfiguration) ∧
    (s.cfg.legal = true → ∀ r, step s = .refused r → ∃ a w rest, s.sched = .issue a w :: rest ∧
      ((∃ e, decode w = .error e ∧ r = refusalOf e) ∨
        (r = .wrongContext ∧ ∃ i, decode w = .ok i ∧
          ((a = .interrupt ∧ ∀ x, i ≠ .sample x) ∨ (a = .host ∧ i ≠ .reset) ∨ (a = .task ∧ i = .reset) ∨
            (a = .task ∧ (∃ x, i = .sample x) ∧ ¬ InterruptIdle { s with sched := rest }))))) ∧
    (∀ f, step s ≠ .fault f)

/-! ## The ring buffer (40_ring_buffer.md) -/

/-- RB.PUSH: the byte at the tail's slot and no other slot, the cursors modulo CAP + 1, the oldest byte dropped on a full ring,
and nothing else (R121). The tail is in its range (10_state.md R22, an invariant: `EveryStepKeepsTheStateLegal`). -/
def Obligations.PushWritesTheTailSlotAndAdvances : Prop :=
  ∀ (b : RingId) (v : Byte) (s : State), (s.ring b).mem.wf = true → (s.ring b).tail ≤ s.cap b →
    ∃ t, exec (.rbPush b v) s = .next t ∧
      (t.ring b).mem.read (s.ring b).tail = v ∧
      (∀ a, a ≠ (s.ring b).tail → (t.ring b).mem.read a = (s.ring b).mem.read a) ∧
      (t.ring b).tail = ((s.ring b).tail + 1) % (s.cap b + 1) ∧
      (t.ring b).head = (if ((s.ring b).tail + 1) % (s.cap b + 1) = (s.ring b).head
        then ((s.ring b).head + 1) % (s.cap b + 1) else (s.ring b).head) ∧
      t.drops = s.drops ++ (if ((s.ring b).tail + 1) % (s.cap b + 1) = (s.ring b).head
        then [match b with | .raw => .rawOverflow | .pulse => .pulseOverflow] else []) ∧
      t = { s.setRing b (t.ring b) with drops := t.drops }

/-- RB.POP: none and no change on an empty ring; else the byte at the head, and only the head moves (R122). The head is in its
range (10_state.md R22). -/
def Obligations.PopReturnsTheOldestByte : Prop :=
  ∀ (b : RingId) (s : State), (s.ring b).head ≤ s.cap b →
    ((s.ring b).head = (s.ring b).tail → exec (.rbPop b) s = .next (s.respond (.pop none))) ∧
    ((s.ring b).head ≠ (s.ring b).tail →
      exec (.rbPop b) s = .next ((s.setRing b
        { s.ring b with head := ((s.ring b).head + 1) % (s.cap b + 1) }).respond
          (.pop (some ((s.ring b).mem.read (s.ring b).head)))))

/-- RB.LEN responds `(tail - head) mod (CAP + 1)`, at most CAP, and changes nothing (R123). -/
def Obligations.LenReportsTheCount : Prop :=
  ∀ (b : RingId) (s : State), (s.ring b).head ≤ s.cap b → (s.ring b).tail ≤ s.cap b →
    ∃ n : Nat, exec (.rbLen b) s = .next (s.respond (.len n)) ∧ n ≤ s.cap b ∧
      (n : Int) = (((s.ring b).tail : Int) - ((s.ring b).head : Int)) % ((s.cap b : Int) + 1)

/-- RB.CLEAR sets both cursors to 0 and modifies nothing else, the memory included (R124). -/
def Obligations.ClearZeroesTheCursors : Prop :=
  ∀ (b : RingId) (s : State),
    exec (.rbClear b) s = .next (s.setRing b ⟨(s.ring b).mem, 0, 0⟩)

/-- The four operations on the abstract queue of at most CAP bytes, oldest first (R125). -/
def Obligations.RingOperationsActOnTheQueue : Prop :=
  ∀ (b : RingId) (s : State), 1 ≤ s.cap b → RingLegal (s.cap b) (s.ring b) →
    (∀ v, ∃ t, exec (.rbPush b v) s = .next t ∧
      t.queue b = if (s.queue b).length < s.cap b then s.queue b ++ [v] else (s.queue b).tail ++ [v]) ∧
    (s.queue b = [] → exec (.rbPop b) s = .next (s.respond (.pop none))) ∧
    (∀ x r, s.queue b = x :: r → ∃ t, exec (.rbPop b) s = .next t ∧ t.queue b = r ∧
      t.responses = s.responses ++ [.pop (some x)]) ∧
    (exec (.rbLen b) s = .next (s.respond (.len (s.queue b).length))) ∧
    (∃ t, exec (.rbClear b) s = .next t ∧ t.queue b = [])

/-- The overwrite property: N + k pushes leave the last N bytes, popped oldest first and then none; and after any pushes and
pops the queue is a run of the pushed bytes ending at the last, of length at most CAP (R126). -/
def Obligations.OverwriteKeepsTheLastBytes : Prop :=
  ∀ (b : RingId) (s : State), 1 ≤ s.cap b → RingLegal (s.cap b) (s.ring b) → (s.ring b).head = (s.ring b).tail →
    (∀ vs : List Byte, s.cap b ≤ vs.length → ∃ t u, run (vs.map (.rbPush b)) s = .next t ∧
      t.queue b = vs.drop (vs.length - s.cap b) ∧
      run (List.replicate (s.cap b + 1) (.rbPop b)) t = .next u ∧
      u.responses = t.responses ++ (vs.drop (vs.length - s.cap b)).map (fun v => .pop (some v)) ++ [.pop none]) ∧
    (∀ ops : List (Option Byte), ∃ t,
      run (ops.map fun o => match o with | some v => .rbPush b v | none => .rbPop b) s = .next t ∧
      t.queue b <:+ ops.filterMap id ∧ (t.queue b).length ≤ s.cap b)

/-- Every operation leaves `ie` as it found it (20_memory.md R73). -/
def Obligations.EveryOperationRestoresIe : Prop :=
  ∀ (i : Instr) (s t : State), exec i s = .next t → t.ie = s.ie

/-! ## The sampler (41_pulse_sampler.md) -/

/-- SAMPLE shifts the sample in and counts it; the eighth pushes the byte to RAW and zeroes the count (R141). -/
def Obligations.SampleShiftsAndPushesTheEighth : Prop :=
  ∀ (x : Bool) (s : State),
    (s.smp.cnt.val < 7 → ∃ n : Fin 8, n.val = s.smp.cnt.val + 1 ∧ exec (.sample x) s =
      .next { s with smp := ⟨BitVec.ofNat 8 ((s.smp.acc.toNat * 2 + x.toNat) % 256), n⟩ }) ∧
    (s.smp.cnt.val = 7 → ∃ t, exec (.sample x) s = .next t ∧
      exec (.rbPush .raw (BitVec.ofNat 8 ((s.smp.acc.toNat * 2 + x.toNat) % 256)))
        { s with smp := ⟨BitVec.ofNat 8 ((s.smp.acc.toNat * 2 + x.toNat) % 256), 0⟩ } = .next t)

/-- From a byte boundary, samples are pushed to RAW eight to a byte, the earliest in bit 7, and no byte at any other SAMPLE:
whole bytes and fewer than eight samples more leave RAW as pushing those bytes does (R142). -/
def Obligations.SamplesArePushedEightToAByte : Prop :=
  ∀ (bytes : List Byte) (more : List Bool) (s : State), s.smp.cnt = 0 → more.length < 8 →
    ∃ t u, run ((bytes.flatMap (fun v => (List.range 8).map fun j => v.getLsbD (7 - j)) ++ more).map .sample) s = .next t ∧
      run (bytes.map (.rbPush .raw)) s = .next u ∧
      t.raw = u.raw ∧ t.drops = u.drops ∧ t.smp.cnt.val = more.length

/-! ## The run-length encoder (42_run_length_encoder.md) -/

/-- RLE.BIT extends the run, saturating, or closes it: the record's two bytes are pushed to PULSE and a run of one tick of the
other level begins. Only the two slots at PULSE's tail, which is in its range (10_state.md R22), are written (R151, R152). -/
def Obligations.RleBitExtendsOrClosesTheRun : Prop :=
  ∀ (x : Bool) (s : State), s.pulse.mem.wf = true → s.pulse.tail ≤ s.cfg.pulseCap →
    (x = s.rle.level →
      exec (.rleBit x) s = .next { s with rle := ⟨x, BitVec.ofNat 15 (min (s.rle.count.toNat + 1) 32767)⟩ }) ∧
    (x ≠ s.rle.level → ∃ t u, exec (.rleBit x) s = .next t ∧
      run [.rbPush .pulse (BitVec.ofNat 8 ((s.rle.level.toNat * 32768 + s.rle.count.toNat) / 256)),
           .rbPush .pulse (BitVec.ofNat 8 ((s.rle.level.toNat * 32768 + s.rle.count.toNat) % 256))] s = .next u ∧
      t = { u with rle := ⟨x, 1#15⟩ } ∧
      (∀ a, a ≠ s.pulse.tail → a ≠ (s.pulse.tail + 1) % (s.cfg.pulseCap + 1) →
        t.pulse.mem.read a = s.pulse.mem.read a) ∧
      (∀ a, t.raw.mem.read a = s.raw.mem.read a))

/-- An emission into a full PULSE drops exactly the oldest record's two bytes and always succeeds (R152, 20_memory.md R66). -/
def Obligations.EmissionIntoFullPulseDropsTwoBytes : Prop :=
  ∀ (x : Bool) (s : State), 2 ≤ s.cfg.pulseCap → RingLegal s.cfg.pulseCap s.pulse → x ≠ s.rle.level →
    (s.queue .pulse).length = s.cfg.pulseCap →
    ∃ t, exec (.rleBit x) s = .next t ∧
      t.queue .pulse = (s.queue .pulse).drop 2 ++
        [recordByte0 ⟨s.rle.level, s.rle.count⟩, recordByte1 ⟨s.rle.level, s.rle.count⟩] ∧
      t.drops = s.drops ++ [.pulseOverflow, .pulseOverflow]

/-- A run of `n` more equal samples counts to `min(count + n, 32767)` and emits nothing (R153). -/
def Obligations.RunsSaturate : Prop :=
  ∀ (n : Nat) (s : State), run (List.replicate n (.rleBit s.rle.level)) s =
    .next { s with rle := ⟨s.rle.level, BitVec.ofNat 15 (min (s.rle.count.toNat + n) 32767)⟩ }

/-- RLE.STEP: nothing on an empty RAW; else the byte at RAW's head, which is in its range (10_state.md R22), leaves RAW and its
eight bits are accounted, bit 7 first (R154). -/
def Obligations.RleStepEncodesOneByte : Prop :=
  ∀ s : State, s.raw.head ≤ s.cfg.rawCap →
    (s.raw.head = s.raw.tail → exec .rleStep s = .next s) ∧
    (s.raw.head ≠ s.raw.tail → ∃ t, exec .rleStep s = .next t ∧
      run ((List.range 8).map fun j => .rleBit ((s.raw.mem.read s.raw.head).getLsbD (7 - j)))
        { s with raw := { s.raw with head := (s.raw.head + 1) % (s.cfg.rawCap + 1) } } = .next t)

/-- Run-length fidelity: with no run over 32767 ticks and no overflow, the durations emitted at a level and the pending run's
account for every sample of that level (R157). -/
def Obligations.RunLengthsAreExact : Prop :=
  ∀ (bits : List Bool) (s t : State), 2 ≤ s.cfg.pulseCap → RingLegal s.cfg.pulseCap s.pulse → s.pulse.head = s.pulse.tail →
    s.rle = ⟨false, 0#15⟩ → (∀ (x : Bool) (n : Nat), List.replicate n x <:+: bits → n ≤ 32767) →
    run (bits.map .rleBit) s = .next t → NoOverflow s t →
    ∀ x : Bool, ticksAt x (recordsOf (t.queue .pulse)) + (if t.rle.level = x then t.rle.count.toNat else 0) = bits.count x

/-- Alternation: the first record after RESET is low and consecutive records have opposite levels (R158); only the first can have
duration 0 (R155, 10_state.md R49). -/
def Obligations.EmittedRecordsAlternate : Prop :=
  ∀ (bits : List Bool) (s t : State), 2 ≤ s.cfg.pulseCap → RingLegal s.cfg.pulseCap s.pulse → s.pulse.head = s.pulse.tail →
    s.rle = ⟨false, 0#15⟩ → run (bits.map .rleBit) s = .next t → NoOverflow s t →
    ∀ (k : Nat) (r : PulseRecord), (recordsOf (t.queue .pulse))[k]? = some r →
      r.level = decide (k % 2 = 1) ∧ (0 < k → 1 ≤ r.duration.toNat)

/-! ## The frame decoder (43_frame_decoder.md) -/

/-- DEC.PULSE forms pairs: a high record becomes `t1`, replacing a held one; a low record with no `t1` is skipped (R167, R169). -/
def Obligations.DecPulseFormsPairs : Prop :=
  ∀ (d : Duration) (s : State),
    exec (.decPulse ⟨true, d⟩) s = .next { s with
      dec := { s.dec with t1 := d, t1Valid := true },
      drops := s.drops ++ (if s.dec.t1Valid then [.highReplaced] else []) } ∧
    (s.dec.t1Valid = false → exec (.decPulse ⟨false, d⟩) s = .next { s with drops := s.drops ++ [.lowSkipped] })

/-- A pair completed in SeekingSync is consumed, and accepted as a sync pair iff `t1 * SMIN <= t2 <= t1 * SMAX` (R170 to R172). -/
def Obligations.SyncPairStartsAFrame : Prop :=
  ∀ (d : Duration) (s : State), s.dec.t1Valid = true → s.dec.phase = .seekingSync →
    ((s.dec.t1.toNat * s.cfg.syncMinRatio ≤ d.toNat ∧ d.toNat ≤ s.dec.t1.toNat * s.cfg.syncMaxRatio) →
      exec (.decPulse ⟨false, d⟩) s = .next { s with
        dec := ⟨.receivingData, 0, ⟨0x00#8, 0x00#8, 0x00#8⟩, false, s.dec.t1⟩ }) ∧
    (¬ (s.dec.t1.toNat * s.cfg.syncMinRatio ≤ d.toNat ∧ d.toNat ≤ s.dec.t1.toNat * s.cfg.syncMaxRatio) →
      exec (.decPulse ⟨false, d⟩) s = .next { s with
        dec := { s.dec with t1Valid := false }, drops := s.drops ++ [.badSync] })

/-- A pair completed in ReceivingData is consumed: it is data bit 1, data bit 0, or abandons the frame; the 24th bit returns to
SeekingSync and hands the code to the filter (R173 to R176). -/
def Obligations.DataPairIsABitOrAbandonsTheFrame : Prop :=
  ∀ (d : Duration) (s : State), s.cfg.legal = true → s.dec.t1Valid = true → s.dec.phase = .receivingData →
    s.dec.bitCount < 24 →
    (∀ x : Bool,
      (if x then d.toNat * s.cfg.dataMinRatio < s.dec.t1.toNat ∧ s.dec.t1.toNat ≤ d.toNat * s.cfg.dataMaxRatio
       else s.dec.t1.toNat * s.cfg.dataMinRatio < d.toNat ∧ d.toNat ≤ s.dec.t1.toNat * s.cfg.dataMaxRatio) →
      (s.dec.bitCount < 23 → exec (.decPulse ⟨false, d⟩) s = .next { s with
        dec := ⟨.receivingData, s.dec.bitCount + 1, writeCodeBit s.dec.code s.dec.bitCount x, false, s.dec.t1⟩ }) ∧
      (s.dec.bitCount = 23 → ∃ t, exec (.decPulse ⟨false, d⟩) s = .next t ∧
        exec (.fltFrame (writeCodeBit s.dec.code 23 x)) { s with
          dec := ⟨.seekingSync, 24, writeCodeBit s.dec.code 23 x, false, s.dec.t1⟩ } = .next t)) ∧
    ((¬ (d.toNat * s.cfg.dataMinRatio < s.dec.t1.toNat ∧ s.dec.t1.toNat ≤ d.toNat * s.cfg.dataMaxRatio) ∧
      ¬ (s.dec.t1.toNat * s.cfg.dataMinRatio < d.toNat ∧ d.toNat ≤ s.dec.t1.toNat * s.cfg.dataMaxRatio)) →
      exec (.decPulse ⟨false, d⟩) s = .next { s with
        dec := { s.dec with phase := .seekingSync, t1Valid := false }, drops := s.drops ++ [.badBit] })

/-- DEC.STEP: nothing while PULSE holds fewer than 2 bytes; else two bytes leave PULSE and the record `B0 * 256 + B1` is
decoded (R177). -/
def Obligations.DecStepPopsOneRecord : Prop :=
  ∀ s : State, s.pulse.head ≤ s.cfg.pulseCap → s.pulse.tail ≤ s.cfg.pulseCap →
    ((s.queue .pulse).length < 2 → exec .decStep s = .next s) ∧
    (2 ≤ (s.queue .pulse).length → ∃ t b0 b1 rest, s.queue .pulse = b0 :: b1 :: rest ∧ exec .decStep s = .next t ∧
      exec (.decPulse (PulseRecord.ofRec (BitVec.ofNat 16 (b0.toNat * 256 + b1.toNat)))) { s with
        pulse := { s.pulse with head := (s.pulse.head + 2) % (s.cfg.pulseCap + 1) } } = .next t)

/-- A whole frame: a sync pair and 24 classified pairs bring the code of their bits, first bit first, to the filter, with the
decoder back in SeekingSync (R171 to R175). -/
def Obligations.FrameDecodesToItsBits : Prop :=
  ∀ (s : State) (t1 t2 : Duration) (pairs : List (Duration × Duration)) (bits : List Bool) (last : Duration × Duration),
    s.cfg.legal = true → s.dec.phase = .seekingSync → s.dec.t1Valid = false →
    t1.toNat * s.cfg.syncMinRatio ≤ t2.toNat → t2.toNat ≤ t1.toNat * s.cfg.syncMaxRatio →
    List.Forall₂ (fun (p : Duration × Duration) (x : Bool) =>
      if x then p.2.toNat * s.cfg.dataMinRatio < p.1.toNat ∧ p.1.toNat ≤ p.2.toNat * s.cfg.dataMaxRatio
      else p.1.toNat * s.cfg.dataMinRatio < p.2.toNat ∧ p.2.toNat ≤ p.1.toNat * s.cfg.dataMaxRatio) pairs bits →
    bits.length = 24 → pairs.getLast? = some last →
    ∃ c t, (∀ (k : Nat) (x : Bool), bits[k]? = some x → codeBit c k = x) ∧
      run (decPair t1 t2 ++ pairs.flatMap fun p => decPair p.1 p.2) s = .next t ∧
      exec (.fltFrame c) { s with dec := ⟨.seekingSync, 24, c, false, last.1⟩ } = .next t

/-- No wedge: `24 - bit_count` further complete pairs, whatever they are, bring the decoder to SeekingSync at least once
(R184). -/
def Obligations.DecoderNeverWedges : Prop :=
  ∀ (s : State) (pairs : List (Duration × Duration)), s.dec.bitCount ≤ 24 →
    (s.dec.phase = .receivingData → s.dec.bitCount < 24) → pairs.length = 24 →
    ∃ (k : Nat) (t : State), k + s.dec.bitCount ≤ 24 ∧
      run ((pairs.take k).flatMap fun p => decPair p.1 p.2) s = .next t ∧ t.dec.phase = .seekingSync

/-! ## The filter (44_confirmation_filter.md) -/

/-- FLT.FRAME: another code becomes the candidate; a confirmed code inside the window is dropped; outside it starts the window
and is delivered, or lost if nobody registered (R191 to R196). -/
def Obligations.FrameIsConfirmedThenDelivered : Prop :=
  ∀ (c : Code) (s : State),
    ((s.flt.candValid = false ∨ s.flt.cand ≠ c) → exec (.fltFrame c) s = .next { s with
      flt := ⟨true, c, s.flt.refrCnt⟩, drops := s.drops ++ [.unconfirmed] }) ∧
    ((s.flt.candValid = true ∧ s.flt.cand = c) →
      (0 < s.flt.refrCnt → exec (.fltFrame c) s = .next { s with drops := s.drops ++ [.refractory] }) ∧
      (s.flt.refrCnt = 0 → s.cb.registered = true → exec (.fltFrame c) s = .next { s with
        flt := ⟨true, c, s.cfg.refractoryTicks⟩, out := s.out ++ [⟨s.cb.handle, c⟩] }) ∧
      (s.flt.refrCnt = 0 → s.cb.registered = false → exec (.fltFrame c) s = .next { s with
        flt := ⟨true, c, s.cfg.refractoryTicks⟩, drops := s.drops ++ [.noCallback] }))

/-- Exactly once: a delivery happens iff the frame is confirmed, no window is active and a consumer is registered, and then
one (R201). -/
def Obligations.DeliveryExactlyWhenAccepted : Prop :=
  ∀ (c : Code) (s : State), ∃ t, exec (.fltFrame c) s = .next t ∧
    (t.out = s.out ++ [⟨s.cb.handle, c⟩] ↔
      (s.flt.candValid = true ∧ s.flt.cand = c ∧ s.flt.refrCnt = 0 ∧ s.cb.registered = true)) ∧
    (t.out = s.out ∨ t.out = s.out ++ [⟨s.cb.handle, c⟩])

/-- TIMER takes one off the refractory count while the window is active, and changes nothing else (R197). -/
def Obligations.TimerRunsTheWindowDown : Prop :=
  ∀ s : State,
    (0 < s.flt.refrCnt → exec .timer s = .next { s with flt := { s.flt with refrCnt := s.flt.refrCnt - 1 } }) ∧
    (s.flt.refrCnt = 0 → exec .timer s = .next s)

/-- REGCB registers the first consumer; a second registration is ignored (R198). -/
def Obligations.FirstRegistrationStays : Prop :=
  ∀ (h : Handle) (s : State),
    (s.cb.registered = false → exec (.regcb h) s = .next { s with cb := ⟨true, h⟩ }) ∧
    (s.cb.registered = true → exec (.regcb h) s = .next { s with drops := s.drops ++ [.regcbIgnored] })

/-- The source's testable properties: A, B, A delivers nothing and A, A once; a further A, A inside the window delivers nothing;
after the window the first A delivers again, the second not (R200). -/
def Obligations.ConfirmationAndRefractoryProperties : Prop :=
  ∀ (s : State) (A B : Code), A ≠ B → s.cb.registered = true → s.flt.candValid = false → s.flt.refrCnt = 0 →
    1 ≤ s.cfg.refractoryTicks →
    (∃ t, run [.fltFrame A, .fltFrame B, .fltFrame A] s = .next t ∧ t.out = s.out) ∧
    (∃ t, run [.fltFrame A, .fltFrame A] s = .next t ∧ t.out = s.out ++ [⟨s.cb.handle, A⟩]) ∧
    (∀ k, k < s.cfg.refractoryTicks →
      ∃ t, run ([.fltFrame A, .fltFrame A] ++ timerN k ++ [.fltFrame A, .fltFrame A]) s = .next t ∧
        t.out = s.out ++ [⟨s.cb.handle, A⟩]) ∧
    (∃ t, run ([.fltFrame A, .fltFrame A] ++ timerN s.cfg.refractoryTicks ++ [.fltFrame A]) s = .next t ∧
      t.out = s.out ++ [⟨s.cb.handle, A⟩, ⟨s.cb.handle, A⟩]) ∧
    (∃ t, run ([.fltFrame A, .fltFrame A] ++ timerN s.cfg.refractoryTicks ++ [.fltFrame A, .fltFrame A]) s = .next t ∧
      t.out = s.out ++ [⟨s.cb.handle, A⟩, ⟨s.cb.handle, A⟩])

/-- The window holds against the whole machine: whatever operations but RESET run, fewer TIMERs than the window still has to
go deliver no code at all (R194, R199). -/
def Obligations.WindowSuppressesEveryDelivery : Prop :=
  ∀ (ops : List Instr) (s t : State), .reset ∉ ops → ops.count .timer < s.flt.refrCnt →
    run ops s = .next t → t.out = s.out

/-- Nothing but TIMER and RESET moves an active window's count (R194, R197). -/
def Obligations.OnlyTimerMovesAnActiveWindow : Prop :=
  ∀ (i : Instr) (s t : State), i ≠ .timer → i ≠ .reset → 0 < s.flt.refrCnt → exec i s = .next t →
    t.flt.refrCnt = s.flt.refrCnt

/-- Registration survives every operation but RESET (R198, 70_reset_and_hazards.md R265). -/
def Obligations.RegistrationSurvivesEverythingButReset : Prop :=
  ∀ (i : Instr) (s t : State), i ≠ .reset → s.cb.registered = true → exec i s = .next t → t.cb = s.cb

/-- Nothing but RESET ever clears the candidate (10_state.md R39, R202). -/
def Obligations.CandidateIsClearedOnlyByReset : Prop :=
  ∀ (i : Instr) (s t : State), i ≠ .reset → s.flt.candValid = true → exec i s = .next t → t.flt.candValid = true

/-! ## Sequencing (45_pipeline_sequencing.md) -/

/-- POLL with nothing interrupting it: one RLE.STEP for every byte in RAW, then one DEC.STEP for every two bytes then in PULSE;
RAW ends empty and PULSE with fewer than 2 bytes (R211). Ticks that occur while `ie` is 0 leave `State.ticks` and wait in
`State.pendingTick` (60_exceptions.md R226; log 6, log 19). -/
def Obligations.PollDrainsBothBuffers : Prop :=
  ∀ s : State, RingLegal s.cfg.rawCap s.raw → RingLegal s.cfg.pulseCap s.pulse → Uninterrupted s →
    ∃ t u v, exec .poll s = .next t ∧
      run (List.replicate (s.queue .raw).length .rleStep) s = .next u ∧
      run (List.replicate ((u.queue .pulse).length / 2) .decStep) u = .next v ∧
      t = { v with ticks := t.ticks, pendingTick := t.pendingTick } ∧ (s.ticks = [] → t = v) ∧
      t.queue .raw = [] ∧ (t.queue .pulse).length < 2

/-- POLL with nothing waiting changes nothing (R211 corner (a)), but for the ticks that occur and are held while `ie` is 0 (log
6, log 19). -/
def Obligations.PollWithNothingWaitingChangesNothing : Prop :=
  ∀ s : State, s.raw.head = s.raw.tail → s.pulse.head ≤ s.cfg.pulseCap → s.pulse.tail ≤ s.cfg.pulseCap →
    (s.queue .pulse).length < 2 → Uninterrupted s →
    ∃ t, exec .poll s = .next t ∧ t = { s with ticks := t.ticks, pendingTick := t.pendingTick } ∧ (s.ticks = [] → t = s)

/-- POLL is an interleaving of RLE.STEPs, then DEC.STEPs, with the SAMPLEs that fall inside it, in their order. Every RLE.STEP
but the last finds a byte in RAW and the last finds RAW empty; every DEC.STEP but the last finds two bytes in PULSE and the last
fewer (R211 with its corner (c), R212, 20_memory.md R74). `ys` are the ticks that occurred: with `ie` at 1 their SAMPLEs are those
that ran; with `ie` at 0 none ran and the first is held, unless one already was (60_exceptions.md R226). The interruption points
are the model's, log 6. -/
def Obligations.PollIsAnInterleaving : Prop :=
  ∀ s : State, RingLegal s.cfg.rawCap s.raw → RingLegal s.cfg.pulseCap s.pulse →
    ∃ (t u v : State) (encoding decoding : List Instr) (xs ys : List Bool) (n m : Nat), exec .poll s = .next t ∧
      run encoding { s with ticks := t.ticks, pendingTick := t.pendingTick } = .next u ∧
      u.queue .raw = [] ∧ run (.rleStep :: decoding) u = .next v ∧
      (v.queue .pulse).length < 2 ∧ exec .decStep v = .next t ∧ (t.queue .pulse).length < 2 ∧
      encoding.filter (fun i => decide (sampleOperand i = none)) = List.replicate n .rleStep ∧
      decoding.filter (fun i => decide (sampleOperand i = none)) = List.replicate m .decStep ∧
      (encoding ++ decoding).filterMap sampleOperand = xs ∧
      (∀ (k : Nat) (w : State), encoding[k]? = some .rleStep →
        run (encoding.take k) { s with ticks := t.ticks, pendingTick := t.pendingTick } = .next w → w.queue .raw ≠ []) ∧
      (∀ (k : Nat) (w : State), decoding[k]? = some .decStep →
        run (.rleStep :: decoding.take k) u = .next w → 2 ≤ (w.queue .pulse).length) ∧
      ys ++ t.ticks.flatten = s.ticks.flatten ∧
      (s.ie = true → xs = ys ∧ t.pendingTick = s.pendingTick) ∧
      (s.ie = false → xs = [] ∧ t.pendingTick = s.pendingTick.or ys.head?)

/-- Both loops of POLL end by themselves: more turns than the model allows would change nothing (R214; log 13). -/
def Obligations.PollLoopsEndByThemselves : Prop :=
  ∀ (s : State) (k : Nat), RingLegal s.cfg.rawCap s.raw → RingLegal s.cfg.pulseCap s.pulse →
    State.pollEncode (s.encodeFuel + k) s = State.pollEncode s.encodeFuel s ∧
    State.pollDecode (s.decodeFuel + k) s = State.pollDecode s.decodeFuel s

/-- Schedule independence: two schedules of SAMPLEs and POLLs, ticks falling inside the POLLs as they will, that take the same
samples in the same order, end with a POLL, leave no byte in RAW and overflow no ring, leave the same sampler, encoder, decoder,
filter and deliveries (R215). Where ticks may fall inside a POLL is the model's, log 6. -/
def Obligations.PollTimingDoesNotMatter : Prop :=
  ∀ (ops ops' : List Instr) (s s' t t' : State),
    (∀ i ∈ ops, i = .poll ∨ ∃ x, i = .sample x) → (∀ i ∈ ops', i = .poll ∨ ∃ x, i = .sample x) →
    s' = { s with ticks := s'.ticks } → s.cfg.legal = true → Legal s →
    run (ops ++ [.poll]) s = .next t → run (ops' ++ [.poll]) s' = .next t' →
    samplesTaken (ops ++ [.poll]) s = samplesTaken (ops' ++ [.poll]) s' →
    t.queue .raw = [] → t'.queue .raw = [] → NoOverflow s t → NoOverflow s' t' →
    t.smp = t'.smp ∧ t.rle = t'.rle ∧ t.dec = t'.dec ∧ t.flt = t'.flt ∧ t.out = t'.out

/-- RESET brings every element to its reset value and touches neither ring memory, the configuration, `ie` nor what was
delivered (R213, 10_state.md R45); the model's own fields are kept too (log 5, log 6, log 10, log 11, log 19). -/
def Obligations.ResetSetsEveryElement : Prop :=
  ∀ s : State, ∃ t, exec .reset s = .next t ∧ AtReset t ∧
    t.raw.mem = s.raw.mem ∧ t.pulse.mem = s.pulse.mem ∧ t.cfg = s.cfg ∧ t.ie = s.ie ∧ t.out = s.out ∧
    t.pendingTick = s.pendingTick ∧ t.responses = s.responses ∧ t.drops = s.drops ∧ t.sched = s.sched ∧ t.ticks = s.ticks

/-- The reset state has every value R45 gives, and no delivery yet (R43, R45). -/
def Obligations.ResetStateHasTheResetValues : Prop := AtReset State.reset ∧ State.reset.out = []

/-! ## Atomicity and ownership (20_memory.md, 10_state.md R48) -/

/-- A SAMPLE may fall before or after a task operation that performs no RAW operation (RLE.BIT, DEC.PULSE, DEC.STEP, FLT.FRAME,
TIMER, REGCB, and the four ring operations on PULSE), or an RLE.STEP while RAW is neither empty nor full: the outcome is the same
(20_memory.md R74, 60_exceptions.md R231). -/
def Obligations.SampleCommutesWithTaskOperations : Prop :=
  ∀ (y : Bool) (i : Instr) (s : State),
    ((∃ x, i = .rleBit x) ∨ (∃ r, i = .decPulse r) ∨ i = .decStep ∨ (∃ c, i = .fltFrame c) ∨ i = .timer ∨
      (∃ h, i = .regcb h) ∨ (∃ v, i = .rbPush .pulse v) ∨ i = .rbPop .pulse ∨ i = .rbLen .pulse ∨ i = .rbClear .pulse ∨
      (i = .rleStep ∧ RingLegal s.cfg.rawCap s.raw ∧ s.raw.head ≠ s.raw.tail ∧
        (s.raw.tail + 1) % (s.cfg.rawCap + 1) ≠ s.raw.head)) →
    ∃ t u, run [.sample y, i] s = .next t ∧ run [i, .sample y] s = .next u ∧ SameButDropOrder t u

/-- Ownership: SAMPLE touches only `smp` and RAW; a task operation that no SAMPLE interrupts never touches `smp` (R48). -/
def Obligations.ContextsOwnTheirState : Prop :=
  (∀ (x : Bool) (s t : State), exec (.sample x) s = .next t →
    t = { s with smp := t.smp, raw := t.raw, drops := t.drops }) ∧
  (∀ (i : Instr) (s t : State), (∀ x, i ≠ .sample x) → i ≠ .reset → Uninterrupted s → exec i s = .next t → t.smp = s.smp)

/-- Each stage operation touches its own stage only: DEC.PULSE not PULSE, FLT.FRAME not the decoder, RLE.BIT not RAW
(45_pipeline_sequencing.md R216). -/
def Obligations.StageOperationsTouchTheirStageOnly : Prop :=
  (∀ (r : PulseRecord) (s t : State), exec (.decPulse r) s = .next t →
    t = { s with dec := t.dec, flt := t.flt, out := t.out, drops := t.drops }) ∧
  (∀ (c : Code) (s t : State), exec (.fltFrame c) s = .next t →
    t = { s with flt := t.flt, out := t.out, drops := t.drops }) ∧
  (∀ (x : Bool) (s t : State), exec (.rleBit x) s = .next t →
    t = { s with rle := t.rle, pulse := t.pulse, drops := t.drops })

/-! ## No exceptions (60_exceptions.md) -/

/-- Every operation is total: for every state and every legal operand it produces a next state; and a step never faults (R220). -/
def Obligations.EveryOperationIsTotal : Prop :=
  (∀ (i : Instr) (s : State), ∃ t, exec i s = .next t) ∧ (∀ (s : State) (f : Fault), step s ≠ .fault f)

/-- One DEC.PULSE drops at most once in the decoder and then at most once in the filter; one RLE.BIT at most two PULSE bytes
(R222; the tags are noted by the model, log 11). -/
def Obligations.DropsPerOperation : Prop :=
  (∀ (r : PulseRecord) (s t : State), exec (.decPulse r) s = .next t →
    ∃ d e : List DropCause, t.drops = s.drops ++ d ++ e ∧ d.length ≤ 1 ∧ e.length ≤ 1 ∧
      (∀ c ∈ d, 3 ≤ c.number ∧ c.number ≤ 6) ∧ (∀ c ∈ e, 7 ≤ c.number ∧ c.number ≤ 9)) ∧
  (∀ (x : Bool) (s t : State), exec (.rleBit x) s = .next t →
    ∃ k, k ≤ 2 ∧ t.drops = s.drops ++ List.replicate k .pulseOverflow)

/-- No operation retracts what was observed: deliveries, responses and drops only grow (10_state.md R43). -/
def Obligations.ObservationsOnlyGrow : Prop :=
  ∀ (i : Instr) (s t : State), exec i s = .next t →
    s.out <+: t.out ∧ s.responses <+: t.responses ∧ s.drops <+: t.drops

/-- Only RB.POP and RB.LEN respond; RB.POP's response is `{valid, byte}` in 9 bits, RB.LEN's the count in 32 (30_encoding.md
R102); that RB.POP's 9 bits are zero-extended in a word of 32 is the model's choice (log 20). -/
def Obligations.OnlyPopAndLenRespond : Prop :=
  (∀ (i : Instr) (s t : State), (∀ b, i ≠ .rbPop b) → (∀ b, i ≠ .rbLen b) → exec i s = .next t →
    t.responses = s.responses) ∧
  (popWord none).toNat = 0 ∧ (∀ v : Byte, (popWord (some v)).toNat = 256 + v.toNat) ∧
  (∀ v : Option Byte, (Response.pop v).word.toNat = (popWord v).toNat) ∧
  (∀ n : Nat, n < 2 ^ 32 → (Response.len n).word.toNat = n)

/-! ## Invariants (10_state.md R23, R40, R49) -/

/-- Every step keeps every element in its range and both ring memories in canonical form within their slots (R23, R49), and holds
a tick only while `ie` is 0 (60_exceptions.md R226; log 19). -/
def Obligations.EveryStepKeepsTheStateLegal : Prop :=
  ∀ s t : State, Legal s → step s = .next t → Legal t

/-- The reset state is legal (R45, R49): that no tick is held while `ie` is 1 rests on the model's choices of `ie` (log 4) and of no
tick held at reset (log 19). Its configuration, the reference values that the model puts there (log 1), meets the constraints of
00_scope.md R8. -/
def Obligations.ResetStateIsLegal : Prop := Legal State.reset ∧ State.reset.cfg.legal = true

/-- Every step keeps the configuration (R40). -/
def Obligations.EveryStepKeepsTheConfiguration : Prop :=
  ∀ s t : State, step s = .next t → t.cfg = s.cfg

/-- PULSE holds whole records: with `PULSE_CAP` even its length stays even under every operation but a direct RB.PUSH or RB.POP
on PULSE (R49, 20_memory.md R66). -/
def Obligations.PulseHoldsWholeRecords : Prop :=
  ∀ (i : Instr) (s t : State), RingLegal s.cfg.rawCap s.raw → RingLegal s.cfg.pulseCap s.pulse →
    s.cfg.pulseCap % 2 = 0 → (s.queue .pulse).length % 2 = 0 →
    (∀ v, i ≠ .rbPush .pulse v) → i ≠ .rbPop .pulse → exec i s = .next t → (t.queue .pulse).length % 2 = 0
end

