-- ==== Sys2Proof/Laws/Encoding.lean ====
section
/-! SUPPORT. The fields of an assembled command word (30_encoding.md R95), and masking one field by field. -/

namespace Sys2Proof

@[simp] theorem opField_assemble (op sel : BitVec 4) (imm : BitVec 24) : opField (assemble op sel imm) = op := by
  unfold opField assemble
  ext i hi
  simp only [BitVec.getElem_extractLsb', BitVec.getLsbD_append]
  rw [if_neg (by omega), if_neg (by omega)]
  simp [show 28 + i - 24 - 4 = i by omega, BitVec.getLsbD_eq_getElem hi]

@[simp] theorem selField_assemble (op sel : BitVec 4) (imm : BitVec 24) : selField (assemble op sel imm) = sel := by
  unfold selField assemble
  ext i hi
  simp only [BitVec.getElem_extractLsb', BitVec.getLsbD_append]
  rw [if_neg (by omega), if_pos (by omega)]
  simp [show 24 + i - 24 = i by omega, BitVec.getLsbD_eq_getElem hi]

@[simp] theorem immField_assemble (op sel : BitVec 4) (imm : BitVec 24) : immField (assemble op sel imm) = imm := by
  unfold immField assemble
  ext i hi
  simp only [BitVec.getElem_extractLsb', BitVec.getLsbD_append]
  rw [if_pos (by omega)]
  simp [BitVec.getLsbD_eq_getElem hi]

/-- Masking an assembled word masks each field. -/
theorem assemble_and (op sel op' sel' : BitVec 4) (imm imm' : BitVec 24) :
    assemble op sel imm &&& assemble op' sel' imm' = assemble (op &&& op') (sel &&& sel') (imm &&& imm') := by
  unfold assemble
  rw [BitVec.and_append, BitVec.and_append]

/-- Every bit of a 4-bit field is kept by the full mask. -/
theorem and_full (x : BitVec 4) : x &&& 0xF#4 = x := by
  revert x
  decide

/-- Masking the immediate away leaves `op` and `sel`. -/
theorem assemble_and_upper (op sel : BitVec 4) (imm : BitVec 24) :
    assemble op sel imm &&& assemble 0xF#4 0xF#4 0#24 = assemble op sel 0#24 := by
  rw [assemble_and, and_full, and_full, BitVec.and_zero]

end Sys2Proof
end

