-- ==== Sys2Proof/Laws/State.lean ====
section
/-! SUPPORT. What each named update of the state leaves in each field. -/

namespace Sys2Proof.Machine

variable (s : State)

/-! ## `State.drop` -/

@[simp] theorem State.drop_cfg (d : DropCause) : (s.drop d).cfg = s.cfg := rfl
@[simp] theorem State.drop_raw (d : DropCause) : (s.drop d).raw = s.raw := rfl
@[simp] theorem State.drop_pulse (d : DropCause) : (s.drop d).pulse = s.pulse := rfl
@[simp] theorem State.drop_smp (d : DropCause) : (s.drop d).smp = s.smp := rfl
@[simp] theorem State.drop_rle (d : DropCause) : (s.drop d).rle = s.rle := rfl
@[simp] theorem State.drop_dec (d : DropCause) : (s.drop d).dec = s.dec := rfl
@[simp] theorem State.drop_flt (d : DropCause) : (s.drop d).flt = s.flt := rfl
@[simp] theorem State.drop_cb (d : DropCause) : (s.drop d).cb = s.cb := rfl
@[simp] theorem State.drop_ie (d : DropCause) : (s.drop d).ie = s.ie := rfl
@[simp] theorem State.drop_pendingTick (d : DropCause) : (s.drop d).pendingTick = s.pendingTick := rfl
@[simp] theorem State.drop_out (d : DropCause) : (s.drop d).out = s.out := rfl
@[simp] theorem State.drop_responses (d : DropCause) : (s.drop d).responses = s.responses := rfl
@[simp] theorem State.drop_drops (d : DropCause) : (s.drop d).drops = s.drops ++ [d] := rfl
@[simp] theorem State.drop_sched (d : DropCause) : (s.drop d).sched = s.sched := rfl
@[simp] theorem State.drop_ticks (d : DropCause) : (s.drop d).ticks = s.ticks := rfl
@[simp] theorem State.drop_ring (d : DropCause) (b : RingId) : (s.drop d).ring b = s.ring b := rfl
@[simp] theorem State.drop_cap (d : DropCause) (b : RingId) : (s.drop d).cap b = s.cap b := rfl

/-! ## `State.respond` -/

@[simp] theorem State.respond_cfg (r : Response) : (s.respond r).cfg = s.cfg := rfl
@[simp] theorem State.respond_raw (r : Response) : (s.respond r).raw = s.raw := rfl
@[simp] theorem State.respond_pulse (r : Response) : (s.respond r).pulse = s.pulse := rfl
@[simp] theorem State.respond_smp (r : Response) : (s.respond r).smp = s.smp := rfl
@[simp] theorem State.respond_rle (r : Response) : (s.respond r).rle = s.rle := rfl
@[simp] theorem State.respond_dec (r : Response) : (s.respond r).dec = s.dec := rfl
@[simp] theorem State.respond_flt (r : Response) : (s.respond r).flt = s.flt := rfl
@[simp] theorem State.respond_cb (r : Response) : (s.respond r).cb = s.cb := rfl
@[simp] theorem State.respond_ie (r : Response) : (s.respond r).ie = s.ie := rfl
@[simp] theorem State.respond_pendingTick (r : Response) : (s.respond r).pendingTick = s.pendingTick := rfl
@[simp] theorem State.respond_out (r : Response) : (s.respond r).out = s.out := rfl
@[simp] theorem State.respond_responses (r : Response) : (s.respond r).responses = s.responses ++ [r] := rfl
@[simp] theorem State.respond_drops (r : Response) : (s.respond r).drops = s.drops := rfl
@[simp] theorem State.respond_sched (r : Response) : (s.respond r).sched = s.sched := rfl
@[simp] theorem State.respond_ticks (r : Response) : (s.respond r).ticks = s.ticks := rfl
@[simp] theorem State.respond_ring (r : Response) (b : RingId) : (s.respond r).ring b = s.ring b := rfl
@[simp] theorem State.respond_cap (r : Response) (b : RingId) : (s.respond r).cap b = s.cap b := rfl

/-! ## `State.deliver` -/

@[simp] theorem State.deliver_cfg (h : Handle) (c : Code) : (s.deliver h c).cfg = s.cfg := rfl
@[simp] theorem State.deliver_raw (h : Handle) (c : Code) : (s.deliver h c).raw = s.raw := rfl
@[simp] theorem State.deliver_pulse (h : Handle) (c : Code) : (s.deliver h c).pulse = s.pulse := rfl
@[simp] theorem State.deliver_smp (h : Handle) (c : Code) : (s.deliver h c).smp = s.smp := rfl
@[simp] theorem State.deliver_rle (h : Handle) (c : Code) : (s.deliver h c).rle = s.rle := rfl
@[simp] theorem State.deliver_dec (h : Handle) (c : Code) : (s.deliver h c).dec = s.dec := rfl
@[simp] theorem State.deliver_flt (h : Handle) (c : Code) : (s.deliver h c).flt = s.flt := rfl
@[simp] theorem State.deliver_cb (h : Handle) (c : Code) : (s.deliver h c).cb = s.cb := rfl
@[simp] theorem State.deliver_ie (h : Handle) (c : Code) : (s.deliver h c).ie = s.ie := rfl
@[simp] theorem State.deliver_pendingTick (h : Handle) (c : Code) : (s.deliver h c).pendingTick = s.pendingTick := rfl
@[simp] theorem State.deliver_out (h : Handle) (c : Code) : (s.deliver h c).out = s.out ++ [⟨h, c⟩] := rfl
@[simp] theorem State.deliver_responses (h : Handle) (c : Code) : (s.deliver h c).responses = s.responses := rfl
@[simp] theorem State.deliver_drops (h : Handle) (c : Code) : (s.deliver h c).drops = s.drops := rfl
@[simp] theorem State.deliver_sched (h : Handle) (c : Code) : (s.deliver h c).sched = s.sched := rfl
@[simp] theorem State.deliver_ticks (h : Handle) (c : Code) : (s.deliver h c).ticks = s.ticks := rfl
@[simp] theorem State.deliver_ring (h : Handle) (c : Code) (b : RingId) : (s.deliver h c).ring b = s.ring b := rfl
@[simp] theorem State.deliver_cap (h : Handle) (c : Code) (b : RingId) : (s.deliver h c).cap b = s.cap b := rfl

/-! ## `State.withNextEvent` -/

@[simp] theorem State.withNextEvent_cfg (e : Event) : (s.withNextEvent e).cfg = s.cfg := rfl
@[simp] theorem State.withNextEvent_raw (e : Event) : (s.withNextEvent e).raw = s.raw := rfl
@[simp] theorem State.withNextEvent_pulse (e : Event) : (s.withNextEvent e).pulse = s.pulse := rfl
@[simp] theorem State.withNextEvent_smp (e : Event) : (s.withNextEvent e).smp = s.smp := rfl
@[simp] theorem State.withNextEvent_rle (e : Event) : (s.withNextEvent e).rle = s.rle := rfl
@[simp] theorem State.withNextEvent_dec (e : Event) : (s.withNextEvent e).dec = s.dec := rfl
@[simp] theorem State.withNextEvent_flt (e : Event) : (s.withNextEvent e).flt = s.flt := rfl
@[simp] theorem State.withNextEvent_cb (e : Event) : (s.withNextEvent e).cb = s.cb := rfl
@[simp] theorem State.withNextEvent_ie (e : Event) : (s.withNextEvent e).ie = s.ie := rfl
@[simp] theorem State.withNextEvent_pendingTick (e : Event) : (s.withNextEvent e).pendingTick = s.pendingTick := rfl
@[simp] theorem State.withNextEvent_out (e : Event) : (s.withNextEvent e).out = s.out := rfl
@[simp] theorem State.withNextEvent_responses (e : Event) : (s.withNextEvent e).responses = s.responses := rfl
@[simp] theorem State.withNextEvent_drops (e : Event) : (s.withNextEvent e).drops = s.drops := rfl
@[simp] theorem State.withNextEvent_sched (e : Event) : (s.withNextEvent e).sched = e :: s.sched := rfl
@[simp] theorem State.withNextEvent_ticks (e : Event) : (s.withNextEvent e).ticks = s.ticks := rfl

/-! ## `State.setRing` -/

@[simp] theorem State.setRing_cfg (b : RingId) (r : Ring) : (s.setRing b r).cfg = s.cfg := by cases b <;> rfl
@[simp] theorem State.setRing_smp (b : RingId) (r : Ring) : (s.setRing b r).smp = s.smp := by cases b <;> rfl
@[simp] theorem State.setRing_rle (b : RingId) (r : Ring) : (s.setRing b r).rle = s.rle := by cases b <;> rfl
@[simp] theorem State.setRing_dec (b : RingId) (r : Ring) : (s.setRing b r).dec = s.dec := by cases b <;> rfl
@[simp] theorem State.setRing_flt (b : RingId) (r : Ring) : (s.setRing b r).flt = s.flt := by cases b <;> rfl
@[simp] theorem State.setRing_cb (b : RingId) (r : Ring) : (s.setRing b r).cb = s.cb := by cases b <;> rfl
@[simp] theorem State.setRing_ie (b : RingId) (r : Ring) : (s.setRing b r).ie = s.ie := by cases b <;> rfl
@[simp] theorem State.setRing_pendingTick (b : RingId) (r : Ring) : (s.setRing b r).pendingTick = s.pendingTick := by cases b <;> rfl
@[simp] theorem State.setRing_out (b : RingId) (r : Ring) : (s.setRing b r).out = s.out := by cases b <;> rfl
@[simp] theorem State.setRing_responses (b : RingId) (r : Ring) : (s.setRing b r).responses = s.responses := by cases b <;> rfl
@[simp] theorem State.setRing_drops (b : RingId) (r : Ring) : (s.setRing b r).drops = s.drops := by cases b <;> rfl
@[simp] theorem State.setRing_sched (b : RingId) (r : Ring) : (s.setRing b r).sched = s.sched := by cases b <;> rfl
@[simp] theorem State.setRing_ticks (b : RingId) (r : Ring) : (s.setRing b r).ticks = s.ticks := by cases b <;> rfl
@[simp] theorem State.setRing_raw_raw (r : Ring) : (s.setRing .raw r).raw = r := rfl
@[simp] theorem State.setRing_raw_pulse (r : Ring) : (s.setRing .raw r).pulse = s.pulse := rfl
@[simp] theorem State.setRing_pulse_raw (r : Ring) : (s.setRing .pulse r).raw = s.raw := rfl
@[simp] theorem State.setRing_pulse_pulse (r : Ring) : (s.setRing .pulse r).pulse = r := rfl
@[simp] theorem State.setRing_cap (b b' : RingId) (r : Ring) : (s.setRing b r).cap b' = s.cap b' := by cases b <;> rfl
@[simp] theorem State.setRing_ring (b : RingId) (r : Ring) : (s.setRing b r).ring b = r := by cases b <;> rfl
@[simp] theorem State.setRing_self (b : RingId) : s.setRing b (s.ring b) = s := by cases b <;> rfl
@[simp] theorem State.setRing_setRing (b : RingId) (r r' : Ring) : (s.setRing b r).setRing b r' = s.setRing b r' := by
  cases b <;> rfl

theorem State.setRing_ring_of_ne (b b' : RingId) (r : Ring) (h : b' ≠ b) : (s.setRing b r).ring b' = s.ring b' := by
  cases b <;> cases b' <;> first | rfl | exact absurd rfl h

/-! ## `State.hold` -/

@[simp] theorem State.hold_cfg (x : Option Bool) : (s.hold x).cfg = s.cfg := rfl
@[simp] theorem State.hold_raw (x : Option Bool) : (s.hold x).raw = s.raw := rfl
@[simp] theorem State.hold_pulse (x : Option Bool) : (s.hold x).pulse = s.pulse := rfl
@[simp] theorem State.hold_smp (x : Option Bool) : (s.hold x).smp = s.smp := rfl
@[simp] theorem State.hold_rle (x : Option Bool) : (s.hold x).rle = s.rle := rfl
@[simp] theorem State.hold_dec (x : Option Bool) : (s.hold x).dec = s.dec := rfl
@[simp] theorem State.hold_flt (x : Option Bool) : (s.hold x).flt = s.flt := rfl
@[simp] theorem State.hold_cb (x : Option Bool) : (s.hold x).cb = s.cb := rfl
@[simp] theorem State.hold_ie (x : Option Bool) : (s.hold x).ie = s.ie := rfl
@[simp] theorem State.hold_pendingTick (x : Option Bool) : (s.hold x).pendingTick = s.pendingTick.or x := rfl
@[simp] theorem State.hold_out (x : Option Bool) : (s.hold x).out = s.out := rfl
@[simp] theorem State.hold_responses (x : Option Bool) : (s.hold x).responses = s.responses := rfl
@[simp] theorem State.hold_drops (x : Option Bool) : (s.hold x).drops = s.drops := rfl
@[simp] theorem State.hold_sched (x : Option Bool) : (s.hold x).sched = s.sched := rfl
@[simp] theorem State.hold_ticks (x : Option Bool) : (s.hold x).ticks = s.ticks := rfl
@[simp] theorem State.hold_ring (x : Option Bool) (b : RingId) : (s.hold x).ring b = s.ring b := rfl
@[simp] theorem State.hold_cap (x : Option Bool) (b : RingId) : (s.hold x).cap b = s.cap b := rfl

/-! ## The two instances by name -/

@[simp] theorem State.ring_raw : s.ring .raw = s.raw := rfl
@[simp] theorem State.ring_pulse : s.ring .pulse = s.pulse := rfl
@[simp] theorem State.cap_raw : s.cap .raw = s.cfg.rawCap := rfl
@[simp] theorem State.cap_pulse : s.cap .pulse = s.cfg.pulseCap := rfl

end Sys2Proof.Machine
end

