-- ==== Sys2Proof/Laws/Memory.lean ====
section
/-! SUPPORT. Ring memory: every operation keeps the canonical form, a read after a write, and the extent of a write. -/

namespace Sys2Proof.Machine

theorem Memory.wfFrom_mono {lo lo' : Nat} {m : Memory} (h : lo' ≤ lo) (hm : Memory.wfFrom lo m = true) :
    Memory.wfFrom lo' m = true := by
  cases m with
  | nil => rfl
  | cons c rest =>
    obtain ⟨k, v⟩ := c
    simp only [Memory.wfFrom, Bool.and_eq_true, decide_eq_true_eq] at hm ⊢
    exact ⟨⟨h.trans hm.1.1, hm.1.2⟩, hm.2⟩

/-- A slot below every listed slot reads as blank. -/
theorem Memory.read_below {lo i : Nat} {m : Memory} (hm : Memory.wfFrom lo m = true) (hi : i < lo) :
    Memory.read m i = Memory.blank := by
  induction m generalizing lo with
  | nil => rfl
  | cons c rest ih =>
    obtain ⟨k, v⟩ := c
    simp only [Memory.wfFrom, Bool.and_eq_true, decide_eq_true_eq] at hm
    rw [Memory.read, if_neg (by omega)]
    exact ih hm.2 (by omega)

/-- A write keeps the canonical form above a bound below the slot written. -/
theorem Memory.write_wfFrom {lo i : Nat} {m : Memory} (v : Byte) (hm : Memory.wfFrom lo m = true) (hi : lo ≤ i) :
    Memory.wfFrom lo (m.write i v) = true := by
  induction m generalizing lo with
  | nil =>
    unfold Memory.write
    split
    · rfl
    · next h => simp [Memory.wfFrom, hi, h]
  | cons c rest ih =>
    obtain ⟨k, w⟩ := c
    have hc := hm
    simp only [Memory.wfFrom, Bool.and_eq_true, decide_eq_true_eq] at hm
    obtain ⟨⟨h1, h2⟩, h3⟩ := hm
    unfold Memory.write
    split
    · next hlt =>
      split
      · exact hc
      · next hv => simp [Memory.wfFrom, hi, hv, h2, h3, Nat.succ_le_of_lt hlt]
    · split
      · next heq =>
        split
        · exact Memory.wfFrom_mono (by omega) h3
        · next hv =>
          subst heq
          simp [Memory.wfFrom, hi, hv, h3]
      · next hlt hne =>
        simp [Memory.wfFrom, h1, h2, ih h3 (by omega)]

/-- A write keeps the canonical form. -/
theorem Memory.write_wf {m : Memory} (i : Nat) (v : Byte) (hm : m.wf = true) : (m.write i v).wf = true :=
  Memory.write_wfFrom v hm (Nat.zero_le i)

/-- A write lists no slot but those listed and the one written. -/
theorem Memory.mem_write {m : Memory} {i : Nat} {v : Byte} {c : Host.Cell} (h : c ∈ m.write i v) : c ∈ m ∨ c = (i, v) := by
  induction m with
  | nil =>
    unfold Memory.write at h
    split at h
    · simp at h
    · simpa using h
  | cons d rest ih =>
    obtain ⟨k, w⟩ := d
    unfold Memory.write at h
    split at h
    · split at h
      · exact .inl h
      · simpa [or_comm] using h
    · split at h
      · split at h
        · exact .inl (List.mem_cons_of_mem _ h)
        · rcases List.mem_cons.mp h with h | h
          · exact .inr h
          · exact .inl (List.mem_cons_of_mem _ h)
      · rcases List.mem_cons.mp h with h | h
        · exact .inl (h ▸ List.mem_cons_self)
        · exact (ih h).imp (List.mem_cons_of_mem _) id

/-- A read after a write: the byte written at its slot, every other slot as before. -/
theorem Memory.read_write {m : Memory} (i j : Nat) (v : Byte) (hm : m.wf = true) :
    (m.write i v).read j = if j = i then v else m.read j := by
  unfold Memory.wf at hm
  generalize 0 = lo at hm
  induction m generalizing lo with
  | nil =>
    unfold Memory.write
    split
    · next h => subst h; split <;> rfl
    · simp [Memory.read, eq_comm]
  | cons c rest ih =>
    obtain ⟨k, w⟩ := c
    have hc := hm
    simp only [Memory.wfFrom, Bool.and_eq_true, decide_eq_true_eq] at hm
    obtain ⟨⟨h1, h2⟩, h3⟩ := hm
    unfold Memory.write
    split
    · next hlt =>
      have hb : Memory.read ((k, w) :: rest) i = Memory.blank := by
        rw [Memory.read, if_neg (by omega)]
        exact Memory.read_below h3 (by omega)
      split
      · next hv =>
        split
        · next hj => rw [hj, hb, hv]
        · rfl
      · rw [Memory.read]
        by_cases hj : j = i
        · simp [hj]
        · simp [hj, Ne.symm hj]
    · split
      · next hki =>
        subst hki
        have hb : Memory.read rest i = Memory.blank := Memory.read_below h3 (by omega)
        split
        · next hv =>
          by_cases hj : j = i
          · simp [hj, hb, hv]
          · simp [Memory.read, hj, Ne.symm hj]
        · by_cases hj : j = i
          · simp [Memory.read, hj]
          · simp [Memory.read, hj, Ne.symm hj]
      · next hki =>
        rw [Memory.read, Memory.read, ih _ h3]
        by_cases hj : k = j
        · have : j ≠ i := fun e => hki (by rw [hj, e])
          simp [hj, this]
        · simp [hj]

@[simp] theorem Memory.read_write_same {m : Memory} (i : Nat) (v : Byte) (hm : m.wf = true) : (m.write i v).read i = v := by
  rw [Memory.read_write i i v hm, if_pos rfl]

theorem Memory.read_write_other {m : Memory} {i j : Nat} (v : Byte) (hm : m.wf = true) (h : j ≠ i) :
    (m.write i v).read j = m.read j := by
  rw [Memory.read_write i j v hm, if_neg h]

end Sys2Proof.Machine
end

