-- ==== Sys2Proof/Laws/Ring.lean ====
section
/-! SUPPORT. One ring: what each operation can do, and that each keeps the ring legal (10_state.md R23). -/

namespace Sys2Proof.Machine

theorem nextSlot_le (cap i : Nat) : nextSlot cap i ≤ cap := by
  unfold nextSlot
  have := Nat.mod_lt (i + 1) (show 0 < cap + 1 by omega)
  omega

theorem slotOf_le (cap i : Nat) : slotOf cap i ≤ cap := by
  unfold slotOf
  have := Nat.mod_lt i (show 0 < cap + 1 by omega)
  omega

/-- A cursor in its range names itself. -/
theorem slotOf_eq {cap i : Nat} (h : i ≤ cap) : slotOf cap i = i := Nat.mod_eq_of_lt (by omega)

@[simp] theorem slotOf_nextSlot (cap i : Nat) : slotOf cap (nextSlot cap i) = nextSlot cap i := slotOf_eq (nextSlot_le _ _)

/-- The slot after a slot that exists. -/
theorem nextSlot_eq {cap i : Nat} (h : i ≤ cap) : nextSlot cap i = if i = cap then 0 else i + 1 := by
  unfold nextSlot
  split
  · next e => rw [e, Nat.mod_self]
  · next e => exact Nat.mod_eq_of_lt (by omega)

/-- The length of a ring whose cursors exist, without a modulus. -/
theorem Ring.length_eq {cap : Nat} {r : Ring} (hh : r.head ≤ cap) (ht : r.tail ≤ cap) :
    r.length cap = if r.head ≤ r.tail then r.tail - r.head else r.tail + (cap + 1) - r.head := by
  unfold Ring.length
  split
  · next h =>
    rw [show r.tail + (cap + 1) - r.head = (r.tail - r.head) + (cap + 1) by omega, Nat.add_mod_right]
    exact Nat.mod_eq_of_lt (by omega)
  · next h => exact Nat.mod_eq_of_lt (by omega)

theorem Ring.length_le (cap : Nat) (r : Ring) : r.length cap ≤ cap := by
  unfold Ring.length
  have := Nat.mod_lt (r.tail + (cap + 1) - r.head) (show 0 < cap + 1 by omega)
  omega

theorem Ring.isEmpty_iff (r : Ring) : r.isEmpty = true ↔ r.head = r.tail := by simp [Ring.isEmpty]

theorem Ring.isFull_iff (cap : Nat) (r : Ring) : r.isFull cap = true ↔ nextSlot cap r.tail = r.head := by simp [Ring.isFull]

/-- Empty and full, by length (R23). -/
theorem Ring.length_eq_zero_iff {cap : Nat} {r : Ring} (hh : r.head ≤ cap) (ht : r.tail ≤ cap) :
    r.length cap = 0 ↔ r.head = r.tail := by
  rw [Ring.length_eq hh ht]
  split <;> omega

theorem Ring.length_eq_cap_iff {cap : Nat} {r : Ring} (hh : r.head ≤ cap) (ht : r.tail ≤ cap) :
    r.length cap = cap ↔ nextSlot cap r.tail = r.head := by
  rw [Ring.length_eq hh ht, nextSlot_eq ht]
  split <;> split <;> omega

theorem Ring.push_legal {cap : Nat} {r : Ring} (v : Byte) (h : RingLegal cap r) : RingLegal cap (r.push cap v) := by
  obtain ⟨hh, ht, hw, hm⟩ := h
  refine ⟨?_, nextSlot_le _ _, Memory.write_wf _ _ hw, fun c hc => ?_⟩
  · show (if r.isFull cap then nextSlot cap r.head else r.head) ≤ cap
    split
    · exact nextSlot_le _ _
    · exact hh
  · rcases Memory.mem_write hc with hc | rfl
    · exact hm c hc
    · exact slotOf_le _ _

theorem Ring.pop_legal {cap : Nat} {r : Ring} (h : RingLegal cap r) : RingLegal cap (r.pop cap).2 := by
  unfold Ring.pop
  split
  · exact h
  · exact ⟨nextSlot_le _ _, h.2⟩

theorem Ring.clear_legal {cap : Nat} {r : Ring} (h : RingLegal cap r) : RingLegal cap r.clear :=
  ⟨Nat.zero_le _, Nat.zero_le _, h.2.2⟩

/-- A pop answers none exactly when the ring is empty, and then changes nothing (40_ring_buffer.md R122). -/
theorem Ring.pop_none_iff (cap : Nat) (r : Ring) : (r.pop cap).1 = none ↔ r.head = r.tail := by
  unfold Ring.pop
  split
  · next h => simp [(Ring.isEmpty_iff r).mp h]
  · next h => simp [← Ring.isEmpty_iff, h]

/-- Everything a pop can do (40_ring_buffer.md R122). -/
theorem Ring.pop_cases (cap : Nat) (r : Ring) :
    (r.head = r.tail ∧ r.pop cap = (none, r)) ∨
    (r.head ≠ r.tail ∧ r.pop cap = (some (r.mem.read (slotOf cap r.head)), { r with head := nextSlot cap r.head })) := by
  unfold Ring.pop
  split
  · next h => exact .inl ⟨(Ring.isEmpty_iff r).mp h, rfl⟩
  · next h => exact .inr ⟨fun e => h ((Ring.isEmpty_iff r).mpr e), rfl⟩

/-- How a push moves the length: up by one, or not at all on a full ring (40_ring_buffer.md R121). -/
theorem Ring.push_length {cap : Nat} {r : Ring} (v : Byte) (hh : r.head ≤ cap) (ht : r.tail ≤ cap) :
    (r.push cap v).length cap = if r.isFull cap then r.length cap else r.length cap + 1 := by
  have hn : (r.push cap v).tail = nextSlot cap r.tail := rfl
  have hd : (r.push cap v).head = if r.isFull cap then nextSlot cap r.head else r.head := rfl
  rw [Ring.length_eq (r := r.push cap v) (by rw [hd]; split; exacts [nextSlot_le _ _, hh]) (nextSlot_le _ _), hn, hd,
    Ring.length_eq hh ht]
  by_cases hf : r.isFull cap = true
  · have he := (Ring.isFull_iff cap r).mp hf
    rw [nextSlot_eq ht] at he
    simp only [hf, if_true]
    rw [nextSlot_eq ht, nextSlot_eq hh]
    split_ifs at * <;> omega
  · have he : nextSlot cap r.tail ≠ r.head := fun e => hf ((Ring.isFull_iff cap r).mpr e)
    rw [nextSlot_eq ht] at he
    simp only [hf, if_false, Bool.false_eq_true]
    rw [nextSlot_eq ht]
    split_ifs at * <;> omega

/-- A pop of a ring that is not empty takes one byte off its length (40_ring_buffer.md R122). -/
theorem Ring.pop_length {cap : Nat} {r : Ring} (hh : r.head ≤ cap) (ht : r.tail ≤ cap) (hne : r.head ≠ r.tail) :
    (r.pop cap).2.length cap + 1 = r.length cap := by
  rcases Ring.pop_cases cap r with ⟨h, _⟩ | ⟨_, h⟩
  · exact absurd h hne
  · rw [h, Ring.length_eq (r := { r with head := nextSlot cap r.head }) (nextSlot_le _ _) ht, Ring.length_eq hh ht]
    show (if nextSlot cap r.head ≤ r.tail then r.tail - nextSlot cap r.head
      else r.tail + (cap + 1) - nextSlot cap r.head) + 1 = _
    rw [nextSlot_eq hh]
    split_ifs <;> omega

end Sys2Proof.Machine
end

