-- ==== Sys2Proof/Laws/Ops.lean ====
section
/-! SUPPORT. What each shared operation can do, said once: the provers cite these instead of unfolding the definitions. -/

namespace Sys2Proof.Machine

variable (s : State)

/-! ## The critical section (20_memory.md R71) -/

/-- The section answers what its body answers, run with interrupts disabled, and restores `ie`. -/
theorem State.critical_eq {α : Type} (body : State → α × State) :
    s.critical body = ((body { s with ie := false }).1, { (body { s with ie := false }).2 with ie := s.ie }) := rfl

@[simp] theorem State.critical_ie {α : Type} (body : State → α × State) : (s.critical body).2.ie = s.ie := rfl

/-! ## The ring operations as sub-steps (40_ring_buffer.md R121 to R124) -/

/-- RB.PUSH: the ring is pushed, and a full ring's loss is noted. -/
theorem State.rbPush_eq (b : RingId) (v : Byte) :
    s.rbPush b v = if (s.ring b).isFull (s.cap b)
      then (s.setRing b ((s.ring b).push (s.cap b) v)).drop (overflowCause b)
      else s.setRing b ((s.ring b).push (s.cap b) v) := by
  cases b
  · cases h : s.raw.isFull s.cfg.rawCap <;> simp [State.rbPush, State.critical, State.ring, State.cap, State.setRing, State.drop, h]
  · cases h : s.pulse.isFull s.cfg.pulseCap <;>
      simp [State.rbPush, State.critical, State.ring, State.cap, State.setRing, State.drop, h]

/-- RB.POP: the answer and the ring of the pop. -/
theorem State.rbPop_eq (b : RingId) :
    s.rbPop b = (((s.ring b).pop (s.cap b)).1, s.setRing b ((s.ring b).pop (s.cap b)).2) := by
  cases b <;> rfl

/-- RB.LEN: the count, and no change of state. -/
theorem State.rbLen_eq (b : RingId) : s.rbLen b = ((s.ring b).length (s.cap b), s) := by cases b <;> rfl

/-- RB.CLEAR: the ring is cleared. -/
theorem State.rbClear_eq (b : RingId) : s.rbClear b = s.setRing b (s.ring b).clear := by cases b <;> rfl

/-- Everything a push can do: it drops nothing on a ring that is not full, else the oldest byte. -/
theorem State.rbPush_cases (b : RingId) (v : Byte) :
    ((s.ring b).isFull (s.cap b) = false ∧ s.rbPush b v = s.setRing b ((s.ring b).push (s.cap b) v)) ∨
    ((s.ring b).isFull (s.cap b) = true ∧
      s.rbPush b v = (s.setRing b ((s.ring b).push (s.cap b) v)).drop (overflowCause b)) := by
  rw [State.rbPush_eq]
  cases h : (s.ring b).isFull (s.cap b) <;> simp

/-- Everything a pop can do (R122). -/
theorem State.rbPop_cases (b : RingId) :
    ((s.ring b).head = (s.ring b).tail ∧ s.rbPop b = (none, s)) ∨
    ((s.ring b).head ≠ (s.ring b).tail ∧
      s.rbPop b = (some ((s.ring b).mem.read (slotOf (s.cap b) (s.ring b).head)),
        s.setRing b { s.ring b with head := nextSlot (s.cap b) (s.ring b).head })) := by
  rw [State.rbPop_eq]
  rcases Ring.pop_cases (s.cap b) (s.ring b) with ⟨h, e⟩ | ⟨h, e⟩
  · exact .inl ⟨h, by rw [e, State.setRing_self]⟩
  · exact .inr ⟨h, by rw [e]⟩

/-! ## The sampler (41_pulse_sampler.md R141) -/

/-- Everything a SAMPLE can do. -/
theorem State.sample_cases (x : Bool) :
    (s.smp.cnt ≠ 7 ∧ s.sample x = { s with smp := ⟨shiftIn s.smp.acc x, s.smp.cnt + 1⟩ }) ∨
    (s.smp.cnt = 7 ∧
      s.sample x = ({ s with smp := ⟨shiftIn s.smp.acc x, 0⟩ } : State).rbPush .raw (shiftIn s.smp.acc x)) := by
  unfold State.sample
  by_cases h : s.smp.cnt = 7
  · exact .inr ⟨h, if_pos h⟩
  · exact .inl ⟨h, if_neg h⟩

/-- Everything a sampler tick can do (60_exceptions.md R225, R226). -/
theorem State.tick_cases (x : Bool) :
    (s.ie = true ∧ s.tick x = s.sample x) ∨ (s.ie = false ∧ s.tick x = s.hold (some x)) := by
  unfold State.tick
  cases s.ie <;> simp

/-- Everything the host's write of `ie` can do (10_state.md R39, 60_exceptions.md R226). -/
theorem State.setIe_cases (v : Bool) :
    (v = true ∧ ∃ x, s.pendingTick = some x ∧
      s.setIe v = ({ s with ie := true, pendingTick := none } : State).sample x) ∨
    ((v = false ∨ s.pendingTick = none) ∧ s.setIe v = { s with ie := v }) := by
  unfold State.setIe
  cases v with
  | false => exact .inr ⟨.inl rfl, rfl⟩
  | true =>
    cases s.pendingTick with
    | none => exact .inr ⟨.inr rfl, rfl⟩
    | some x => exact .inl ⟨rfl, x, rfl, rfl⟩

/-- Everything an interruption point can do. -/
theorem State.interruptPoint_cases :
    (s.ticks = [] ∧ s.interruptPoint = s) ∨
    (∃ xs rest, s.ticks = xs :: rest ∧ s.interruptPoint = xs.foldl State.tick { s with ticks := rest }) := by
  unfold State.interruptPoint
  cases ht : s.ticks with
  | nil => exact .inl ⟨rfl, rfl⟩
  | cons xs rest => exact .inr ⟨xs, rest, rfl, rfl⟩

/-- Ticks that occur while `ie` is 0 are held: the first, if none was held, and the others are lost (60_exceptions.md R226). -/
theorem State.foldl_tick_of_masked (xs : List Bool) (h : s.ie = false) : xs.foldl State.tick s = s.hold xs.head? := by
  induction xs generalizing s with
  | nil => cases s; simp [State.hold]
  | cons x rest ih =>
    have hx : s.tick x = s.hold (some x) := by simp [State.tick, h]
    rw [List.foldl_cons, hx, ih _ (by simpa using h)]
    cases hp : s.pendingTick <;> simp [State.hold, hp]

/-- With `ie` at 0 an interruption point takes nothing but the ticks that fall there. -/
theorem State.interruptPoint_of_masked (h : s.ie = false) :
    s.interruptPoint = { s with ticks := s.ticks.tail, pendingTick := s.pendingTick.or (s.ticks.headD []).head? } := by
  rcases s.interruptPoint_cases with ⟨ht, e⟩ | ⟨xs, rest, ht, e⟩
  · rw [e]; cases s; subst ht; simp
  · rw [e, State.foldl_tick_of_masked { s with ticks := rest } xs h, ht]; rfl

/-- Where nothing interrupts, an interruption point changes no more than the ticks that fall there. -/
theorem State.interruptPoint_of_uninterrupted (h : Uninterrupted s) :
    s.interruptPoint = { s with ticks := s.interruptPoint.ticks, pendingTick := s.interruptPoint.pendingTick } := by
  rcases h with h | h
  · rcases s.interruptPoint_cases with ⟨_, e⟩ | ⟨xs, rest, ht, _⟩
    · rw [e]
    · rw [h] at ht; cases ht
  · rw [s.interruptPoint_of_masked h]

/-! ## The encoder (42_run_length_encoder.md) -/

/-- Everything an RLE.BIT can do (R151, R152). -/
theorem State.rleBit_cases (x : Bool) :
    (x = s.rle.level ∧ s.rleBit x = { s with rle := ⟨x, saturatingSucc s.rle.count⟩ }) ∨
    (x ≠ s.rle.level ∧ s.rleBit x = { s.emit ⟨s.rle.level, s.rle.count⟩ with rle := ⟨x, 1#15⟩ }) := by
  unfold State.rleBit
  by_cases h : x = s.rle.level
  · left
    subst h
    simp
  · exact .inr ⟨h, if_pos h⟩

/-- Everything an RLE.STEP can do (R154). -/
theorem State.rleStep_cases :
    (s.raw.head = s.raw.tail ∧ s.rleStep = (false, s)) ∨
    (s.raw.head ≠ s.raw.tail ∧
      s.rleStep = (true, (samplesOf (s.raw.mem.read (slotOf s.cfg.rawCap s.raw.head))).foldl State.rleBit
        { s with raw := { s.raw with head := nextSlot s.cfg.rawCap s.raw.head } })) := by
  unfold State.rleStep
  rcases s.rbPop_cases .raw with ⟨h, e⟩ | ⟨h, e⟩
  · exact .inl ⟨h, by rw [e]⟩
  · exact .inr ⟨h, by rw [e]; rfl⟩

/-- The count after one more tick, as a number (R153). -/
theorem saturatingSucc_toNat (d : Duration) : (saturatingSucc d).toNat = min (d.toNat + 1) durMax := by
  simp only [saturatingSucc, BitVec.toNat_ofNat, durMax]
  omega

/-! ## The filter (44_confirmation_filter.md R191) -/

/-- Everything an FLT.FRAME can do: unconfirmed, refractory, delivered, or accepted with nobody registered. -/
theorem State.fltFrame_cases (c : Code) :
    (s.flt.confirms c = false ∧
      s.fltFrame c = ({ s with flt := { s.flt with cand := c, candValid := true } } : State).drop .unconfirmed) ∨
    (s.flt.confirms c = true ∧ 0 < s.flt.refrCnt ∧ s.fltFrame c = s.drop .refractory) ∨
    (s.flt.confirms c = true ∧ s.flt.refrCnt = 0 ∧ s.cb.registered = true ∧
      s.fltFrame c = ({ s with flt := { s.flt with refrCnt := s.cfg.refractoryTicks } } : State).deliver s.cb.handle c) ∨
    (s.flt.confirms c = true ∧ s.flt.refrCnt = 0 ∧ s.cb.registered = false ∧
      s.fltFrame c = ({ s with flt := { s.flt with refrCnt := s.cfg.refractoryTicks } } : State).drop .noCallback) := by
  unfold State.fltFrame Filter.windowActive
  cases hc : s.flt.confirms c with
  | false => exact .inl ⟨rfl, by simp⟩
  | true =>
    right
    by_cases hw : 0 < s.flt.refrCnt
    · exact .inl ⟨rfl, hw, by simp [hw]⟩
    · right
      have hw0 : s.flt.refrCnt = 0 := by omega
      cases hr : s.cb.registered with
      | true => exact .inl ⟨rfl, hw0, rfl, by simp [hw0, hr]⟩
      | false => exact .inr ⟨rfl, hw0, rfl, by simp [hw0, hr]⟩

theorem Filter.confirms_iff (f : Filter) (c : Code) : f.confirms c = true ↔ f.candValid = true ∧ f.cand = c := by
  simp [Filter.confirms]

/-! ## The decoder (43_frame_decoder.md) -/

theorem syncOk_iff (cfg : Config) (t1 t2 : Nat) :
    syncOk cfg t1 t2 = true ↔ t1 * cfg.syncMinRatio ≤ t2 ∧ t2 ≤ t1 * cfg.syncMaxRatio := by simp [syncOk]

theorem isOne_iff (cfg : Config) (t1 t2 : Nat) :
    isOne cfg t1 t2 = true ↔ t1 > t2 * cfg.dataMinRatio ∧ t1 ≤ t2 * cfg.dataMaxRatio := by simp [isOne]

theorem isZero_iff (cfg : Config) (t1 t2 : Nat) :
    isZero cfg t1 t2 = true ↔ t2 > t1 * cfg.dataMinRatio ∧ t2 ≤ t1 * cfg.dataMaxRatio := by simp [isZero]

/-- Everything a SYNC_TEST can do (R172). -/
theorem State.syncTest_cases (t1 t2 : Nat) :
    (syncOk s.cfg t1 t2 = true ∧ s.syncTest t1 t2 =
      { s with dec := { s.dec with bitCount := 0, code := zeroCode, phase := .receivingData } }) ∨
    (syncOk s.cfg t1 t2 = false ∧ s.syncTest t1 t2 = s.drop .badSync) := by
  unfold State.syncTest
  cases h : syncOk s.cfg t1 t2 <;> simp

/-- Everything a BIT_TEST can do (R174 to R176). -/
theorem State.bitTest_cases (t1 t2 : Nat) :
    (classify s.cfg t1 t2 = none ∧ s.bitTest t1 t2 =
      ({ s with dec := { s.dec with phase := .seekingSync } } : State).drop .badBit) ∨
    (∃ x, classify s.cfg t1 t2 = some x ∧ s.dec.bitCount + 1 = frameBits ∧ s.bitTest t1 t2 =
      ({ s with dec := { s.dec with code := writeCodeBit s.dec.code s.dec.bitCount x, bitCount := s.dec.bitCount + 1,
                                    phase := .seekingSync } } : State).fltFrame
        (writeCodeBit s.dec.code s.dec.bitCount x)) ∨
    (∃ x, classify s.cfg t1 t2 = some x ∧ s.dec.bitCount + 1 ≠ frameBits ∧ s.bitTest t1 t2 =
      { s with dec := { s.dec with code := writeCodeBit s.dec.code s.dec.bitCount x, bitCount := s.dec.bitCount + 1 } }) := by
  unfold State.bitTest
  cases h : classify s.cfg t1 t2 with
  | none => exact .inl ⟨rfl, rfl⟩
  | some x =>
    right
    by_cases hb : s.dec.bitCount + 1 = frameBits
    · exact .inl ⟨x, rfl, hb, by simp [hb]⟩
    · exact .inr ⟨x, rfl, hb, by simp [hb]⟩

/-- Everything a DEC.PULSE can do (R166, R167, R169, R170). -/
theorem State.decPulse_cases (r : PulseRecord) :
    (r.level = true ∧ s.dec.t1Valid = false ∧
      s.decPulse r = { s with dec := { s.dec with t1 := r.duration, t1Valid := true } }) ∨
    (r.level = true ∧ s.dec.t1Valid = true ∧
      s.decPulse r = { s.drop .highReplaced with dec := { s.dec with t1 := r.duration, t1Valid := true } }) ∨
    (r.level = false ∧ s.dec.t1Valid = false ∧ s.decPulse r = s.drop .lowSkipped) ∨
    (r.level = false ∧ s.dec.t1Valid = true ∧ s.dec.phase = .seekingSync ∧
      s.decPulse r = ({ s with dec := { s.dec with t1Valid := false } } : State).syncTest s.dec.t1.toNat r.duration.toNat) ∨
    (r.level = false ∧ s.dec.t1Valid = true ∧ s.dec.phase = .receivingData ∧
      s.decPulse r = ({ s with dec := { s.dec with t1Valid := false } } : State).bitTest s.dec.t1.toNat r.duration.toNat) := by
  unfold State.decPulse
  cases r.level <;> cases s.dec.t1Valid <;> cases s.dec.phase <;> simp

/-- Everything a DEC.STEP can do (R177). -/
theorem State.decStep_cases (hh : s.pulse.head ≤ s.cfg.pulseCap) (ht : s.pulse.tail ≤ s.cfg.pulseCap) :
    (s.pulse.length s.cfg.pulseCap < 2 ∧ s.decStep = (false, s)) ∨
    (2 ≤ s.pulse.length s.cfg.pulseCap ∧
      s.decStep = (true, ({ s with pulse := { s.pulse with
          head := nextSlot s.cfg.pulseCap (nextSlot s.cfg.pulseCap s.pulse.head) } } : State).decPulse
        (recordOfBytes (s.pulse.mem.read s.pulse.head)
          (s.pulse.mem.read (nextSlot s.cfg.pulseCap s.pulse.head))))) := by
  unfold State.decStep
  rw [State.rbLen_eq]
  by_cases h : s.pulse.length s.cfg.pulseCap < 2
  · exact .inl ⟨h, by simp [h]⟩
  · right
    have hne : s.pulse.head ≠ s.pulse.tail := by
      intro e
      have := (Ring.length_eq_zero_iff hh ht).mpr e
      omega
    have hl := Ring.pop_length hh ht hne
    have hne2 : nextSlot s.cfg.pulseCap s.pulse.head ≠ s.pulse.tail := by
      intro e
      have h1 : (s.pulse.pop s.cfg.pulseCap).2 = { s.pulse with head := nextSlot s.cfg.pulseCap s.pulse.head } := by
        rcases Ring.pop_cases s.cfg.pulseCap s.pulse with ⟨h', _⟩ | ⟨_, h'⟩
        · exact absurd h' hne
        · rw [h']
      rw [h1, (Ring.length_eq_zero_iff (r := { s.pulse with head := nextSlot s.cfg.pulseCap s.pulse.head })
        (nextSlot_le _ _) ht).mpr e] at hl
      omega
    refine ⟨by omega, ?_⟩
    rcases s.rbPop_cases .pulse with ⟨h', _⟩ | ⟨_, e⟩
    · exact absurd h' hne
    · simp only [State.ring_pulse, State.cap_pulse, h, if_false]
      rw [e]
      simp only
      rcases (s.setRing .pulse { s.pulse with head := nextSlot s.cfg.pulseCap s.pulse.head }).rbPop_cases .pulse with
        ⟨h', _⟩ | ⟨_, e2⟩
      · exact absurd h' hne2
      · simp only [State.ring_pulse, State.cap_pulse]
        rw [e2]
        simp [slotOf_eq hh]
        rfl

/-! ## POLL (45_pipeline_sequencing.md R211) -/

/-- One turn of phase 1. -/
theorem State.pollEncode_succ (fuel : Nat) :
    State.pollEncode (fuel + 1) s =
      if s.rleStep.1 then State.pollEncode fuel s.rleStep.2.interruptPoint else s.rleStep.2.interruptPoint := rfl

/-- One turn of phase 2. -/
theorem State.pollDecode_succ (fuel : Nat) :
    State.pollDecode (fuel + 1) s =
      if s.decStep.1 then State.pollDecode fuel s.decStep.2.interruptPoint else s.decStep.2 := rfl

/-! ## Performing and stepping (60_exceptions.md R225, R226, R236) -/

/-- Everything performing an operation can do: the tick of a masked SAMPLE is held, else the operation runs. -/
theorem perform_cases (a : Agent) (i : Instr) :
    (a = .interrupt ∧ s.ie = false ∧ perform a i s = .next (s.hold (sampleOperand i))) ∨
    ((a ≠ .interrupt ∨ s.ie = true) ∧ perform a i s = exec i s) := by
  unfold perform
  by_cases h : a = .interrupt ∧ s.ie = false
  · exact .inl ⟨h.1, h.2, if_pos h⟩
  · exact .inr ⟨by cases hi : s.ie <;> simp_all, if_neg h⟩

/-- Everything a step that answers a next state can do: nothing with no event to come, the host's write of `ie`, or a permitted
operation performed. -/
theorem step_cases {t : State} (h : step s = .next t) :
    (s.sched = [] ∧ t = s) ∨
    (∃ v rest, s.sched = .hostIe v :: rest ∧ t = ({ s with sched := rest } : State).setIe v) ∨
    (∃ a w rest i, s.sched = .issue a w :: rest ∧ decode w = .ok i ∧
      permitted a i { s with sched := rest } = true ∧ perform a i { s with sched := rest } = .next t) := by
  unfold step at h
  split at h
  · cases h
  · unfold State.nextEvent at h
    cases hs : s.sched with
    | nil =>
      rw [hs] at h
      cases h
      exact .inl ⟨rfl, rfl⟩
    | cons e rest =>
      rw [hs] at h
      cases e with
      | hostIe v =>
        cases h
        exact .inr (.inl ⟨v, rest, rfl, rfl⟩)
      | issue a w =>
        simp only [occur, issue] at h
        split at h
        · cases h
        · next i hd =>
          split at h
          · next hp => exact .inr (.inr ⟨a, w, rest, i, rfl, hd, hp, h⟩)
          · cases h

/-! ## Dispatch and runs -/

theorem exec_sample (x : Bool) : exec (.sample x) s = .next (s.sample x) := rfl
theorem exec_poll : exec .poll s = .next s.poll := rfl
theorem exec_fltFrame (c : Code) : exec (.fltFrame c) s = .next (s.fltFrame c) := rfl
theorem exec_rbPush (b : RingId) (v : Byte) : exec (.rbPush b v) s = .next (s.rbPush b v) := rfl
theorem exec_rbPop (b : RingId) : exec (.rbPop b) s = .next ((s.rbPop b).2.respond (.pop (s.rbPop b).1)) := rfl
theorem exec_rbLen (b : RingId) : exec (.rbLen b) s = .next (s.respond (.len ((s.ring b).length (s.cap b)))) := by
  cases b <;> rfl
theorem exec_rbClear (b : RingId) : exec (.rbClear b) s = .next (s.rbClear b) := rfl
theorem exec_rleBit (x : Bool) : exec (.rleBit x) s = .next (s.rleBit x) := rfl
theorem exec_rleStep : exec .rleStep s = .next s.rleStep.2 := rfl
theorem exec_decPulse (r : PulseRecord) : exec (.decPulse r) s = .next (s.decPulse r) := rfl
theorem exec_decStep : exec .decStep s = .next s.decStep.2 := rfl

@[simp] theorem run_nil : run [] s = .next s := rfl

/-- A run goes on from the next state of its first operation. -/
theorem run_cons_of_next {i : Instr} {rest : List Instr} {s t : State} (h : exec i s = .next t) :
    run (i :: rest) s = run rest t := by
  rw [run, h]

/-- A run of two parts goes on from the next state of the first. -/
theorem run_append_of_next {is js : List Instr} {s t : State} (h : run is s = .next t) : run (is ++ js) s = run js t := by
  induction is generalizing s with
  | nil =>
    cases h
    rfl
  | cons i rest ih =>
    simp only [List.cons_append, run] at h ⊢
    split at h <;> first | exact ih h | cases h

end Sys2Proof.Machine
end

