-- ==== Sys2Proof/Laws/PerInstr.lean ====
section
/-! SUPPORT. The family `SelectsItsRow`: the encoding of every operation selects the operation's own row of the operation
map (30_encoding.md R97), one lemma per constructor. -/

namespace Sys2Proof.Laws.SelectsItsRow

/-- The word of an operation selects its row. -/
def Statement (i : Instr) : Prop := (opcodeRow i).selects (encode i) = true

theorem sample (s : Bool) : Statement (.sample s) := by unfold Statement; cases s <;> decide
theorem poll : Statement .poll := by unfold Statement; decide
theorem timer : Statement .timer := by unfold Statement; decide
theorem regcb (h : Handle) : Statement (.regcb h) := by
  simp only [Statement, OpcodeRow.selects, opcodeRow, encode]
  rw [show (0xFF000000#32) = assemble 0xF#4 0xF#4 0#24 by decide, assemble_and_upper]
  decide
theorem reset : Statement .reset := by unfold Statement; decide
theorem fltFrame (c : Code) : Statement (.fltFrame c) := by
  simp only [Statement, OpcodeRow.selects, opcodeRow, encode]
  rw [show (0xFF000000#32) = assemble 0xF#4 0xF#4 0#24 by decide, assemble_and_upper]
  decide
theorem rbPush (b : RingId) (v : Byte) : Statement (.rbPush b v) := by
  simp only [Statement, OpcodeRow.selects, opcodeRow, encode]
  rw [show (0xFEFFFF00#32) = assemble 0xF#4 0xE#4 (0xFFFF#16 ++ 0#8) by decide, assemble_and, BitVec.and_append]
  cases b <;> simp <;> decide
theorem rbPop (b : RingId) : Statement (.rbPop b) := by unfold Statement; cases b <;> decide
theorem rbLen (b : RingId) : Statement (.rbLen b) := by unfold Statement; cases b <;> decide
theorem rbClear (b : RingId) : Statement (.rbClear b) := by unfold Statement; cases b <;> decide
theorem rleBit (s : Bool) : Statement (.rleBit s) := by unfold Statement; cases s <;> decide
theorem rleStep : Statement .rleStep := by unfold Statement; decide
theorem decPulse (r : PulseRecord) : Statement (.decPulse r) := by
  simp only [Statement, OpcodeRow.selects, opcodeRow, encode]
  rw [show (0xFFFF0000#32) = assemble 0xF#4 0xF#4 (0xFF#8 ++ 0#16) by decide, assemble_and, BitVec.and_append]
  simp
  decide
theorem decStep : Statement .decStep := by unfold Statement; decide

end Sys2Proof.Laws.SelectsItsRow
end

