-- ==== Sys2Proof/Tests/Slice0.lean ====
section
/-! SUPPORT. Tests: the words and vectors of spec/ (95_test_vectors.md), the refusals of the checks, and for every statement with
hypotheses a concrete state and operands that meet them. Expected results are the spec's. -/

namespace Sys2Proof.Tests

open Sys2Proof Sys2Proof.Machine

/-! ## Helpers -/

/-- The reference ratios with small rings and a window of two ticks. -/
def cfgSmall : Config := ⟨50, 20, 44, 2, 5, 2, 4, 8⟩

/-- The reset state under `cfgSmall`. -/
def start : State := State.resetWith cfgSmall

/-- A property of the next state. -/
def leads (o : Host.Outcome State Fault Refusal) (p : State → Bool) : Bool :=
  match o with
  | .next t => p t
  | .fault _ => false
  | .refused _ => false

/-- The refusal answered. -/
def refusal? (o : Host.Outcome State Fault Refusal) : Option Refusal :=
  match o with
  | .refused r => some r
  | .next _ => none
  | .fault _ => none

/-- `start` after seven high samples. -/
def sevenTaken : State := { start with smp := ⟨0x7F#8, 7⟩ }

/-- `start` with a PULSE or RAW ring. -/
def withRaw (mem : Memory) (h t : Nat) : State := { start with raw := ⟨mem, h, t⟩ }
def withPulse (mem : Memory) (h t : Nat) : State := { start with pulse := ⟨mem, h, t⟩ }

/-- `start` in SeekingSync or ReceivingData with `t1` held. -/
def held (p : Phase) (n : Nat) (c : Code) (t1 : Duration) : State := { start with dec := ⟨p, n, c, true, t1⟩ }

def codeA : Code := ⟨0x0C#8, 0xBB#8, 0xAA#8⟩
def codeB : Code := ⟨0x01#8, 0x02#8, 0x03#8⟩

/-- `start` with a consumer registered and a filter state. -/
def filtered (f : Filter) (registered : Bool) : State := { start with flt := f, cb := ⟨registered, 0x00BEEF#24⟩ }

/-! ## The configuration checks refuse (00_scope.md R8) -/

theorem test_reference_is_legal : (Config.reference 0).legal = true := by decide
theorem test_sync_min_zero_refused : ({ cfgSmall with syncMinRatio := 0 } : Config).syncRatiosLegal = false := by decide
theorem test_sync_min_above_max_refused : ({ cfgSmall with syncMinRatio := 45 } : Config).syncRatiosLegal = false := by decide
theorem test_sync_max_above_64_refused : ({ cfgSmall with syncMaxRatio := 65 } : Config).syncRatiosLegal = false := by decide
theorem test_data_min_zero_refused : ({ cfgSmall with dataMinRatio := 0 } : Config).dataRatiosLegal = false := by decide
theorem test_data_min_above_max_refused : ({ cfgSmall with dataMinRatio := 6 } : Config).dataRatiosLegal = false := by decide
theorem test_data_max_above_64_refused : ({ cfgSmall with dataMaxRatio := 65 } : Config).dataRatiosLegal = false := by decide
theorem test_raw_cap_zero_refused : ({ cfgSmall with rawCap := 0 } : Config).rawCapLegal = false := by decide
theorem test_pulse_cap_odd_refused : ({ cfgSmall with pulseCap := 7 } : Config).pulseCapLegal = false := by decide
theorem test_pulse_cap_zero_refused : ({ cfgSmall with pulseCap := 0 } : Config).pulseCapLegal = false := by decide
theorem test_tick_zero_refused : ({ cfgSmall with samplerTickUs := 0 } : Config).tickLegal = false := by decide
theorem test_illegal_configuration_refused :
    refusal? (step { start with cfg := { cfgSmall with pulseCap := 7 } }) = some .illegalConfiguration := by decide

/-! ## Words written out from R95 to R97 decode (V51, P1), reserved words do not (V52) -/

theorem test_decode_sample : decode 0b0001_0000_000000000000000000000001#32 = .ok (.sample true) := by rfl
theorem test_decode_poll : decode 0b0010_0000_000000000000000000000000#32 = .ok .poll := by rfl
theorem test_decode_timer : decode 0b0011_0000_000000000000000000000000#32 = .ok .timer := by rfl
theorem test_decode_regcb : decode 0b0100_0000_000000001011111011101111#32 = .ok (.regcb 0x00BEEF#24) := by rfl
theorem test_decode_reset : decode 0b0101_0000_000000000000000000000000#32 = .ok .reset := by rfl
theorem test_decode_fltFrame : decode 0b0110_0000_000011001011101110101010#32 = .ok (.fltFrame codeA) := by rfl
theorem test_decode_rbPush : decode 0b1000_0001_000000000000000010000000#32 = .ok (.rbPush .pulse 0x80#8) := by rfl
theorem test_decode_rbPush_raw : decode 0x80000011#32 = .ok (.rbPush .raw 0x11#8) := by rfl
theorem test_decode_rbPop : decode 0b1001_0001_000000000000000000000000#32 = .ok (.rbPop .pulse) := by rfl
theorem test_decode_rbLen : decode 0b1010_0000_000000000000000000000000#32 = .ok (.rbLen .raw) := by rfl
theorem test_decode_rbClear : decode 0b1011_0000_000000000000000000000000#32 = .ok (.rbClear .raw) := by rfl
theorem test_decode_rleBit : decode 0b1100_0000_000000000000000000000000#32 = .ok (.rleBit false) := by rfl
theorem test_decode_rleStep : decode 0b1101_0000_000000000000000000000000#32 = .ok .rleStep := by rfl
theorem test_decode_decPulse : decode 0b1110_0000_000000001000000000001010#32 = .ok (.decPulse ⟨true, 10#15⟩) := by rfl
theorem test_decode_decPulse_low : decode 0xE0000118#32 = .ok (.decPulse ⟨false, 280#15⟩) := by rfl
theorem test_decode_decStep : decode 0b1111_0000_000000000000000000000000#32 = .ok .decStep := by rfl

theorem test_reserved_words : [0x00000000#32, 0x70000000#32, 0x10000002#32, 0x20000001#32, 0x92000000#32, 0x80000100#32,
    0xE0010000#32, 0x31000000#32].all (fun w => (decode w).toOption.isNone) = true := by decide
theorem test_table_rows_disjoint :
    opcodeTable.Pairwise (fun r r' => r.pattern &&& r'.mask ≠ r'.pattern &&& r.mask) := by decide
theorem test_decodeTableWord : decodeTableWord 32 0x4000CAFE = some (.regcb 0x00CAFE#24) := by decide
theorem test_withFetchWord_runs_first :
    leads (step (State.reset.withFetchWord 32 0x80000011)) (fun t => decide (t.raw = ⟨[(0, 0x11#8)], 0, 1⟩)) = true := by decide
theorem test_reset_idles : step State.reset = .next State.reset := by rfl

/-! ## One step of each operation, from the vectors -/

/-- V10. -/
theorem test_sample_shifts :
    leads (exec (.sample true) { start with smp := ⟨0x02#8, 2⟩ }) (fun t => decide (t.smp = ⟨0x05#8, 3⟩)) = true := by decide
/-- V11: samples 1,0,1,0,0,1,1,0. -/
theorem test_sample_pushes_eighth : leads (exec (.sample false) { start with smp := ⟨0x53#8, 7⟩ })
    (fun t => decide (t.smp = ⟨0xA6#8, 0⟩ ∧ t.queue .raw = [0xA6#8])) = true := by decide
/-- P5: one byte of RAW already lost, then POLL. -/
theorem test_poll_p5 : leads (exec .poll { start with
      cfg := { cfgSmall with rawCap := 2 }, raw := ⟨[(0, 0xFF#8), (2, 0xF0#8)], 1, 0⟩ })
    (fun t => decide (t.raw.head = 0 ∧ t.raw.tail = 0 ∧ t.pulse.head = 4 ∧ t.pulse.tail = 4 ∧ t.rle = ⟨false, 4#15⟩ ∧
      t.dec = ⟨.seekingSync, 0, zeroCode, true, 4#15⟩ ∧ t.drops = [.lowSkipped])) = true := by decide
/-- R211 corner (c): the eighth sample falls after the first RLE.STEP, and this POLL consumes its byte. -/
theorem test_poll_takes_byte_pushed_in_phase_one :
    leads (exec .poll { withRaw [(0, 0xFF#8)] 0 1 with smp := ⟨0x7F#8, 7⟩, ticks := [[true]] })
      (fun t => decide (t.raw.head = 2 ∧ t.raw.tail = 2 ∧ t.rle = ⟨true, 16#15⟩ ∧ t.ticks = [])) = true := by decide
/-- R226: ticks inside a POLL that runs with `ie` at 0. -/
theorem test_interrupted_poll_holds_the_first_tick :
    leads (exec .poll { start with ie := false, ticks := [[], [true, false]], raw := ⟨[], 0, 1⟩ })
      (fun t => decide (t.pendingTick = some true ∧ t.ticks = [] ∧ t.smp.cnt = 0)) = true := by decide
theorem test_timer_counts_down :
    leads (exec .timer (filtered ⟨true, codeA, 2⟩ true)) (fun t => decide (t.flt.refrCnt = 1)) = true := by decide
theorem test_timer_idle : leads (exec .timer start) (fun t => decide (t = start)) = true := by decide
theorem test_regcb_first : leads (exec (.regcb 0x00BEEF#24) start) (fun t => decide (t.cb = ⟨true, 0x00BEEF#24⟩)) = true := by
  decide
theorem test_regcb_second_ignored : leads (exec (.regcb 0x00CAFE#24) (filtered ⟨false, zeroCode, 0⟩ true))
    (fun t => decide (t.cb = ⟨true, 0x00BEEF#24⟩ ∧ t.drops = [.regcbIgnored])) = true := by decide
theorem test_reset_keeps_ie_and_memory : leads (exec .reset { withRaw [(1, 0x22#8)] 1 3 with ie := false })
    (fun t => decide (t.raw = ⟨[(1, 0x22#8)], 0, 0⟩ ∧ t.ie = false)) = true := by decide
/-- P3, operations 3 and 6. -/
theorem test_fltFrame_first_unconfirmed : leads (exec (.fltFrame codeA) (filtered ⟨false, zeroCode, 0⟩ true))
    (fun t => decide (t.flt = ⟨true, codeA, 0⟩ ∧ t.out = [] ∧ t.drops = [.unconfirmed])) = true := by decide
theorem test_fltFrame_delivers : leads (exec (.fltFrame codeA) (filtered ⟨true, codeA, 0⟩ true))
    (fun t => decide (t.flt.refrCnt = 2 ∧ t.out = [⟨0x00BEEF#24, codeA⟩] ∧ t.drops = [])) = true := by decide
/-- V4. -/
theorem test_rbPush_full : leads (exec (.rbPush .raw 0x55#8) (withRaw [(0, 0x11#8), (1, 0x22#8), (2, 0x33#8), (3, 0x44#8)] 0 4))
    (fun t => decide (t.raw.head = 1 ∧ t.raw.tail = 0 ∧ t.queue .raw = [0x22#8, 0x33#8, 0x44#8, 0x55#8] ∧
      t.drops = [.rawOverflow])) = true := by decide
/-- V8, the third push. -/
theorem test_rbPush_cap_one : leads (exec (.rbPush .raw 0xA3#8) { withRaw [(0, 0xA1#8), (1, 0xA2#8)] 1 0 with
      cfg := { cfgSmall with rawCap := 1 } })
    (fun t => decide (t.raw.head = 0 ∧ t.raw.tail = 1 ∧ t.queue .raw = [0xA3#8])) = true := by decide
/-- V6. -/
theorem test_rbPop_oldest_survivor :
    leads (exec (.rbPop .raw) (withRaw [(0, 0x11#8), (1, 0x22#8), (2, 0x33#8), (3, 0x44#8), (4, 0x55#8)] 1 0))
      (fun t => decide (t.raw.head = 2 ∧ t.raw.tail = 0 ∧ t.responses = [.pop (some 0x22#8)])) = true := by decide
/-- V1. -/
theorem test_rbPop_empty : leads (exec (.rbPop .raw) start) (fun t => decide (t.responses = [.pop none])) = true := by decide
/-- V5. -/
theorem test_rbLen_wraps : leads (exec (.rbLen .raw) (withRaw [] 1 0)) (fun t => decide (t.responses = [.len 4])) = true := by
  decide
/-- V7. -/
theorem test_rbClear : leads (exec (.rbClear .raw) (withRaw [(2, 0x33#8)] 2 0))
    (fun t => decide (t.raw = ⟨[(2, 0x33#8)], 0, 0⟩)) = true := by decide
/-- R151, the example. -/
theorem test_rleBit_closes_run : leads (exec (.rleBit false) { start with rle := ⟨true, 10#15⟩ })
    (fun t => decide (t.queue .pulse = [0x80#8, 0x0A#8] ∧ t.rle = ⟨false, 1#15⟩)) = true := by decide
/-- V22: the count stays at 32767. -/
theorem test_rleBit_saturates : leads (exec (.rleBit true) { start with rle := ⟨true, 32767#15⟩ })
    (fun t => decide (t.rle = ⟨true, 32767#15⟩)) = true := by decide
/-- V18. -/
theorem test_rleStep_f0 : leads (exec .rleStep (withRaw [(0, 0xF0#8)] 0 1))
    (fun t => decide (t.queue .pulse = [0x00#8, 0x00#8, 0x80#8, 0x04#8] ∧ t.rle = ⟨false, 4#15⟩)) = true := by decide
theorem test_rleStep_empty : leads (exec .rleStep start) (fun t => decide (t = start)) = true := by decide
/-- V38. -/
theorem test_decPulse_completes_frame :
    leads (exec (.decPulse ⟨false, 12#15⟩) (held .receivingData 23 ⟨0x0C#8, 0xBB#8, 0xAB#8⟩ 3#15))
      (fun t => decide (t.dec = ⟨.seekingSync, 24, codeA, false, 3#15⟩ ∧ t.flt = ⟨true, codeA, 0⟩)) = true := by decide
/-- V36. -/
theorem test_decPulse_bad_bit :
    leads (exec (.decPulse ⟨false, 280#15⟩) (held .receivingData 10 ⟨0xAB#8, 0x80#8, 0x00#8⟩ 10#15))
      (fun t => decide (t.dec = ⟨.seekingSync, 10, ⟨0xAB#8, 0x80#8, 0x00#8⟩, false, 10#15⟩ ∧ t.drops = [.badBit])) = true := by
  decide
/-- V39, the second DEC.STEP. -/
theorem test_decStep_accepts_sync :
    leads (exec .decStep { withPulse [(0, 0x80#8), (1, 0x0A#8), (3, 0xC8#8)] 2 4 with
        dec := ⟨.seekingSync, 0, zeroCode, true, 10#15⟩ })
      (fun t => decide (t.pulse.head = 4 ∧ t.dec = ⟨.receivingData, 0, zeroCode, false, 10#15⟩)) = true := by decide
/-- V39: a lone byte is left in place. -/
theorem test_decStep_lone_byte :
    leads (exec .decStep (withPulse [(0, 0x80#8)] 0 1)) (fun t => decide (t = withPulse [(0, 0x80#8)] 0 1)) = true := by decide
/-- V37. -/
theorem test_code_bit_places : writeCodeBit zeroCode 7 true = ⟨0x01#8, 0x00#8, 0x00#8⟩ ∧
    writeCodeBit zeroCode 8 true = ⟨0x00#8, 0x80#8, 0x00#8⟩ ∧
    writeCodeBit zeroCode 22 true = ⟨0x00#8, 0x00#8, 0x02#8⟩ := by decide
/-- V27, V28, V29: saturated durations are plain numbers and products do not wrap. -/
theorem test_sync_saturated : syncOk cfgSmall 744 32767 = false ∧ syncOk cfgSmall 745 32767 = true ∧
    syncOk cfgSmall 1638 32767 = true ∧ syncOk cfgSmall 1639 32767 = false ∧ syncOk cfgSmall 32767 32767 = false := by decide

/-! ## The trace syntax (R103, R104) -/

theorem test_trace_line : traceLine (.fltFrame codeA) = "FLT.FRAME 0x0CBBAA".toList := by decide
theorem test_trace_read : readLine "DEC.PAIR 10,200 ; sync".toList =
    some [.decPulse ⟨true, 10#15⟩, .decPulse ⟨false, 200#15⟩] := by decide

/-! ## Memory -/

theorem test_reset_memory_wf : State.reset.raw.mem.wf = true ∧ State.reset.pulse.mem.wf = true := by decide
theorem test_blank_write_removes : Memory.write [(0, 0x11#8), (2, 0x33#8)] 2 0x00#8 = [(0, 0x11#8)] := by decide

/-! ## Hypotheses are met: one witness a statement, at the boundaries of its clauses -/

theorem meets_EncodeOfDecodeIsTheWord : ∃ w i, decode w = .ok i := ⟨0x10000001#32, .sample true, rfl⟩

theorem meets_DecoderFollowsTheOperationMap :
    (∃ w i, decode w = .ok i) ∧
    (∃ (w : Word) (r : OpcodeRow), r ∈ opcodeTable ∧ r.selects w = true) ∧
    (∃ w : Word, ∀ r ∈ opcodeTable, r.selects w = false) :=
  ⟨⟨0xF0000000#32, .decStep, rfl⟩,
   ⟨0x10000001#32, ⟨0x10000000#32, 0xFFFFFFFE#32⟩, by decide, by decide⟩, ⟨0x10000002#32, by decide⟩⟩

theorem meets_CodeBitWriteTouchesOneBit : (0 < 24 ∧ 23 < 24) := by decide

/-- `start` with one command word to come. -/
def issued (a : Agent) (w : Word) : State := { start with sched := [.issue a w] }

/-- `start` with `ie` at 0, a tick held or none, and one event to come. -/
def masked (tick : Option Bool) (e : Event) : State := { start with ie := false, pendingTick := tick, sched := [e] }

/-- One witness for each context: SAMPLE as a tick, RESET by the host, POLL by the task agent, SAMPLE by a test bench. -/
theorem meets_StepRunsTheDecodedOperation :
    start.cfg.legal = true ∧ (∀ a w, (issued a w).sched = .issue a w :: []) ∧
    (decode 0x10000001#32 = .ok (.sample true) ∧ (issued .interrupt 0x10000001#32).ie = true) ∧
    decode 0x50000000#32 = .ok .reset ∧
    (decode 0x20000000#32 = .ok .poll ∧ Instr.poll ≠ .reset ∧ ∀ x, Instr.poll ≠ .sample x) ∧
    ((issued .task 0x10000001#32).pendingTick = none ∧ (issued .task 0x10000001#32).ticks.flatten = [] ∧
      ∀ w', Event.issue .interrupt w' ∉ ([] : List Event)) :=
  ⟨by decide, fun _ _ => rfl, ⟨rfl, rfl⟩, rfl, ⟨rfl, by decide, by decide⟩, rfl, rfl, by simp⟩

theorem meets_ReservedWordIsRefused :
    (issued .task 0x92000000#32).cfg.legal = true ∧
    (issued .task 0x92000000#32).sched = .issue .task 0x92000000#32 :: [] ∧
    decode 0x92000000#32 = .error (.mustBeZeroBitSet 0x9#4) := ⟨by decide, rfl, rfl⟩

/-- One witness for each wrong context: RB.PUSH by the interrupt agent, POLL by the host, RESET by the task agent, SAMPLE by a
test bench while a tick is held, is to fall, or is to be issued. -/
theorem meets_WrongContextIsRefused :
    (start.cfg.legal = true ∧ decode 0x80000011#32 = .ok (.rbPush .raw 0x11#8) ∧
      ∀ x, Instr.rbPush .raw 0x11#8 ≠ .sample x) ∧
    (decode 0x20000000#32 = .ok .poll ∧ Instr.poll ≠ .reset) ∧
    (decode 0x50000000#32 = .ok .reset) ∧
    (decode 0x10000001#32 = .ok (.sample true) ∧ (masked (some true) (.hostIe true)).pendingTick ≠ none ∧
      ({ issued .task 0x10000001#32 with ticks := [[true]] } : State).ticks.flatten ≠ [] ∧
      ∃ w', Event.issue .interrupt w' ∈ (issued .interrupt 0x10000000#32).sched) :=
  ⟨⟨by decide, rfl, nofun⟩, ⟨rfl, by decide⟩, rfl, rfl, by decide, by decide, 0x10000000#32, by decide⟩

theorem test_wrong_context_refused :
    refusal? (step (issued .interrupt 0x81000080#32)) = some .wrongContext ∧
    refusal? (step (issued .task 0x50000000#32)) = some .wrongContext ∧
    refusal? (step { issued .task 0x10000001#32 with
      sched := [.issue .task 0x10000001#32, .issue .interrupt 0x10000000#32] }) = some .wrongContext := by decide

theorem meets_StepWithoutAnOperation :
    start.cfg.legal = true ∧ start.sched = [] ∧
    (masked (some true) (.hostIe false)).sched = .hostIe false :: [] ∧
    ((masked none (.hostIe true)).sched = .hostIe true :: [] ∧ (masked none (.hostIe true)).pendingTick = none) := by decide

theorem meets_MaskedTickWaitsForIe :
    (masked none (.hostIe true)).cfg.legal = true ∧ (masked none (.hostIe true)).ie = false ∧
    decode 0x10000001#32 = .ok (.sample true) ∧
    (masked none (.issue .interrupt 0x10000001#32)).sched = .issue .interrupt 0x10000001#32 :: [] ∧
    (masked none (.issue .interrupt 0x10000001#32)).pendingTick = none ∧
    (masked (some false) (.issue .interrupt 0x10000001#32)).pendingTick ≠ none ∧
    (masked (some true) (.hostIe true)).sched = .hostIe true :: [] ∧
    (masked (some true) (.hostIe true)).pendingTick = some true :=
  ⟨by decide, rfl, rfl, rfl, rfl, by decide, rfl, rfl⟩

/-- R226: held, the second lost, run when `ie` is 1 again. -/
theorem test_masked_tick :
    leads (step (masked none (.issue .interrupt 0x10000001#32))) (fun t => decide (t.pendingTick = some true ∧ t.smp.cnt = 0)) =
      true ∧
    leads (step (masked (some false) (.issue .interrupt 0x10000001#32))) (fun t => decide (t.pendingTick = some false)) = true ∧
    leads (step (masked (some true) (.hostIe true)))
      (fun t => decide (t.pendingTick = none ∧ t.ie = true ∧ t.smp = ⟨0x01#8, 1⟩)) = true := by decide

theorem meets_StepStopsOnlyOutsideTheModel :
    ({ start with cfg := { cfgSmall with pulseCap := 7 } } : State).cfg.legal = false ∧
    start.cfg.legal = true ∧ refusal? (step (issued .task 0x92000000#32)) = some (.mustBeZeroBitSet 0x9#4) := by decide

theorem meets_PushWritesTheTailSlotAndAdvances :
    ((withRaw [(0, 0x11#8)] 0 4).ring .raw).mem.wf = true ∧
    ((withRaw [(0, 0x11#8)] 0 4).ring .raw).tail ≤ (withRaw [(0, 0x11#8)] 0 4).cap .raw := by decide

theorem meets_PopReturnsTheOldestByte :
    (start.ring .raw).head ≤ start.cap .raw ∧ (start.ring .raw).head = (start.ring .raw).tail ∧
    ((withRaw [(4, 0x11#8)] 4 0).ring .raw).head ≤ (withRaw [(4, 0x11#8)] 4 0).cap .raw ∧
    ((withRaw [(4, 0x11#8)] 4 0).ring .raw).head ≠ ((withRaw [(4, 0x11#8)] 4 0).ring .raw).tail := by decide

theorem meets_LenReportsTheCount :
    ((withRaw [] 4 0).ring .raw).head ≤ (withRaw [] 4 0).cap .raw ∧
    ((withRaw [] 4 0).ring .raw).tail ≤ (withRaw [] 4 0).cap .raw := by decide

theorem meets_RingOperationsActOnTheQueue :
    1 ≤ (withRaw [(4, 0x11#8)] 4 0).cap .raw ∧
    RingLegal ((withRaw [(4, 0x11#8)] 4 0).cap .raw) ((withRaw [(4, 0x11#8)] 4 0).ring .raw) ∧
    (withRaw [(4, 0x11#8)] 4 0).queue .raw = 0x11#8 :: [] ∧ (withRaw [] 2 2).queue .raw = [] := by decide

theorem meets_OverwriteKeepsTheLastBytes :
    1 ≤ (withRaw [] 2 2).cap .raw ∧ RingLegal ((withRaw [] 2 2).cap .raw) ((withRaw [] 2 2).ring .raw) ∧
    ((withRaw [] 2 2).ring .raw).head = ((withRaw [] 2 2).ring .raw).tail ∧
    (withRaw [] 2 2).cap .raw ≤ [0x01#8, 0x02#8, 0x03#8, 0x04#8, 0x05#8].length := by decide

theorem meets_EveryOperationRestoresIe : ∃ t, exec .poll start = .next t := ⟨_, rfl⟩

theorem meets_SampleShiftsAndPushesTheEighth :
    start.smp.cnt.val < 7 ∧ ({ start with smp := ⟨0x53#8, 6⟩ } : State).smp.cnt.val < 7 ∧
    ({ start with smp := ⟨0x53#8, 7⟩ } : State).smp.cnt.val = 7 := by decide

theorem meets_SamplesArePushedEightToAByte : start.smp.cnt = 0 ∧ [true, false, true].length < 8 := by decide

theorem meets_RleBitExtendsOrClosesTheRun :
    start.pulse.mem.wf = true ∧ start.pulse.tail ≤ start.cfg.pulseCap ∧ false = start.rle.level ∧ true ≠ start.rle.level := by decide

/-- PULSE full: eight bytes, the tail one slot before the head. -/
theorem meets_EmissionIntoFullPulseDropsTwoBytes :
    2 ≤ (withPulse [(1, 0x01#8)] 1 0).cfg.pulseCap ∧
    RingLegal (withPulse [(1, 0x01#8)] 1 0).cfg.pulseCap (withPulse [(1, 0x01#8)] 1 0).pulse ∧
    true ≠ (withPulse [(1, 0x01#8)] 1 0).rle.level ∧
    ((withPulse [(1, 0x01#8)] 1 0).queue .pulse).length = (withPulse [(1, 0x01#8)] 1 0).cfg.pulseCap := by decide

theorem meets_RleStepEncodesOneByte :
    start.raw.head ≤ start.cfg.rawCap ∧ start.raw.head = start.raw.tail ∧
    (withRaw [(4, 0xF0#8)] 4 0).raw.head ≤ (withRaw [(4, 0xF0#8)] 4 0).cfg.rawCap ∧
    (withRaw [(4, 0xF0#8)] 4 0).raw.head ≠ (withRaw [(4, 0xF0#8)] 4 0).raw.tail := by decide

theorem meets_RunLengthsAreExact :
    2 ≤ start.cfg.pulseCap ∧ RingLegal start.cfg.pulseCap start.pulse ∧ start.pulse.head = start.pulse.tail ∧
    start.rle = ⟨false, 0#15⟩ ∧ (∀ (x : Bool) (n : Nat), List.replicate n x <:+: [true, true, false] → n ≤ 32767) ∧
    ∃ t, run ([true, true, false].map .rleBit) start = .next t ∧ NoOverflow start t := by
  refine ⟨by decide, by decide, by decide, rfl, fun x n h => ?_, _, rfl, ?_⟩
  · have := h.length_le
    simp at this
    omega
  · exact ⟨by decide, by decide⟩

theorem meets_EmittedRecordsAlternate :
    2 ≤ start.cfg.pulseCap ∧ RingLegal start.cfg.pulseCap start.pulse ∧ start.pulse.head = start.pulse.tail ∧
    start.rle = ⟨false, 0#15⟩ ∧
    ∃ t r, run ([true, false].map .rleBit) start = .next t ∧ NoOverflow start t ∧
      (recordsOf (t.queue .pulse))[1]? = some r :=
  ⟨by decide, by decide, by decide, rfl, _, ⟨true, 1#15⟩, rfl, ⟨by decide, by decide⟩, by decide⟩

theorem meets_DecPulseFormsPairs : start.dec.t1Valid = false := by decide

/-- E3: (10, 200) and (10, 440) are inside, (10, 199) and (10, 441) outside. -/
theorem meets_SyncPairStartsAFrame :
    (held .seekingSync 0 zeroCode 10#15).dec.t1Valid = true ∧ (held .seekingSync 0 zeroCode 10#15).dec.phase = .seekingSync ∧
    (10 * cfgSmall.syncMinRatio ≤ (200#15).toNat ∧ (200#15).toNat ≤ 10 * cfgSmall.syncMaxRatio) ∧
    (10 * cfgSmall.syncMinRatio ≤ (440#15).toNat ∧ (440#15).toNat ≤ 10 * cfgSmall.syncMaxRatio) ∧
    ¬ (10 * cfgSmall.syncMinRatio ≤ (199#15).toNat ∧ (199#15).toNat ≤ 10 * cfgSmall.syncMaxRatio) ∧
    ¬ (10 * cfgSmall.syncMinRatio ≤ (441#15).toNat ∧ (441#15).toNat ≤ 10 * cfgSmall.syncMaxRatio) := by decide

/-- E4, V31: (50, 10) is 1, (10, 50) is 0, (10, 5) neither; bit counts 22 and 23. -/
theorem meets_DataPairIsABitOrAbandonsTheFrame :
    cfgSmall.legal = true ∧ (held .receivingData 22 zeroCode 50#15).dec.t1Valid = true ∧
    (held .receivingData 22 zeroCode 50#15).dec.bitCount < 23 ∧ (held .receivingData 23 zeroCode 50#15).dec.bitCount = 23 ∧
    (10 * cfgSmall.dataMinRatio < 50 ∧ 50 ≤ 10 * cfgSmall.dataMaxRatio) ∧
    (¬ (5 * cfgSmall.dataMinRatio < 10 ∧ 10 ≤ 5 * cfgSmall.dataMaxRatio) ∧
      ¬ (10 * cfgSmall.dataMinRatio < 5 ∧ 5 ≤ 10 * cfgSmall.dataMaxRatio)) := by decide

theorem meets_DecStepPopsOneRecord :
    (withPulse [(8, 0x80#8)] 8 1).pulse.head ≤ (withPulse [(8, 0x80#8)] 8 1).cfg.pulseCap ∧
    (withPulse [(8, 0x80#8)] 8 1).pulse.tail ≤ (withPulse [(8, 0x80#8)] 8 1).cfg.pulseCap ∧
    2 ≤ ((withPulse [(8, 0x80#8)] 8 1).queue .pulse).length ∧
    ((withPulse [(0, 0x80#8)] 0 1).queue .pulse).length < 2 := by decide

theorem meets_FrameDecodesToItsBits :
    start.cfg.legal = true ∧ start.dec.phase = .seekingSync ∧ start.dec.t1Valid = false ∧
    (10#15).toNat * start.cfg.syncMinRatio ≤ (280#15).toNat ∧ (280#15).toNat ≤ (10#15).toNat * start.cfg.syncMaxRatio ∧
    List.Forall₂ (fun (p : Duration × Duration) (x : Bool) =>
      if x then p.2.toNat * start.cfg.dataMinRatio < p.1.toNat ∧ p.1.toNat ≤ p.2.toNat * start.cfg.dataMaxRatio
      else p.1.toNat * start.cfg.dataMinRatio < p.2.toNat ∧ p.2.toNat ≤ p.1.toNat * start.cfg.dataMaxRatio)
      ((12#15, 3#15) :: List.replicate 23 (3#15, 12#15)) (true :: List.replicate 23 false) ∧
    (true :: List.replicate 23 false).length = 24 ∧
    ((12#15, 3#15) :: List.replicate 23 ((3#15, 12#15) : Duration × Duration)).getLast? = some (3#15, 12#15) := by
  refine ⟨by decide, by decide, by decide, by decide, by decide, .cons (by decide) ?_, by decide, by decide⟩
  generalize 23 = n
  induction n with
  | zero => exact .nil
  | succ n ih => exact .cons (by decide) ih

theorem meets_DecoderNeverWedges :
    (held .receivingData 23 zeroCode 0#15).dec.bitCount ≤ 24 ∧ (held .receivingData 23 zeroCode 0#15).dec.bitCount < 24 ∧
    (List.replicate 24 ((1#15, 1#15) : Duration × Duration)).length = 24 := by decide

/-- A frame that is new, one inside the window, one delivered and one with nobody registered. -/
theorem meets_FrameIsConfirmedThenDelivered :
    (start.flt.candValid = false ∨ start.flt.cand ≠ codeA) ∧
    ((filtered ⟨true, codeA, 1⟩ true).flt.candValid = true ∧ (filtered ⟨true, codeA, 1⟩ true).flt.cand = codeA ∧
      0 < (filtered ⟨true, codeA, 1⟩ true).flt.refrCnt) ∧
    ((filtered ⟨true, codeA, 0⟩ true).flt.refrCnt = 0 ∧ (filtered ⟨true, codeA, 0⟩ true).cb.registered = true) ∧
    (filtered ⟨true, codeA, 0⟩ false).cb.registered = false := by decide

theorem meets_TimerRunsTheWindowDown :
    0 < (filtered ⟨true, codeA, 1⟩ true).flt.refrCnt ∧ start.flt.refrCnt = 0 := by decide

theorem meets_FirstRegistrationStays :
    start.cb.registered = false ∧ (filtered ⟨true, codeA, 1⟩ true).cb.registered = true := by decide

theorem meets_ConfirmationAndRefractoryProperties :
    codeA ≠ codeB ∧ (filtered ⟨false, zeroCode, 0⟩ true).cb.registered = true ∧
    (filtered ⟨false, zeroCode, 0⟩ true).flt.candValid = false ∧ (filtered ⟨false, zeroCode, 0⟩ true).flt.refrCnt = 0 ∧
    1 ≤ (filtered ⟨false, zeroCode, 0⟩ true).cfg.refractoryTicks ∧
    1 < (filtered ⟨false, zeroCode, 0⟩ true).cfg.refractoryTicks := by decide

theorem meets_WindowSuppressesEveryDelivery :
    Instr.reset ∉ [Instr.timer, .fltFrame codeA] ∧
    [Instr.timer, .fltFrame codeA].count .timer < (filtered ⟨true, codeA, 2⟩ true).flt.refrCnt ∧
    ∃ t, run [.timer, .fltFrame codeA] (filtered ⟨true, codeA, 2⟩ true) = .next t :=
  ⟨by decide, by decide, _, rfl⟩

theorem meets_OnlyTimerMovesAnActiveWindow :
    Instr.poll ≠ .timer ∧ Instr.poll ≠ .reset ∧ 0 < (filtered ⟨true, codeA, 2⟩ true).flt.refrCnt ∧
    ∃ t, exec .poll (filtered ⟨true, codeA, 2⟩ true) = .next t := ⟨by decide, by decide, by decide, _, rfl⟩

theorem meets_RegistrationSurvivesEverythingButReset :
    Instr.poll ≠ .reset ∧ (filtered ⟨true, codeA, 2⟩ true).cb.registered = true ∧
    ∃ t, exec .poll (filtered ⟨true, codeA, 2⟩ true) = .next t := ⟨by decide, by decide, _, rfl⟩

theorem meets_CandidateIsClearedOnlyByReset :
    Instr.poll ≠ .reset ∧ (filtered ⟨true, codeA, 2⟩ true).flt.candValid = true ∧
    ∃ t, exec .poll (filtered ⟨true, codeA, 2⟩ true) = .next t := ⟨by decide, by decide, _, rfl⟩

/-- Both ways of being uninterrupted. -/
theorem meets_PollDrainsBothBuffers :
    RingLegal (withRaw [(4, 0xF0#8)] 4 0).cfg.rawCap (withRaw [(4, 0xF0#8)] 4 0).raw ∧
    RingLegal (withRaw [(4, 0xF0#8)] 4 0).cfg.pulseCap (withRaw [(4, 0xF0#8)] 4 0).pulse ∧
    Uninterrupted (withRaw [(4, 0xF0#8)] 4 0) ∧
    Uninterrupted { withRaw [(4, 0xF0#8)] 4 0 with ie := false, ticks := [[true]] } := by decide

theorem meets_PollWithNothingWaitingChangesNothing :
    start.raw.head = start.raw.tail ∧ (withPulse [] 8 0).pulse.head ≤ (withPulse [] 8 0).cfg.pulseCap ∧
    (withPulse [] 8 0).pulse.tail ≤ (withPulse [] 8 0).cfg.pulseCap ∧ ((withPulse [] 8 0).queue .pulse).length < 2 ∧
    Uninterrupted (withPulse [] 8 0) := by decide

theorem meets_PollIsAnInterleaving :
    RingLegal (withRaw [(4, 0xF0#8)] 4 0).cfg.rawCap (withRaw [(4, 0xF0#8)] 4 0).raw ∧
    RingLegal (withRaw [(4, 0xF0#8)] 4 0).cfg.pulseCap (withRaw [(4, 0xF0#8)] 4 0).pulse := by decide

theorem meets_PollLoopsEndByThemselves :
    RingLegal start.cfg.rawCap start.raw ∧ RingLegal start.cfg.pulseCap start.pulse := by decide

/-- Seven samples taken; the eighth is issued in one schedule, and falls inside a POLL in the other. -/
theorem meets_PollTimingDoesNotMatter :
    (∀ i ∈ [Instr.sample true], i = .poll ∨ ∃ x, i = .sample x) ∧ (∀ i ∈ [Instr.poll], i = .poll ∨ ∃ x, i = .sample x) ∧
    ({ sevenTaken with ticks := [[true]] } : State) =
      { sevenTaken with ticks := ({ sevenTaken with ticks := [[true]] } : State).ticks } ∧
    sevenTaken.cfg.legal = true ∧ Legal sevenTaken ∧
    ∃ t t', run ([.sample true] ++ [.poll]) sevenTaken = .next t ∧
      run ([.poll] ++ [.poll]) { sevenTaken with ticks := [[true]] } = .next t' ∧
      samplesTaken ([.sample true] ++ [.poll]) sevenTaken = samplesTaken ([.poll] ++ [.poll]) { sevenTaken with ticks := [[true]] } ∧
      t.queue .raw = [] ∧ t'.queue .raw = [] ∧ NoOverflow sevenTaken t ∧
      NoOverflow { sevenTaken with ticks := [[true]] } t' :=
  ⟨by simp, by simp, rfl, by decide, by decide, _, _, rfl, rfl, by decide, by decide, by decide, ⟨by decide, by decide⟩,
    ⟨by decide, by decide⟩⟩

/-- The clauses of the ring operations on PULSE, and of RLE.STEP with RAW neither empty nor full. -/
theorem meets_SampleCommutesWithTaskOperations :
    (∃ v, Instr.rbPush .pulse 0x80#8 = .rbPush .pulse v) ∧ Instr.rleStep = .rleStep ∧ RingLegal (withRaw [(4, 0xF0#8)] 4 0).cfg.rawCap (withRaw [(4, 0xF0#8)] 4 0).raw ∧
    (withRaw [(4, 0xF0#8)] 4 0).raw.head ≠ (withRaw [(4, 0xF0#8)] 4 0).raw.tail ∧
    ((withRaw [(4, 0xF0#8)] 4 0).raw.tail + 1) % ((withRaw [(4, 0xF0#8)] 4 0).cfg.rawCap + 1) ≠
      (withRaw [(4, 0xF0#8)] 4 0).raw.head := ⟨⟨_, rfl⟩, by decide⟩

theorem meets_ContextsOwnTheirState :
    (∃ t, exec (.sample true) start = .next t) ∧ (∀ x, Instr.poll ≠ .sample x) ∧ Instr.poll ≠ .reset ∧
    Uninterrupted start ∧ ∃ t, exec .poll start = .next t := ⟨⟨_, rfl⟩, by decide, by decide, by decide, _, rfl⟩

theorem meets_StageOperationsTouchTheirStageOnly :
    (∃ t, exec (.decPulse ⟨true, 10#15⟩) start = .next t) ∧ (∃ t, exec (.fltFrame codeA) start = .next t) ∧
    (∃ t, exec (.rleBit true) start = .next t) := ⟨⟨_, rfl⟩, ⟨_, rfl⟩, ⟨_, rfl⟩⟩

theorem meets_DropsPerOperation :
    (∃ t, exec (.decPulse ⟨false, 10#15⟩) start = .next t) ∧ (∃ t, exec (.rleBit true) start = .next t) :=
  ⟨⟨_, rfl⟩, ⟨_, rfl⟩⟩

theorem meets_ObservationsOnlyGrow : ∃ t, exec (.rbPop .raw) start = .next t := ⟨_, rfl⟩

theorem meets_OnlyPopAndLenRespond :
    (∀ b, Instr.poll ≠ .rbPop b) ∧ (∀ b, Instr.poll ≠ .rbLen b) ∧ ∃ t, exec .poll start = .next t :=
  ⟨nofun, nofun, _, rfl⟩

theorem meets_EveryStepKeepsTheStateLegal :
    Legal (issued .task 0x20000000#32) ∧ ∃ t, step (issued .task 0x20000000#32) = .next t := ⟨by decide, _, rfl⟩

theorem meets_EveryStepKeepsTheConfiguration : ∃ t, step (issued .task 0x20000000#32) = .next t := ⟨_, rfl⟩

theorem meets_PulseHoldsWholeRecords :
    RingLegal start.cfg.rawCap start.raw ∧ RingLegal start.cfg.pulseCap start.pulse ∧ start.cfg.pulseCap % 2 = 0 ∧
    (start.queue .pulse).length % 2 = 0 ∧ (∀ v, Instr.poll ≠ .rbPush .pulse v) ∧ Instr.poll ≠ .rbPop .pulse ∧
    ∃ t, exec .poll start = .next t :=
  ⟨by decide, by decide, by decide, by decide, nofun, by decide, _, rfl⟩

end Sys2Proof.Tests
end

/-! PROOFS. The state (10_state.md): what operations and steps keep, and the statements on invariants, observations and ownership. -/

namespace Sys2Proof.Machine

/-! ## Equations of the operations that have none yet -/

/-- TIMER takes one off the count, which is natural, so an inactive window stays at 0 (44_confirmation_filter.md R197). -/
theorem exec_timer (s : State) :
    exec .timer s = .next { s with flt := { s.flt with refrCnt := s.flt.refrCnt - 1 } } := by
  show execTimer s = _
  unfold execTimer Filter.windowActive
  by_cases hw : 0 < s.flt.refrCnt
  · simp [hw]
  · have h0 : s.flt.refrCnt - 1 = s.flt.refrCnt := by omega
    rw [h0]
    simp [hw]

/-- REGCB registers the first consumer only (44_confirmation_filter.md R198). -/
theorem exec_regcb (h : Handle) (s : State) :
    exec (.regcb h) s = .next (if s.cb.registered then s.drop .regcbIgnored else { s with cb := ⟨true, h⟩ }) := by
  show execRegcb h s = _
  unfold execRegcb
  split <;> rfl

/-- RESET: the whole next state (45_pipeline_sequencing.md R213). -/
theorem exec_reset (s : State) :
    exec .reset s = .next { s with
      raw := s.raw.clear
      pulse := s.pulse.clear
      smp := ⟨0x00#8, 0⟩
      rle := ⟨false, 0#15⟩
      dec := ⟨.seekingSync, 0, zeroCode, false, 0#15⟩
      flt := ⟨false, zeroCode, 0⟩
      cb := ⟨false, 0#24⟩ } := rfl

/-! ## Predicates kept by the updates that operations are made of

Every operation but RESET is a sequence of single-field updates. A predicate that each update keeps is kept by each operation;
the premises of `raw`, `decoder` and `filter` are what an update of that element respects. -/

/-- The ranges of the frame decoder (10_state.md R31, R49). -/
def Decoder.InRange (d : Decoder) : Prop :=
  d.bitCount ≤ frameBits ∧ (d.phase = .receivingData → d.bitCount < frameBits)

/-- Every update keeps `P`, but for those of the sampler and of PULSE, which some statements treat apart. -/
structure KeptByUpdates (P : State → Prop) : Prop where
  raw : ∀ s r, (RingLegal s.cfg.rawCap s.raw → RingLegal s.cfg.rawCap r) → P s → P { s with raw := r }
  encoder : ∀ s e, P s → P { s with rle := e }
  decoder : ∀ s d, (s.dec.InRange → d.InRange) → P s → P { s with dec := d }
  filter : ∀ s f, (s.flt.refrCnt ≤ s.cfg.refractoryTicks → f.refrCnt ≤ s.cfg.refractoryTicks) →
    (s.flt.candValid = true → f.candValid = true) → P s → P { s with flt := f }
  registration : ∀ s r, P s → P { s with cb := r }
  deliver : ∀ s h c, P s → P (s.deliver h c)
  respond : ∀ s r, P s → P (s.respond r)
  drop : ∀ s d, P s → P (s.drop d)

/-- The updates of PULSE keep `P` too: what the task agent's operations are made of. -/
structure KeptByTaskUpdates (P : State → Prop) : Prop extends KeptByUpdates P where
  pulse : ∀ s r, (RingLegal s.cfg.pulseCap s.pulse → RingLegal s.cfg.pulseCap r) → P s → P { s with pulse := r }

/-- The updates of the sampler keep `P` too, the holding of a masked tick, and the taking of the ticks of an interruption
point. -/
structure KeptBySamplerUpdates (P : State → Prop) : Prop extends KeptByUpdates P where
  sampler : ∀ s m, P s → P { s with smp := m }
  hold : ∀ s x, s.ie = false → P s → P (s.hold x)
  ticks : ∀ s xs, P s → P { s with ticks := xs }

/-- Every update keeps `P`. -/
structure KeptByAllUpdates (P : State → Prop) : Prop extends KeptByTaskUpdates P, KeptBySamplerUpdates P

section
variable {P : State → Prop} {s t : State}

/-! ### The filter and the decoder -/

theorem KeptByUpdates.fltFrame (h : KeptByUpdates P) (c : Code) (hs : P s) : P (s.fltFrame c) := by
  rcases s.fltFrame_cases c with ⟨_, e⟩ | ⟨_, _, e⟩ | ⟨_, _, _, e⟩ | ⟨_, _, _, e⟩ <;> rw [e]
  · exact h.drop _ _ (h.filter s _ id (fun _ => rfl) hs)
  · exact h.drop _ _ hs
  · exact h.deliver _ _ _ (h.filter s _ (fun _ => le_rfl) id hs)
  · exact h.drop _ _ (h.filter s _ (fun _ => le_rfl) id hs)

theorem KeptByUpdates.syncTest (h : KeptByUpdates P) (t1 t2 : Nat) (hs : P s) : P (s.syncTest t1 t2) := by
  rcases s.syncTest_cases t1 t2 with ⟨_, e⟩ | ⟨_, e⟩ <;> rw [e]
  · exact h.decoder s _ (fun _ => ⟨Nat.zero_le _, fun _ => Nat.zero_lt_succ _⟩) hs
  · exact h.drop _ _ hs

/-- A bit is tested in ReceivingData only, where the count is below 24: so the next count is at most 24. -/
theorem KeptByUpdates.bitTest (h : KeptByUpdates P) (t1 t2 : Nat) (hp : s.dec.phase = .receivingData) (hs : P s) :
    P (s.bitTest t1 t2) := by
  rcases s.bitTest_cases t1 t2 with ⟨_, e⟩ | ⟨x, _, hb, e⟩ | ⟨x, _, hb, e⟩ <;> rw [e]
  · exact h.drop _ _ (h.decoder s _ (fun hr => ⟨hr.1, nofun⟩) hs)
  · exact h.fltFrame _ (h.decoder s _ (fun _ => ⟨hb.le, nofun⟩) hs)
  · refine h.decoder s _ (fun hr => ?_) hs
    have hlt : s.dec.bitCount < frameBits := hr.2 hp
    exact ⟨hlt, fun _ => lt_of_le_of_ne hlt hb⟩

theorem KeptByUpdates.decPulse (h : KeptByUpdates P) (r : PulseRecord) (hs : P s) : P (s.decPulse r) := by
  rcases s.decPulse_cases r with ⟨_, _, e⟩ | ⟨_, _, e⟩ | ⟨_, _, e⟩ | ⟨_, _, _, e⟩ | ⟨_, _, hp, e⟩ <;> rw [e]
  · exact h.decoder s _ id hs
  · exact h.decoder (s.drop _) _ id (h.drop _ _ hs)
  · exact h.drop _ _ hs
  · exact h.syncTest _ _ (h.decoder s _ id hs)
  · exact h.bitTest _ _ hp (h.decoder s _ id hs)

/-! ### The rings, and the stages that use them -/

/-- A push updates the ring, and may note a drop. -/
theorem KeptByUpdates.rbPush (h : KeptByUpdates P) (b : RingId) (v : Byte)
    (hr : P (s.setRing b ((s.ring b).push (s.cap b) v))) : P (s.rbPush b v) := by
  rcases s.rbPush_cases b v with ⟨_, e⟩ | ⟨_, e⟩ <;> rw [e]
  · exact hr
  · exact h.drop _ _ hr

theorem KeptByUpdates.rbPush_raw (h : KeptByUpdates P) (v : Byte) (hs : P s) : P (s.rbPush .raw v) :=
  h.rbPush .raw v (h.raw s _ (Ring.push_legal v) hs)

theorem KeptByUpdates.rbPop_raw (h : KeptByUpdates P) (hs : P s) : P (s.rbPop .raw).2 :=
  h.raw s _ Ring.pop_legal hs

theorem KeptByUpdates.rbClear_raw (h : KeptByUpdates P) (hs : P s) : P (s.rbClear .raw) :=
  h.raw s _ Ring.clear_legal hs

theorem KeptByTaskUpdates.rbPush (h : KeptByTaskUpdates P) (b : RingId) (v : Byte) (hs : P s) : P (s.rbPush b v) := by
  cases b with
  | raw => exact h.rbPush_raw v hs
  | pulse => exact h.toKeptByUpdates.rbPush .pulse v (h.pulse s _ (Ring.push_legal v) hs)

theorem KeptByTaskUpdates.rbPop (h : KeptByTaskUpdates P) (b : RingId) (hs : P s) : P (s.rbPop b).2 := by
  cases b with
  | raw => exact h.rbPop_raw hs
  | pulse => exact h.pulse s _ Ring.pop_legal hs

theorem KeptByTaskUpdates.rbClear (h : KeptByTaskUpdates P) (b : RingId) (hs : P s) : P (s.rbClear b) := by
  cases b with
  | raw => exact h.rbClear_raw hs
  | pulse => exact h.pulse s _ Ring.clear_legal hs

theorem KeptByTaskUpdates.emit (h : KeptByTaskUpdates P) (r : PulseRecord) (hs : P s) : P (s.emit r) :=
  h.rbPush _ _ (h.rbPush _ _ hs)

/-- The encoder pushes to PULSE by whole records only, so it is enough that these are kept. -/
theorem KeptByUpdates.rleBit (h : KeptByUpdates P) (hemit : ∀ s r, P s → P (s.emit r)) (x : Bool) (hs : P s) :
    P (s.rleBit x) := by
  rcases s.rleBit_cases x with ⟨_, e⟩ | ⟨_, e⟩ <;> rw [e]
  · exact h.encoder s _ hs
  · exact h.encoder _ _ (hemit s _ hs)

theorem KeptByUpdates.rleStep (h : KeptByUpdates P) (hemit : ∀ s r, P s → P (s.emit r)) (hs : P s) : P s.rleStep.2 := by
  rcases s.rleStep_cases with ⟨_, e⟩ | ⟨_, e⟩ <;> rw [e]
  · exact hs
  · exact List.foldlRecOn _ _ (h.raw s _ (fun hr => ⟨nextSlot_le _ _, hr.2⟩) hs)
      fun _ ht x _ => h.rleBit hemit x ht

theorem KeptByTaskUpdates.decStep (h : KeptByTaskUpdates P) (hs : P s) : P s.decStep.2 := by
  have hpop : P ((s.rbPop .pulse).2.rbPop .pulse).2 := h.rbPop _ (h.rbPop _ hs)
  unfold State.decStep
  simp only [State.rbLen_eq]
  split
  · exact hs
  · split
    · exact h.decPulse _ hpop
    · exact hpop

/-! ### The sampler and POLL -/

theorem KeptBySamplerUpdates.sample (h : KeptBySamplerUpdates P) (x : Bool) (hs : P s) : P (s.sample x) := by
  rcases s.sample_cases x with ⟨_, e⟩ | ⟨_, e⟩ <;> rw [e]
  · exact h.sampler s _ hs
  · exact h.rbPush_raw _ (h.sampler s _ hs)

theorem KeptBySamplerUpdates.tick (h : KeptBySamplerUpdates P) (x : Bool) (hs : P s) : P (s.tick x) := by
  rcases s.tick_cases x with ⟨_, e⟩ | ⟨hi, e⟩ <;> rw [e]
  · exact h.sample x hs
  · exact h.hold s _ hi hs

theorem KeptBySamplerUpdates.interruptPoint (h : KeptBySamplerUpdates P) (hs : P s) : P s.interruptPoint := by
  rcases s.interruptPoint_cases with ⟨_, e⟩ | ⟨xs, rest, _, e⟩ <;> rw [e]
  · exact hs
  · exact List.foldlRecOn _ _ (h.ticks s rest hs) fun _ ht x _ => h.tick x ht

/-- What phase 1 and phase 2 are made of keeps `P`, so POLL does: the induction over the turns of its loops
(45_pipeline_sequencing.md R211, R212). -/
theorem State.poll_keeps (hrle : ∀ s, P s → P s.rleStep.2) (hint : ∀ s, P s → P s.interruptPoint)
    (hdec : ∀ s, P s → P s.decStep.2) (hs : P s) : P s.poll := by
  have hencode : ∀ fuel s, P s → P (State.pollEncode fuel s) := by
    intro fuel
    induction fuel with
    | zero => exact fun _ hs => hs
    | succ fuel ih =>
      intro s hs
      rw [State.pollEncode_succ]
      split
      · exact ih _ (hint _ (hrle _ hs))
      · exact hint _ (hrle _ hs)
  have hdecode : ∀ fuel s, P s → P (State.pollDecode fuel s) := by
    intro fuel
    induction fuel with
    | zero => exact fun _ hs => hs
    | succ fuel ih =>
      intro s hs
      rw [State.pollDecode_succ]
      split
      · exact ih _ (hint _ (hdec _ hs))
      · exact hdec _ hs
  exact hdecode _ _ (hencode _ _ hs)

/-! ### Operations and steps -/

theorem KeptByUpdates.timer (h : KeptByUpdates P) (hs : P s) (he : exec .timer s = .next t) : P t := by
  rw [exec_timer] at he
  cases he
  exact h.filter s _ (fun hr => (Nat.sub_le _ _).trans hr) id hs

theorem KeptByUpdates.regcb (h : KeptByUpdates P) (c : Handle) (hs : P s) (he : exec (.regcb c) s = .next t) : P t := by
  rw [exec_regcb] at he
  cases he
  split
  · exact h.drop _ _ hs
  · exact h.registration s _ hs

/-- Every operation of the task agent keeps what its updates and interruption points keep. SAMPLE and RESET are apart. -/
theorem KeptByTaskUpdates.exec {i : Instr} (h : KeptByTaskUpdates P) (hint : ∀ s, P s → P s.interruptPoint)
    (hsample : ∀ x, i = .sample x → P (s.sample x)) (hreset : i ≠ .reset) (hs : P s) (he : exec i s = .next t) : P t := by
  cases i with
  | sample x => cases he; exact hsample x rfl
  | poll => cases he; exact State.poll_keeps (fun _ => h.rleStep fun _ r => h.emit r) hint (fun _ => h.decStep) hs
  | timer => exact h.timer hs he
  | regcb c => exact h.regcb c hs he
  | reset => exact absurd rfl hreset
  | fltFrame c => cases he; exact h.fltFrame c hs
  | rbPush b v => cases he; exact h.rbPush b v hs
  | rbPop b => cases he; exact h.respond _ _ (h.rbPop b hs)
  | rbLen b => rw [exec_rbLen] at he; cases he; exact h.respond _ _ hs
  | rbClear b => cases he; exact h.rbClear b hs
  | rleBit x => cases he; exact h.rleBit (fun _ r => h.emit r) x hs
  | rleStep => cases he; exact h.rleStep (fun _ r => h.emit r) hs
  | decPulse r => cases he; exact h.decPulse r hs
  | decStep => cases he; exact h.decStep hs

theorem KeptByAllUpdates.exec {i : Instr} (h : KeptByAllUpdates P) (hreset : i ≠ .reset) (hs : P s)
    (he : exec i s = .next t) : P t :=
  h.toKeptByTaskUpdates.exec (fun _ => h.toKeptBySamplerUpdates.interruptPoint)
    (fun x _ => h.toKeptBySamplerUpdates.sample x hs) hreset hs he

/-- A step keeps what every update keeps, and beside them RESET, the schedule, the host's write of `ie` with no tick to release,
and the release of a held one (60_exceptions.md R226). -/
theorem KeptByAllUpdates.step (h : KeptByAllUpdates P)
    (hreset : ∀ s t, P s → Machine.exec .reset s = .next t → P t) (hsched : ∀ s es, P s → P { s with sched := es })
    (hie : ∀ s v, (v = false ∨ s.pendingTick = none) → P s → P { s with ie := v })
    (hrelease : ∀ s, P s → P { s with ie := true, pendingTick := none })
    (hs : P s) (he : step s = .next t) : P t := by
  rcases step_cases s he with ⟨_, rfl⟩ | ⟨v, rest, _, rfl⟩ | ⟨a, w, rest, i, _, _, _, hp⟩
  · exact hs
  · have hs' : P { s with sched := rest } := hsched s rest hs
    rcases ({ s with sched := rest } : State).setIe_cases v with ⟨_, x, _, e⟩ | ⟨hv, e⟩ <;> rw [e]
    · exact h.toKeptBySamplerUpdates.sample x (hrelease _ hs')
    · exact hie _ v hv hs'
  · have hs' : P { s with sched := rest } := hsched s rest hs
    rcases perform_cases ({ s with sched := rest } : State) a i with ⟨_, hi, e⟩ | ⟨_, e⟩ <;> rw [e] at hp
    · cases hp
      exact h.hold _ _ hi hs'
    · by_cases hr : i = .reset
      · subst hr
        exact hreset _ _ hs' hp
      · exact h.exec hr hs' hp

end

/-! ## Legal states (10_state.md R23, R49) -/

/-- Each premise of an update is the range of its element in `Legal`; a tick is held only while `ie` is 0. -/
theorem Legal.keptByAllUpdates : KeptByAllUpdates Legal where
  raw := fun _ _ hr ⟨raw, rest⟩ => ⟨hr raw, rest⟩
  pulse := fun _ _ hr ⟨raw, pulse, rest⟩ => ⟨raw, hr pulse, rest⟩
  encoder := fun _ _ hs => hs
  decoder := fun _ _ hd ⟨raw, pulse, count, phase, rest⟩ =>
    have ⟨count', phase'⟩ := hd ⟨count, phase⟩
    ⟨raw, pulse, count', phase', rest⟩
  filter := fun _ _ hf _ ⟨raw, pulse, count, phase, window, tick⟩ => ⟨raw, pulse, count, phase, hf window, tick⟩
  registration := fun _ _ hs => hs
  deliver := fun _ _ _ hs => hs
  respond := fun _ _ hs => hs
  drop := fun _ _ hs => hs
  sampler := fun _ _ hs => hs
  hold := fun _ _ hi ⟨raw, pulse, count, phase, window, _⟩ =>
    ⟨raw, pulse, count, phase, window, fun hi' => absurd (hi.symm.trans hi') Bool.false_ne_true⟩
  ticks := fun _ _ hs => hs

/-- RESET clears the cursors and keeps both memories, `ie` and a held tick. -/
theorem Legal.exec_reset {s t : State} (hs : Legal s) (he : exec .reset s = .next t) : Legal t := by
  rw [Machine.exec_reset] at he
  cases he
  obtain ⟨raw, pulse, _, _, _, tick⟩ := hs
  exact ⟨Ring.clear_legal raw, Ring.clear_legal pulse, Nat.zero_le _, nofun, Nat.zero_le _, tick⟩

/-- Settles O57: `Legal` is kept by every update; a write of `ie` keeps it because a held tick is released as `ie` becomes 1. -/
theorem everyStepKeepsTheStateLegal : Obligations.EveryStepKeepsTheStateLegal := by
  intro s t hs he
  refine Legal.keptByAllUpdates.step (fun _ _ => Legal.exec_reset) (fun _ _ hs => hs) ?_ ?_ hs he
  · rintro s v hv ⟨raw, pulse, count, phase, window, tick⟩
    refine ⟨raw, pulse, count, phase, window, fun hi => ?_⟩
    rcases hv with rfl | hnone
    · exact absurd hi Bool.false_ne_true
    · exact hnone
  · rintro s ⟨raw, pulse, count, phase, window, _⟩
    exact ⟨raw, pulse, count, phase, window, fun _ => rfl⟩

theorem State.resetWith_legal (cfg : Config) : Legal (State.resetWith cfg) :=
  have empty (cap : Nat) : RingLegal cap Ring.reset := ⟨Nat.zero_le _, Nat.zero_le _, rfl, nofun⟩
  ⟨empty _, empty _, Nat.zero_le _, nofun, Nat.zero_le _, fun _ => rfl⟩

/-- Settles O58: the reset state is legal under every configuration, and the reference one meets R8 whatever
`REFRACTORY_TICKS` is. -/
theorem resetStateIsLegal : Obligations.ResetStateIsLegal := ⟨State.resetWith_legal _, rfl⟩

theorem State.resetWith_atReset (cfg : Config) : AtReset (State.resetWith cfg) := by
  simp [AtReset, State.resetWith, Ring.reset, zeroCode]

/-- Settles O49, for the reference configuration, by the reset state of every configuration. -/
theorem resetStateHasTheResetValues : Obligations.ResetStateHasTheResetValues := ⟨State.resetWith_atReset _, rfl⟩

/-! ## The configuration and the candidate (10_state.md R39, R40) -/

theorem keptByAllUpdates_cfg (c : Config) : KeptByAllUpdates fun t => t.cfg = c where
  raw := fun _ _ _ h => h
  pulse := fun _ _ _ h => h
  encoder := fun _ _ h => h
  decoder := fun _ _ _ h => h
  filter := fun _ _ _ _ h => h
  registration := fun _ _ h => h
  deliver := fun _ _ _ h => h
  respond := fun _ _ h => h
  drop := fun _ _ h => h
  sampler := fun _ _ h => h
  hold := fun _ _ _ h => h
  ticks := fun _ _ h => h

/-- Settles O59: no update writes the configuration. -/
theorem everyStepKeepsTheConfiguration : Obligations.EveryStepKeepsTheConfiguration := by
  intro s t he
  refine (keptByAllUpdates_cfg s.cfg).step ?_ (fun _ _ h => h) (fun _ _ _ h => h) (fun _ h => h) rfl he
  intro u v hu hv
  rw [exec_reset] at hv
  cases hv
  exact hu

/-- The filter replaces its candidate and never clears it (10_state.md R39). -/
theorem keptByAllUpdates_candValid : KeptByAllUpdates fun t => t.flt.candValid = true where
  raw := fun _ _ _ h => h
  pulse := fun _ _ _ h => h
  encoder := fun _ _ h => h
  decoder := fun _ _ _ h => h
  filter := fun _ _ _ hc h => hc h
  registration := fun _ _ h => h
  deliver := fun _ _ _ h => h
  respond := fun _ _ h => h
  drop := fun _ _ h => h
  sampler := fun _ _ h => h
  hold := fun _ _ _ h => h
  ticks := fun _ _ h => h

/-- Settles O42: RESET is the only operation that is more than updates. -/
theorem candidateIsClearedOnlyByReset : Obligations.CandidateIsClearedOnlyByReset :=
  fun _ _ _ hreset hs he => keptByAllUpdates_candValid.exec hreset hs he

/-! ## Observations (10_state.md R43) -/

/-- Everything observed in `s` is still observed in `t`, in the same order and before anything else. -/
def ObservedSince (s t : State) : Prop := s.out <+: t.out ∧ s.responses <+: t.responses ∧ s.drops <+: t.drops

theorem ObservedSince.refl (s : State) : ObservedSince s s :=
  ⟨List.prefix_refl _, List.prefix_refl _, List.prefix_refl _⟩

theorem keptByAllUpdates_observedSince (s : State) : KeptByAllUpdates (ObservedSince s) where
  raw := fun _ _ _ h => h
  pulse := fun _ _ _ h => h
  encoder := fun _ _ h => h
  decoder := fun _ _ _ h => h
  filter := fun _ _ _ _ h => h
  registration := fun _ _ h => h
  deliver := fun _ _ _ ⟨out, responses, drops⟩ => ⟨out.trans (List.prefix_append _ _), responses, drops⟩
  respond := fun _ _ ⟨out, responses, drops⟩ => ⟨out, responses.trans (List.prefix_append _ _), drops⟩
  drop := fun _ _ ⟨out, responses, drops⟩ => ⟨out, responses, drops.trans (List.prefix_append _ _)⟩
  sampler := fun _ _ h => h
  hold := fun _ _ _ h => h
  ticks := fun _ _ h => h

/-- Settles O55: each update appends to the lists of observations or leaves them, and RESET leaves them. -/
theorem observationsOnlyGrow : Obligations.ObservationsOnlyGrow := by
  intro i s t he
  by_cases hreset : i = .reset
  · subst hreset
    rw [exec_reset] at he
    cases he
    exact ObservedSince.refl s
  · exact (keptByAllUpdates_observedSince s).exec hreset (ObservedSince.refl s) he

/-! ## Ownership (10_state.md R48) -/

/-- The frame of SAMPLE: it writes its own stage and RAW, and notes what RAW loses. -/
theorem State.sample_frame (s : State) (x : Bool) :
    s.sample x = { s with smp := (s.sample x).smp, raw := (s.sample x).raw, drops := (s.sample x).drops } := by
  rcases s.sample_cases x with ⟨_, e⟩ | ⟨_, e⟩ <;> rw [e]
  rcases ({ s with smp := ⟨shiftIn s.smp.acc x, 0⟩ } : State).rbPush_cases .raw (shiftIn s.smp.acc x) with
    ⟨_, e⟩ | ⟨_, e⟩ <;> rw [e] <;> rfl

/-- The updates of the task agent leave the sampler, `ie` and the ticks to come. -/
theorem keptByTaskUpdates_uninterrupted_smp (m : Sampler) : KeptByTaskUpdates fun t => Uninterrupted t ∧ t.smp = m where
  raw := fun _ _ _ h => h
  pulse := fun _ _ _ h => h
  encoder := fun _ _ h => h
  decoder := fun _ _ _ h => h
  filter := fun _ _ _ _ h => h
  registration := fun _ _ h => h
  deliver := fun _ _ _ h => h
  respond := fun _ _ h => h
  drop := fun _ _ h => h

/-- Where nothing interrupts, an interruption point leaves the sampler, and nothing interrupts afterwards either. -/
theorem State.interruptPoint_keeps_uninterrupted_smp {s : State} {m : Sampler} (h : Uninterrupted s ∧ s.smp = m) :
    Uninterrupted s.interruptPoint ∧ s.interruptPoint.smp = m := by
  obtain ⟨hticks | hie, hm⟩ := h
  · rcases s.interruptPoint_cases with ⟨_, e⟩ | ⟨xs, rest, e, _⟩
    · rw [e]
      exact ⟨.inl hticks, hm⟩
    · rw [hticks] at e
      cases e
  · rw [s.interruptPoint_of_masked hie]
    exact ⟨.inr hie, hm⟩

/-- Settles O51: SAMPLE by its frame, the task operations by what their updates leave. -/
theorem contextsOwnTheirState : Obligations.ContextsOwnTheirState := by
  refine ⟨fun x s t he => ?_, fun i s t hsample hreset hu he => ?_⟩
  · cases he
    exact s.sample_frame x
  · exact ((keptByTaskUpdates_uninterrupted_smp s.smp).exec
      (fun _ => State.interruptPoint_keeps_uninterrupted_smp)
      (fun x hx => absurd hx (hsample x)) hreset ⟨hu, rfl⟩ he).2

/-! ## Whole records in PULSE (10_state.md R49, 20_memory.md R66) -/

@[simp] theorem Ring.queue_length (cap : Nat) (r : Ring) : (r.queue cap).length = r.length cap := by
  simp [Ring.queue]

theorem Ring.clear_length (cap : Nat) (r : Ring) : r.clear.length cap = 0 := by
  simp [Ring.clear, Ring.length]

/-- A ring is full when its length is its capacity (10_state.md R23). -/
theorem Ring.isFull_iff_length {cap : Nat} {r : Ring} (hh : r.head ≤ cap) (ht : r.tail ≤ cap) :
    r.isFull cap = true ↔ r.length cap = cap := by
  rw [Ring.isFull_iff, Ring.length_eq_cap_iff hh ht]

/-- Two pushes into a ring of even capacity keep an even length: a full ring stays full, and one that is not has room for both
bytes (20_memory.md R66). -/
theorem Ring.push_push_length_even {cap : Nat} {r : Ring} (v w : Byte) (hr : RingLegal cap r) (hcap : cap % 2 = 0)
    (hlen : r.length cap % 2 = 0) : ((r.push cap v).push cap w).length cap % 2 = 0 := by
  have hr' := Ring.push_legal v hr
  have hfull := Ring.isFull_iff_length hr.1 hr.2.1
  have hfull' := Ring.isFull_iff_length hr'.1 hr'.2.1
  have hfirst := Ring.push_length v hr.1 hr.2.1
  rw [Ring.push_length w hr'.1 hr'.2.1]
  by_cases hf : r.isFull cap = true
  · have hstill : (r.push cap v).length cap = cap := by rw [hfirst, if_pos hf, hfull.mp hf]
    rw [if_pos (hfull'.mpr hstill), hstill, hcap]
  · rw [if_neg hf] at hfirst
    have hroom : ¬ (r.push cap v).isFull cap = true := fun hf' => by
      have := hfull'.mp hf'
      omega
    rw [if_neg hroom, hfirst]
    omega

/-- The head's advance takes one byte off a ring that is not empty. -/
theorem Ring.length_advance {cap : Nat} {r : Ring} (hh : r.head ≤ cap) (ht : r.tail ≤ cap) (hlen : 0 < r.length cap) :
    ({ r with head := nextSlot cap r.head } : Ring).length cap + 1 = r.length cap := by
  have hne : r.head ≠ r.tail := fun e => hlen.ne' ((Ring.length_eq_zero_iff hh ht).mpr e)
  have hpop := Ring.pop_length hh ht hne
  rcases Ring.pop_cases cap r with ⟨e, _⟩ | ⟨_, e⟩
  · exact absurd e hne
  · rwa [e] at hpop

/-- Two bytes leave a ring that holds two. -/
theorem Ring.length_advance_two {cap : Nat} {r : Ring} (hh : r.head ≤ cap) (ht : r.tail ≤ cap) (hlen : 2 ≤ r.length cap) :
    ({ r with head := nextSlot cap (nextSlot cap r.head) } : Ring).length cap + 2 = r.length cap := by
  have h1 := Ring.length_advance hh ht (by omega)
  have h2 := Ring.length_advance (r := { r with head := nextSlot cap r.head }) (nextSlot_le _ _) ht (by omega)
  simp only at h2
  omega

/-- PULSE is a legal ring of even capacity and even length. -/
def WholeRecords (s : State) : Prop :=
  RingLegal s.cfg.pulseCap s.pulse ∧ s.cfg.pulseCap % 2 = 0 ∧ s.pulse.length s.cfg.pulseCap % 2 = 0

/-- No update but those of PULSE bears on whole records. -/
theorem WholeRecords.keptBySamplerUpdates : KeptBySamplerUpdates WholeRecords where
  raw := fun _ _ _ h => h
  encoder := fun _ _ h => h
  decoder := fun _ _ _ h => h
  filter := fun _ _ _ _ h => h
  registration := fun _ _ h => h
  deliver := fun _ _ _ h => h
  respond := fun _ _ h => h
  drop := fun _ _ h => h
  sampler := fun _ _ h => h
  hold := fun _ _ _ h => h
  ticks := fun _ _ h => h

theorem State.emit_wholeRecords {s : State} (r : PulseRecord) (hs : WholeRecords s) : WholeRecords (s.emit r) := by
  obtain ⟨hr, hcap, hlen⟩ := hs
  have hpushed : WholeRecords (s.setRing .pulse
      ((s.pulse.push s.cfg.pulseCap (recordByte0 r)).push s.cfg.pulseCap (recordByte1 r))) :=
    ⟨Ring.push_legal _ (Ring.push_legal _ hr), hcap, Ring.push_push_length_even _ _ hr hcap hlen⟩
  unfold State.emit
  rcases s.rbPush_cases .pulse (recordByte0 r) with ⟨_, e⟩ | ⟨_, e⟩ <;> rw [e] <;>
    exact WholeRecords.keptBySamplerUpdates.rbPush _ _ hpushed

theorem State.decStep_wholeRecords {s : State} (hs : WholeRecords s) : WholeRecords s.decStep.2 := by
  obtain ⟨hr, hcap, hlen⟩ := hs
  rcases s.decStep_cases hr.1 hr.2.1 with ⟨_, e⟩ | ⟨h2, e⟩ <;> rw [e]
  · exact ⟨hr, hcap, hlen⟩
  · have hadv := Ring.length_advance_two hr.1 hr.2.1 h2
    exact WholeRecords.keptBySamplerUpdates.decPulse _ ⟨⟨nextSlot_le _ _, hr.2⟩, hcap, by simp only; omega⟩

theorem State.rbClear_pulse_wholeRecords {s : State} (hs : WholeRecords s) : WholeRecords (s.rbClear .pulse) := by
  obtain ⟨hr, hcap, _⟩ := hs
  exact ⟨Ring.clear_legal hr, hcap, congrArg (· % 2) (Ring.clear_length _ _)⟩

/-- The operations that push or pop single bytes of PULSE are the two excluded; the others move whole records. -/
theorem exec_wholeRecords {i : Instr} {s t : State} (hs : WholeRecords s) (hpush : ∀ v, i ≠ .rbPush .pulse v)
    (hpop : i ≠ .rbPop .pulse) (he : exec i s = .next t) : WholeRecords t := by
  have h := WholeRecords.keptBySamplerUpdates
  have hemit : ∀ s r, WholeRecords s → WholeRecords (s.emit r) := fun _ => State.emit_wholeRecords
  cases i with
  | sample x => cases he; exact h.sample x hs
  | poll =>
    cases he
    exact State.poll_keeps (fun _ => h.rleStep hemit) (fun _ => h.interruptPoint) (fun _ => State.decStep_wholeRecords) hs
  | timer => exact h.timer hs he
  | regcb c => exact h.regcb c hs he
  | reset => cases he; exact State.rbClear_pulse_wholeRecords (h.rbClear_raw hs)
  | fltFrame c => cases he; exact h.fltFrame c hs
  | rbPush b v =>
    cases b with
    | raw => cases he; exact h.rbPush_raw v hs
    | pulse => exact absurd rfl (hpush v)
  | rbPop b =>
    cases b with
    | raw => cases he; exact h.respond _ _ (h.rbPop_raw hs)
    | pulse => exact absurd rfl hpop
  | rbLen b => rw [exec_rbLen] at he; cases he; exact h.respond _ _ hs
  | rbClear b =>
    cases b with
    | raw => cases he; exact h.rbClear_raw hs
    | pulse => cases he; exact State.rbClear_pulse_wholeRecords hs
  | rleBit x => cases he; exact h.rleBit hemit x hs
  | rleStep => cases he; exact h.rleStep hemit hs
  | decPulse r => cases he; exact h.decPulse r hs
  | decStep => cases he; exact State.decStep_wholeRecords hs

/-- Settles O60: the queue is as long as the ring, whose evenness every operation but the two excluded keeps. -/
theorem pulseHoldsWholeRecords : Obligations.PulseHoldsWholeRecords := by
  intro i s t _ hr hcap hlen hpush hpop he
  have hs : WholeRecords s := ⟨hr, hcap, by simpa [State.queue] using hlen⟩
  obtain ⟨_, _, ht⟩ := exec_wholeRecords hs hpush hpop he
  simpa [State.queue] using ht

end Sys2Proof.Machine

/-! PROOFS. The memory (20_memory.md): the interrupt-enable flag, and SAMPLE before or after a task operation. -/

namespace Sys2Proof.Machine

/-! ## The interrupt-enable flag (20_memory.md R71, R73) -/

/-- Only the host writes `ie`, and that is no operation (10_state.md R37). -/
theorem keptByAllUpdates_ie (v : Bool) : KeptByAllUpdates fun t => t.ie = v where
  raw := fun _ _ _ h => h
  pulse := fun _ _ _ h => h
  encoder := fun _ _ h => h
  decoder := fun _ _ _ h => h
  filter := fun _ _ _ _ h => h
  registration := fun _ _ h => h
  deliver := fun _ _ _ h => h
  respond := fun _ _ h => h
  drop := fun _ _ h => h
  sampler := fun _ _ h => h
  hold := fun _ _ _ h => h
  ticks := fun _ _ h => h

/-- Settles O19: the critical sections restore `ie`, so operations are updates of other fields; RESET leaves it too. -/
theorem everyOperationRestoresIe : Obligations.EveryOperationRestoresIe := by
  intro i s t he
  by_cases hreset : i = .reset
  · subst hreset
    rw [exec_reset] at he
    cases he
    rfl
  · exact (keptByAllUpdates_ie s.ie).exec hreset rfl he

/-! ## What a task operation does not read: the sampler, RAW and the drops noted before

An operation that reads none of these and appends its drops commutes with replacing them. SAMPLE replaces no more than these,
so the two may come in either order, up to the order of the drops (20_memory.md R74, 60_exceptions.md R231). -/

/-- The state with another sampler and another RAW, and with the drops `ds` noted before its own. -/
def State.withSampling (s : State) (m : Sampler) (r : Ring) (ds : List DropCause) : State :=
  { s with smp := m, raw := r, drops := ds ++ s.drops }

/-- An operation that neither reads nor writes the sampler and RAW, and at most appends to the drops. -/
def IgnoresSampling (f : State → State) : Prop :=
  ∀ (s : State) (m : Sampler) (r : Ring) (ds : List DropCause), f (s.withSampling m r ds) = (f s).withSampling m r ds

section
variable (s : State) {m : Sampler} {r : Ring} {ds : List DropCause}

@[simp] theorem State.withSampling_cfg : (s.withSampling m r ds).cfg = s.cfg := rfl
@[simp] theorem State.withSampling_pulse : (s.withSampling m r ds).pulse = s.pulse := rfl
@[simp] theorem State.withSampling_dec : (s.withSampling m r ds).dec = s.dec := rfl

theorem State.drop_withSampling (d : DropCause) :
    (s.withSampling m r ds).drop d = (s.drop d).withSampling m r ds := by
  simp [State.drop, State.withSampling]

/-! ### The ring operations on PULSE, and the encoder -/

theorem State.rbPush_pulse_withSampling (v : Byte) :
    (s.withSampling m r ds).rbPush .pulse v = (s.rbPush .pulse v).withSampling m r ds := by
  rw [State.rbPush_eq, State.rbPush_eq, apply_ite (State.withSampling · m r ds), ← State.drop_withSampling]
  rfl

theorem State.rbPop_pulse_withSampling :
    (s.withSampling m r ds).rbPop .pulse = ((s.rbPop .pulse).1, (s.rbPop .pulse).2.withSampling m r ds) := rfl

theorem State.emit_withSampling (p : PulseRecord) :
    (s.withSampling m r ds).emit p = (s.emit p).withSampling m r ds := by
  unfold State.emit
  rw [State.rbPush_pulse_withSampling, State.rbPush_pulse_withSampling]

theorem State.rleBit_withSampling (x : Bool) :
    (s.withSampling m r ds).rleBit x = (s.rleBit x).withSampling m r ds := by
  unfold State.rleBit
  rw [apply_ite (State.withSampling · m r ds), State.emit_withSampling]
  rfl

theorem State.foldl_rleBit_withSampling (xs : List Bool) :
    xs.foldl State.rleBit (s.withSampling m r ds) = (xs.foldl State.rleBit s).withSampling m r ds := by
  induction xs generalizing s with
  | nil => rfl
  | cons x xs ih => rw [List.foldl_cons, List.foldl_cons, State.rleBit_withSampling, ih]

/-! ### The filter and the decoder -/

theorem State.fltFrame_withSampling (c : Code) :
    (s.withSampling m r ds).fltFrame c = (s.fltFrame c).withSampling m r ds := by
  simp only [State.fltFrame, apply_ite (State.withSampling · m r ds), ← State.drop_withSampling]
  rfl

theorem State.syncTest_withSampling (t1 t2 : Nat) :
    (s.withSampling m r ds).syncTest t1 t2 = (s.syncTest t1 t2).withSampling m r ds := by
  simp only [State.syncTest, apply_ite (State.withSampling · m r ds), ← State.drop_withSampling]
  rfl

theorem State.bitTest_withSampling (t1 t2 : Nat) :
    (s.withSampling m r ds).bitTest t1 t2 = (s.bitTest t1 t2).withSampling m r ds := by
  unfold State.bitTest
  rw [State.withSampling_cfg]
  cases classify s.cfg t1 t2 with
  | none => exact State.drop_withSampling { s with dec := { s.dec with phase := .seekingSync } } _
  | some x =>
    simp only [apply_ite (State.withSampling · m r ds), ← State.fltFrame_withSampling]
    rfl

theorem State.decPulse_withSampling (p : PulseRecord) :
    (s.withSampling m r ds).decPulse p = (s.decPulse p).withSampling m r ds := by
  unfold State.decPulse
  rw [State.withSampling_dec]
  cases p.level <;> cases s.dec.t1Valid
  case false.false => exact s.drop_withSampling .lowSkipped
  case false.true =>
    cases s.dec.phase with
    | seekingSync => exact State.syncTest_withSampling { s with dec := { s.dec with t1Valid := false } } _ _
    | receivingData => exact State.bitTest_withSampling { s with dec := { s.dec with t1Valid := false } } _ _
  case true.false => rfl
  case true.true =>
    simp only [if_true, State.drop_withSampling]
    rfl

theorem State.decStep_withSampling :
    (s.withSampling m r ds).decStep = (s.decStep.1, s.decStep.2.withSampling m r ds) := by
  unfold State.decStep
  simp only [State.rbLen_eq, State.rbPop_pulse_withSampling, State.ring_pulse, State.cap_pulse, State.withSampling_pulse,
    State.withSampling_cfg]
  by_cases hlen : s.pulse.length s.cfg.pulseCap < 2
  · simp only [if_pos hlen]
  · simp only [if_neg hlen]
    cases (s.rbPop .pulse).1 with
    | none => rfl
    | some b0 =>
      cases ((s.rbPop .pulse).2.rbPop .pulse).1 with
      | none => rfl
      | some b1 => exact congrArg (Prod.mk true) (State.decPulse_withSampling _ _)

end

/-! ## SAMPLE and an operation that ignores sampling -/

/-- SAMPLE replaces the sampler and RAW and appends to the drops, and what it does is settled by the sampler, RAW and the
configuration (41_pulse_sampler.md R141). -/
theorem State.sample_effect (s : State) (y : Bool) : ∃ m r ds, ∀ t : State,
    t.cfg = s.cfg → t.smp = s.smp → t.raw = s.raw →
    t.sample y = { t with smp := m, raw := r, drops := t.drops ++ ds } := by
  by_cases hcnt : s.smp.cnt = 7
  · refine ⟨⟨shiftIn s.smp.acc y, 0⟩, s.raw.push s.cfg.rawCap (shiftIn s.smp.acc y),
      if s.raw.isFull s.cfg.rawCap then [.rawOverflow] else [], fun t hcfg hsmp hraw => ?_⟩
    rw [← hcfg, ← hsmp, ← hraw]
    rw [← hsmp] at hcnt
    rcases t.sample_cases y with ⟨h, _⟩ | ⟨_, e⟩
    · exact absurd hcnt h
    · rw [e, State.rbPush_eq]
      cases hfull : t.raw.isFull t.cfg.rawCap <;> simp [hfull, State.setRing, State.drop, overflowCause]
  · refine ⟨⟨shiftIn s.smp.acc y, s.smp.cnt + 1⟩, s.raw, [], fun t hcfg hsmp hraw => ?_⟩
    rw [← hsmp, ← hraw]
    rw [← hsmp] at hcnt
    rcases t.sample_cases y with ⟨_, e⟩ | ⟨h, _⟩
    · rw [e, List.append_nil]
    · exact absurd h hcnt

/-- An operation that ignores sampling notes the same drops, and leaves everything else the same, whatever the sampler, RAW and
the drops before it are. -/
theorem IgnoresSampling.eq_of_sampling {f : State → State} (hf : IgnoresSampling f) (s : State) :
    ∃ noted, ∀ m r ds, f { s with smp := m, raw := r, drops := ds } =
      { f s with smp := m, raw := r, drops := ds ++ noted } := by
  have happly (m : Sampler) (r : Ring) (ds : List DropCause) :
      f { s with smp := m, raw := r, drops := ds } = (f { s with drops := [] }).withSampling m r ds := by
    rw [← hf, State.withSampling, List.append_nil]
  have hself : f s = (f { s with drops := [] }).withSampling s.smp s.raw s.drops := happly s.smp s.raw s.drops
  exact ⟨(f { s with drops := [] }).drops, fun m r ds => by rw [happly, hself]; rfl⟩

/-- The drops of a SAMPLE and those of an operation that ignores sampling change places; everything else is equal. -/
theorem IgnoresSampling.sample_comm {f : State → State} (hf : IgnoresSampling f) {s : State} (hcfg : (f s).cfg = s.cfg)
    (y : Bool) : SameButDropOrder (f (s.sample y)) ((f s).sample y) := by
  obtain ⟨m, r, ds, hsample⟩ := s.sample_effect y
  obtain ⟨noted, hf⟩ := hf.eq_of_sampling s
  have hfs : f s = { f s with smp := s.smp, raw := s.raw, drops := s.drops ++ noted } := hf s.smp s.raw s.drops
  have hsmp : (f s).smp = s.smp := by rw [hfs]
  have hraw : (f s).raw = s.raw := by rw [hfs]
  have hdrops : (f s).drops = s.drops ++ noted := by rw [hfs]
  rw [hsample s rfl rfl rfl, hsample (f s) hcfg hsmp hraw, hf, hdrops]
  refine ⟨rfl, ?_⟩
  show (s.drops ++ ds ++ noted).Perm (s.drops ++ noted ++ ds)
  rw [List.append_assoc, List.append_assoc]
  exact List.perm_append_comm.append_left s.drops

/-- No operation writes the configuration (10_state.md R40). -/
theorem exec_cfg {i : Instr} {s t : State} (he : exec i s = .next t) : t.cfg = s.cfg := by
  by_cases hreset : i = .reset
  · subst hreset
    rw [exec_reset] at he
    cases he
    rfl
  · exact (keptByAllUpdates_cfg s.cfg).exec hreset rfl he

/-- The two orders of a SAMPLE and an operation, as runs. -/
theorem run_sample_comm {i : Instr} {f : State → State} {y : Bool} {s : State} (hexec : ∀ s, exec i s = .next (f s))
    (hcomm : SameButDropOrder (f (s.sample y)) ((f s).sample y)) :
    ∃ t u, run [.sample y, i] s = .next t ∧ run [i, .sample y] s = .next u ∧ SameButDropOrder t u := by
  refine ⟨f (s.sample y), (f s).sample y, ?_, ?_, hcomm⟩
  · rw [run_cons_of_next (exec_sample s y), run_cons_of_next (hexec _), run_nil]
  · rw [run_cons_of_next (hexec s), run_cons_of_next (exec_sample _ y), run_nil]

theorem IgnoresSampling.run_sample_comm {i : Instr} {f : State → State} (hf : IgnoresSampling f)
    (hexec : ∀ s, exec i s = .next (f s)) (y : Bool) (s : State) :
    ∃ t u, run [.sample y, i] s = .next t ∧ run [i, .sample y] s = .next u ∧ SameButDropOrder t u :=
  Machine.run_sample_comm hexec (hf.sample_comm (exec_cfg (hexec s)) y)

/-! ## SAMPLE and RLE.STEP (60_exceptions.md R231) -/

/-- A pop leaves room for a byte in a ring that has one to give. -/
theorem Ring.pop_isFull {cap : Nat} {r : Ring} (hr : RingLegal cap r) (hempty : r.head ≠ r.tail) :
    (r.pop cap).2.isFull cap = false := by
  obtain ⟨hh', ht', _⟩ := Ring.pop_legal hr
  obtain ⟨hh, ht, _⟩ := hr
  have hlen := Ring.pop_length hh ht hempty
  have hle := Ring.length_le cap r
  refine Bool.eq_false_iff.mpr fun hfull => ?_
  have := (Ring.isFull_iff_length hh' ht').mp hfull
  omega

/-- On a ring neither empty nor full a push and a pop are at different slots and may come in either order (10_state.md R23). -/
theorem Ring.pop_push_comm {cap : Nat} {r : Ring} (v : Byte) (hr : RingLegal cap r) (hempty : r.head ≠ r.tail)
    (hfull : r.isFull cap = false) : (r.push cap v).pop cap = ((r.pop cap).1, (r.pop cap).2.push cap v) := by
  have hroom := Ring.pop_isFull hr hempty
  obtain ⟨hh, ht, hmem, _⟩ := hr
  have hread : (r.mem.write r.tail v).read r.head = r.mem.read r.head := Memory.read_write_other v hmem hempty
  have hpush : r.push cap v = ⟨r.mem.write r.tail v, r.head, nextSlot cap r.tail⟩ := by
    simp [Ring.push, hfull, slotOf_eq ht]
  have hpushed : r.head ≠ nextSlot cap r.tail := fun e => by
    rw [(Ring.isFull_iff cap r).mpr e.symm] at hfull
    cases hfull
  rcases Ring.pop_cases cap r with ⟨e, _⟩ | ⟨_, hpop⟩
  · exact absurd e hempty
  rcases Ring.pop_cases cap (r.push cap v) with ⟨e, _⟩ | ⟨_, hpop'⟩
  · rw [hpush] at e
    exact absurd e hpushed
  rw [hpop] at hroom
  rw [hpop', hpop, hpush]
  simp [Ring.push, hroom, slotOf_eq hh, slotOf_eq ht, hread]

/-- SAMPLE where RAW has room: nothing is dropped (41_pulse_sampler.md R141). -/
theorem State.sample_of_not_full {s : State} (y : Bool) (hfull : s.raw.isFull s.cfg.rawCap = false) :
    s.sample y = { s with
      smp := ⟨shiftIn s.smp.acc y, s.smp.cnt + 1⟩
      raw := if s.smp.cnt = 7 then s.raw.push s.cfg.rawCap (shiftIn s.smp.acc y) else s.raw } := by
  rcases s.sample_cases y with ⟨hcnt, e⟩ | ⟨hcnt, e⟩ <;> rw [e]
  · rw [if_neg hcnt]
  · simp [State.rbPush_eq, hfull, hcnt, State.setRing]

/-- SAMPLE and the pop of a byte of RAW, while RAW is neither empty nor full. -/
theorem State.rbPop_raw_sample_comm {s : State} (y : Bool) (hr : RingLegal s.cfg.rawCap s.raw)
    (hempty : s.raw.head ≠ s.raw.tail) (hfull : s.raw.isFull s.cfg.rawCap = false) :
    (s.sample y).rbPop .raw = ((s.rbPop .raw).1, (s.rbPop .raw).2.sample y) := by
  have hroom := Ring.pop_isFull hr hempty
  rw [State.rbPop_eq s, State.sample_of_not_full y hfull, State.sample_of_not_full y hroom, State.rbPop_eq]
  by_cases hcnt : s.smp.cnt = 7
  · simp [hcnt, Ring.pop_push_comm _ hr hempty hfull, State.setRing]
  · simp [hcnt, State.setRing]

theorem ignoresSampling_foldl_rleBit (xs : List Bool) : IgnoresSampling fun s => xs.foldl State.rleBit s :=
  fun s _ _ _ => s.foldl_rleBit_withSampling xs

/-- RLE.STEP once its pop has answered a byte (42_run_length_encoder.md R154). -/
theorem State.rleStep_of_pop {s t : State} {v : Byte} (h : s.rbPop .raw = (some v, t)) :
    s.rleStep = (true, (samplesOf v).foldl State.rleBit t) := by
  rw [State.rleStep, h]

/-- The pop answers the same byte before and after the SAMPLE, and what RLE.STEP does next ignores sampling. -/
theorem State.rleStep_sample_comm {s : State} (y : Bool) (hr : RingLegal s.cfg.rawCap s.raw)
    (hempty : s.raw.head ≠ s.raw.tail) (hfull : s.raw.isFull s.cfg.rawCap = false) :
    SameButDropOrder (s.sample y).rleStep.2 (s.rleStep.2.sample y) := by
  have hswap := State.rbPop_raw_sample_comm y hr hempty hfull
  rcases s.rbPop_cases .raw with ⟨h, _⟩ | ⟨_, hpop⟩
  · exact absurd h hempty
  have hcfg := exec_cfg (exec_rleStep s)
  rw [hpop] at hswap
  rw [State.rleStep_of_pop hpop] at hcfg ⊢
  rw [State.rleStep_of_pop hswap]
  exact (ignoresSampling_foldl_rleBit _).sample_comm hcfg y

/-! ## The task operations without a RAW operation -/

theorem ignoresSampling_timer : IgnoresSampling fun s => { s with flt := { s.flt with refrCnt := s.flt.refrCnt - 1 } } :=
  fun _ _ _ _ => rfl

theorem ignoresSampling_regcb (h : Handle) :
    IgnoresSampling fun s => if s.cb.registered then s.drop .regcbIgnored else { s with cb := ⟨true, h⟩ } := by
  intro s m r ds
  rw [apply_ite (State.withSampling · m r ds), ← State.drop_withSampling]
  rfl

/-- Settles O50: an operation without a RAW operation ignores sampling, and RLE.STEP does once its pop is done. -/
theorem sampleCommutesWithTaskOperations : Obligations.SampleCommutesWithTaskOperations := by
  intro y i s hi
  rcases hi with ⟨x, rfl⟩ | ⟨p, rfl⟩ | rfl | ⟨c, rfl⟩ | rfl | ⟨h, rfl⟩ | ⟨v, rfl⟩ | rfl | rfl | rfl |
    ⟨rfl, hr, hempty, hfull⟩
  · exact IgnoresSampling.run_sample_comm (fun s _ _ _ => s.rleBit_withSampling x) (exec_rleBit · x) y s
  · exact IgnoresSampling.run_sample_comm (fun s _ _ _ => s.decPulse_withSampling p) (exec_decPulse · p) y s
  · exact IgnoresSampling.run_sample_comm (fun s _ _ _ => congrArg Prod.snd s.decStep_withSampling) exec_decStep y s
  · exact IgnoresSampling.run_sample_comm (fun s _ _ _ => s.fltFrame_withSampling c) (exec_fltFrame · c) y s
  · exact ignoresSampling_timer.run_sample_comm exec_timer y s
  · exact (ignoresSampling_regcb h).run_sample_comm (exec_regcb h) y s
  · exact IgnoresSampling.run_sample_comm (fun s _ _ _ => s.rbPush_pulse_withSampling v) (exec_rbPush · .pulse v) y s
  · exact IgnoresSampling.run_sample_comm (fun _ _ _ _ => rfl) (exec_rbPop · .pulse) y s
  · exact IgnoresSampling.run_sample_comm (fun _ _ _ _ => rfl) (exec_rbLen · .pulse) y s
  · exact IgnoresSampling.run_sample_comm (fun _ _ _ _ => rfl) (exec_rbClear · .pulse) y s
  · exact run_sample_comm exec_rleStep (State.rleStep_sample_comm y hr hempty (by simpa [Ring.isFull, nextSlot] using hfull))

end Sys2Proof.Machine

/-! PROOFS. The encodings (30_encoding.md): the command word, its decoder, its encoder and the operation map. -/

namespace Sys2Proof

/-! ## A word is its three fields (30_encoding.md R95) -/

theorem assemble_fields (w : Word) : assemble (opField w) (selField w) (immField w) = w := by
  have hhigh : opField w ++ selField w = w.extractLsb' 24 8 := BitVec.extractLsb'_append_extractLsb'_eq_extractLsb' rfl
  unfold assemble
  rw [hhigh]
  exact BitVec.extractLsb'_append_extractLsb'

theorem assemble_inj {op op' sel sel' : BitVec 4} {imm imm' : BitVec 24} :
    assemble op sel imm = assemble op' sel' imm' ↔ op = op' ∧ sel = sel' ∧ imm = imm' := by
  constructor
  · intro h
    have hop := congrArg opField h
    have hsel := congrArg selField h
    have himm := congrArg immField h
    simp only [opField_assemble, selField_assemble, immField_assemble] at hop hsel himm
    exact ⟨hop, hsel, himm⟩
  · rintro ⟨rfl, rfl, rfl⟩
    rfl

/-! ## The operands and their bits (30_encoding.md R92, R94, R98) -/

@[simp] theorem RingId.ofSel_toSel (b : RingId) : RingId.ofSel b.toSel = b := by
  cases b <;> rfl

theorem RingId.toSel_ofSel {sel : BitVec 4} (h : sel.extractLsb' 1 3 = 0#3) : (RingId.ofSel sel).toSel = sel := by
  revert sel
  decide

@[simp] theorem Code.ofC24_toC24 (c : Code) : Code.ofC24 c.toC24 = c := by
  have hmid : (c.c0 ++ c.c1 ++ c.c2).extractLsb' 8 8 = c.c1 := by
    rw [BitVec.extractLsb'_append_eq_of_le le_rfl]
    exact BitVec.extractLsb'_append_eq_right
  have hhigh : (c.c0 ++ c.c1 ++ c.c2).extractLsb' 16 8 = c.c0 := by
    rw [BitVec.extractLsb'_append_eq_of_le (by omega)]
    exact BitVec.extractLsb'_append_eq_left
  have hlow : (c.c0 ++ c.c1 ++ c.c2).extractLsb' 0 8 = c.c2 := BitVec.extractLsb'_append_eq_right
  simp only [Code.ofC24, Code.toC24, hmid, hhigh, hlow]

@[simp] theorem Code.toC24_ofC24 (w : BitVec 24) : (Code.ofC24 w).toC24 = w := by
  have hhigh : w.extractLsb' 16 8 ++ w.extractLsb' 8 8 = w.extractLsb' 8 16 :=
    BitVec.extractLsb'_append_extractLsb'_eq_extractLsb' rfl
  simp only [Code.toC24, Code.ofC24, hhigh]
  exact BitVec.extractLsb'_append_extractLsb'

@[simp] theorem PulseRecord.ofRec_toRec (r : PulseRecord) : PulseRecord.ofRec r.toRec = r := by
  have hlevel : r.toRec.getLsbD 15 = r.level := by
    rw [PulseRecord.toRec, BitVec.getLsbD_append]
    simp
  have hduration : r.toRec.extractLsb' 0 15 = r.duration := BitVec.extractLsb'_append_eq_right
  rw [PulseRecord.ofRec, hlevel, hduration]

theorem extractLsb'_one {n : Nat} (x : BitVec n) (k : Nat) : x.extractLsb' k 1 = BitVec.ofBool (x.getLsbD k) := by
  ext i hi
  simp [show i = 0 by omega]

@[simp] theorem PulseRecord.toRec_ofRec (w : BitVec 16) : (PulseRecord.ofRec w).toRec = w := by
  simp only [PulseRecord.toRec, PulseRecord.ofRec, ← extractLsb'_one]
  exact BitVec.extractLsb'_append_extractLsb'

@[simp] theorem immOfBit_getElem_zero (x : Bool) : (immOfBit x)[0] = x := by
  cases x <;> rfl

@[simp] theorem immOfBit_upper (x : Bool) : (immOfBit x).extractLsb' 1 23 = 0#23 := BitVec.extractLsb'_append_eq_left

@[simp] theorem immOfByte_upper (v : Byte) : (0#16 ++ v : BitVec 24).extractLsb' 8 16 = 0#16 :=
  BitVec.extractLsb'_append_eq_left

@[simp] theorem immOfByte_lower (v : Byte) : (0#16 ++ v : BitVec 24).extractLsb' 0 8 = v :=
  BitVec.extractLsb'_append_eq_right

@[simp] theorem immOfRec_upper (r : BitVec 16) : (0#8 ++ r : BitVec 24).extractLsb' 16 8 = 0#8 :=
  BitVec.extractLsb'_append_eq_left

@[simp] theorem immOfRec_lower (r : BitVec 16) : (0#8 ++ r : BitVec 24).extractLsb' 0 16 = r :=
  BitVec.extractLsb'_append_eq_right

/-- Zero bits above the operand: the vector is the operand, extended. -/
theorem zero_append_of_extractLsb' {m n : Nat} {x : BitVec (m + n)} (h : x.extractLsb' n m = 0#m) :
    0#m ++ x.extractLsb' 0 n = x := by
  rw [← h]
  exact BitVec.extractLsb'_append_extractLsb'

theorem immOfBit_getLsbD {imm : BitVec 24} (h : imm.extractLsb' 1 23 = 0#23) : immOfBit (imm.getLsbD 0) = imm := by
  unfold immOfBit
  rw [← extractLsb'_one]
  exact zero_append_of_extractLsb' h

/-! ## The formats: an operation's word has its format's zero bits, and a word with them is an operation's word (R96) -/

section
variable {op : BitVec 4} {w : Word}

theorem formatZ_assemble : formatZ (assemble op 0#4 0#24) = true := by
  simp [formatZ]

theorem formatC_assemble (imm : BitVec 24) : formatC (assemble op 0#4 imm) = true := by
  simp [formatC]

theorem formatS_assemble (x : Bool) : formatS (assemble op 0#4 (immOfBit x)) = true := by
  simp [formatS]

theorem formatP_assemble (r : BitVec 16) : formatP (assemble op 0#4 (0#8 ++ r)) = true := by
  simp [formatP]

theorem formatB_assemble (b : RingId) : formatB (assemble op b.toSel 0#24) = true := by
  cases b <;> simp [formatB, RingId.toSel]

theorem formatBD_assemble (b : RingId) (v : Byte) : formatBD (assemble op b.toSel (0#16 ++ v)) = true := by
  cases b <;> simp [formatBD, RingId.toSel]

theorem assemble_of_formatZ (hop : opField w = op) (hf : formatZ w = true) : assemble op 0#4 0#24 = w := by
  simp only [formatZ, Bool.and_eq_true, beq_iff_eq] at hf
  obtain ⟨hsel, himm⟩ := hf
  rw [← hop, ← hsel, ← himm, assemble_fields]

theorem assemble_of_formatC (hop : opField w = op) (hf : formatC w = true) : assemble op 0#4 (immField w) = w := by
  simp only [formatC, beq_iff_eq] at hf
  rw [← hop, ← hf, assemble_fields]

theorem assemble_of_formatS (hop : opField w = op) (hf : formatS w = true) :
    assemble op 0#4 (immOfBit ((immField w).getLsbD 0)) = w := by
  simp only [formatS, Bool.and_eq_true, beq_iff_eq] at hf
  obtain ⟨hsel, himm⟩ := hf
  rw [immOfBit_getLsbD himm, ← hop, ← hsel, assemble_fields]

theorem assemble_of_formatP (hop : opField w = op) (hf : formatP w = true) :
    assemble op 0#4 (0#8 ++ (immField w).extractLsb' 0 16) = w := by
  simp only [formatP, Bool.and_eq_true, beq_iff_eq] at hf
  obtain ⟨hsel, himm⟩ := hf
  rw [zero_append_of_extractLsb' himm, ← hop, ← hsel, assemble_fields]

theorem assemble_of_formatB (hop : opField w = op) (hf : formatB w = true) :
    assemble op (RingId.ofSel (selField w)).toSel 0#24 = w := by
  simp only [formatB, Bool.and_eq_true, beq_iff_eq] at hf
  obtain ⟨hsel, himm⟩ := hf
  rw [RingId.toSel_ofSel hsel, ← hop, ← himm, assemble_fields]

theorem assemble_of_formatBD (hop : opField w = op) (hf : formatBD w = true) :
    assemble op (RingId.ofSel (selField w)).toSel (0#16 ++ (immField w).extractLsb' 0 8) = w := by
  simp only [formatBD, Bool.and_eq_true, beq_iff_eq] at hf
  obtain ⟨hsel, himm⟩ := hf
  rw [RingId.toSel_ofSel hsel, zero_append_of_extractLsb' himm, ← hop, assemble_fields]

theorem encode_fltFrame_of_formatC (hop : opField w = 0x6#4) (hf : formatC w = true) :
    encode (.fltFrame (Code.ofC24 (immField w))) = w := by
  rw [encode, Code.toC24_ofC24, assemble_of_formatC hop hf]

theorem encode_decPulse_of_formatP (hop : opField w = 0xE#4) (hf : formatP w = true) :
    encode (.decPulse (PulseRecord.ofRec ((immField w).extractLsb' 0 16))) = w := by
  rw [encode, PulseRecord.toRec_ofRec, assemble_of_formatP hop hf]

end

/-! ## The round trips (30_encoding.md R99, R106) -/

theorem decodeRow_eq_ok_iff {w : Word} {format : Bool} {i j : Instr} :
    decodeRow w format i = .ok j ↔ format = true ∧ i = j := by
  cases format <;> simp [decodeRow]

/-- Settles O1: a command word has the zero bits of its row's format, and each operand is read where it was written. -/
theorem decodeOfEncodeIsTheOperation : Obligations.DecodeOfEncodeIsTheOperation := by
  intro i
  cases i with
  | sample x => simp [encode, decode, decodeRow_eq_ok_iff, formatS_assemble]
  | poll => simp [encode, decode, decodeRow_eq_ok_iff, formatZ_assemble]
  | timer => simp [encode, decode, decodeRow_eq_ok_iff, formatZ_assemble]
  | regcb h => simp [encode, decode, decodeRow_eq_ok_iff, formatC_assemble]
  | reset => simp [encode, decode, decodeRow_eq_ok_iff, formatZ_assemble]
  | fltFrame c => simp [encode, decode, decodeRow_eq_ok_iff, formatC_assemble]
  | rbPush b v => simp [encode, decode, decodeRow_eq_ok_iff, formatBD_assemble]
  | rbPop b => simp [encode, decode, decodeRow_eq_ok_iff, formatB_assemble]
  | rbLen b => simp [encode, decode, decodeRow_eq_ok_iff, formatB_assemble]
  | rbClear b => simp [encode, decode, decodeRow_eq_ok_iff, formatB_assemble]
  | rleBit x => simp [encode, decode, decodeRow_eq_ok_iff, formatS_assemble]
  | rleStep => simp [encode, decode, decodeRow_eq_ok_iff, formatZ_assemble]
  | decPulse r => simp [encode, decode, decodeRow_eq_ok_iff, formatP_assemble]
  | decStep => simp [encode, decode, decodeRow_eq_ok_iff, formatZ_assemble]

/-- Settles O2: a word that decodes has the zero bits of the format of its `op`. -/
theorem encodeOfDecodeIsTheWord : Obligations.EncodeOfDecodeIsTheWord := by
  intro w i h
  unfold decode at h
  split at h
  case h_15 => cases h
  all_goals
    rename_i hop
    obtain ⟨hf, rfl⟩ := decodeRow_eq_ok_iff.mp h
  · exact (assemble_of_formatS (BitVec.eq_of_toNat_eq hop) hf : encode (.sample _) = w)
  · exact (assemble_of_formatZ (BitVec.eq_of_toNat_eq hop) hf : encode (.poll) = w)
  · exact (assemble_of_formatZ (BitVec.eq_of_toNat_eq hop) hf : encode (.timer) = w)
  · exact (assemble_of_formatC (BitVec.eq_of_toNat_eq hop) hf : encode (.regcb _) = w)
  · exact (assemble_of_formatZ (BitVec.eq_of_toNat_eq hop) hf : encode (.reset) = w)
  · exact encode_fltFrame_of_formatC (BitVec.eq_of_toNat_eq hop) hf
  · exact (assemble_of_formatBD (BitVec.eq_of_toNat_eq hop) hf : encode (.rbPush _ _) = w)
  · exact (assemble_of_formatB (BitVec.eq_of_toNat_eq hop) hf : encode (.rbPop _) = w)
  · exact (assemble_of_formatB (BitVec.eq_of_toNat_eq hop) hf : encode (.rbLen _) = w)
  · exact (assemble_of_formatB (BitVec.eq_of_toNat_eq hop) hf : encode (.rbClear _) = w)
  · exact (assemble_of_formatS (BitVec.eq_of_toNat_eq hop) hf : encode (.rleBit _) = w)
  · exact (assemble_of_formatZ (BitVec.eq_of_toNat_eq hop) hf : encode (.rleStep) = w)
  · exact encode_decPulse_of_formatP (BitVec.eq_of_toNat_eq hop) hf
  · exact (assemble_of_formatZ (BitVec.eq_of_toNat_eq hop) hf : encode (.decStep) = w)

/-! ## The operation map (30_encoding.md R97) -/

/-- The row of an operation number: all four bits of `op` are matched, and these bits of `sel` and `imm` must be zero. -/
def zeroBitsRow (op sel : BitVec 4) (imm : BitVec 24) : OpcodeRow := ⟨assemble op 0#4 0#24, assemble 0xF#4 sel imm⟩

theorem zeroBitsRow_selects_iff {op sel : BitVec 4} {imm : BitVec 24} {w : Word} :
    (zeroBitsRow op sel imm).selects w = true ↔ opField w = op ∧ selField w &&& sel = 0#4 ∧ immField w &&& imm = 0#24 := by
  unfold OpcodeRow.selects zeroBitsRow
  rw [beq_iff_eq]
  nth_rw 1 [← assemble_fields w]
  rw [assemble_and, assemble_inj, and_full]

theorem opcodeTable_eq : opcodeTable =
    [zeroBitsRow 0x1#4 0xF#4 0xFFFFFE#24, zeroBitsRow 0x2#4 0xF#4 0xFFFFFF#24, zeroBitsRow 0x3#4 0xF#4 0xFFFFFF#24,
     zeroBitsRow 0x4#4 0xF#4 0x000000#24, zeroBitsRow 0x5#4 0xF#4 0xFFFFFF#24, zeroBitsRow 0x6#4 0xF#4 0x000000#24,
     zeroBitsRow 0x8#4 0xE#4 0xFFFF00#24, zeroBitsRow 0x9#4 0xE#4 0xFFFFFF#24, zeroBitsRow 0xA#4 0xE#4 0xFFFFFF#24,
     zeroBitsRow 0xB#4 0xE#4 0xFFFFFF#24, zeroBitsRow 0xC#4 0xF#4 0xFFFFFE#24, zeroBitsRow 0xD#4 0xF#4 0xFFFFFF#24,
     zeroBitsRow 0xE#4 0xF#4 0xFF0000#24, zeroBitsRow 0xF#4 0xF#4 0xFFFFFF#24] := by
  decide

/-! ### The must-be-zero masks of the rows, field by field (30_encoding.md R96) -/

/-- A mask of the upper bits leaves zero iff these bits are zero. -/
theorem and_upper_eq_zero_iff {m n : Nat} (x : BitVec (m + n)) :
    x &&& (BitVec.allOnes m ++ 0#n) = 0#(m + n) ↔ x.extractLsb' n m = 0#m := by
  have hx : x &&& (BitVec.allOnes m ++ 0#n) = x.extractLsb' n m ++ 0#n := by
    nth_rw 1 [← BitVec.extractLsb'_append_extractLsb' (x := x)]
    rw [BitVec.and_append, BitVec.and_allOnes, BitVec.and_zero]
  rw [hx]
  constructor
  · intro h
    rw [← BitVec.extractLsb'_append_eq_left (a := x.extractLsb' n m) (b := 0#n), h, BitVec.extractLsb'_zero]
  · intro h
    rw [h]
    simp

theorem imm_and_maskZ (imm : BitVec 24) : imm &&& 0xFFFFFF#24 = imm := BitVec.and_allOnes
theorem imm_and_maskS_eq_zero_iff (imm : BitVec 24) : imm &&& 0xFFFFFE#24 = 0#24 ↔ imm.extractLsb' 1 23 = 0#23 :=
  and_upper_eq_zero_iff (m := 23) (n := 1) imm
theorem imm_and_maskBD_eq_zero_iff (imm : BitVec 24) : imm &&& 0xFFFF00#24 = 0#24 ↔ imm.extractLsb' 8 16 = 0#16 :=
  and_upper_eq_zero_iff (m := 16) (n := 8) imm
theorem imm_and_maskP_eq_zero_iff (imm : BitVec 24) : imm &&& 0xFF0000#24 = 0#24 ↔ imm.extractLsb' 16 8 = 0#8 :=
  and_upper_eq_zero_iff (m := 8) (n := 16) imm
theorem sel_and_mask_eq_zero_iff (sel : BitVec 4) : sel &&& 0xE#4 = 0#4 ↔ sel.extractLsb' 1 3 = 0#3 :=
  and_upper_eq_zero_iff (m := 3) (n := 1) sel

/-! ### Selecting a row is having its number and its format's zero bits -/

section
variable {op : BitVec 4} {w : Word}

theorem selects_formatZ_iff :
    (zeroBitsRow op 0xF#4 0xFFFFFF#24).selects w = true ↔ opField w = op ∧ formatZ w = true := by
  simp [zeroBitsRow_selects_iff, and_full, imm_and_maskZ, formatZ]

theorem selects_formatC_iff :
    (zeroBitsRow op 0xF#4 0x000000#24).selects w = true ↔ opField w = op ∧ formatC w = true := by
  simp [zeroBitsRow_selects_iff, and_full, formatC]

theorem selects_formatS_iff :
    (zeroBitsRow op 0xF#4 0xFFFFFE#24).selects w = true ↔ opField w = op ∧ formatS w = true := by
  simp [zeroBitsRow_selects_iff, and_full, imm_and_maskS_eq_zero_iff, formatS]

theorem selects_formatP_iff :
    (zeroBitsRow op 0xF#4 0xFF0000#24).selects w = true ↔ opField w = op ∧ formatP w = true := by
  simp [zeroBitsRow_selects_iff, and_full, imm_and_maskP_eq_zero_iff, formatP]

theorem selects_formatB_iff :
    (zeroBitsRow op 0xE#4 0xFFFFFF#24).selects w = true ↔ opField w = op ∧ formatB w = true := by
  simp [zeroBitsRow_selects_iff, sel_and_mask_eq_zero_iff, imm_and_maskZ, formatB]

theorem selects_formatBD_iff :
    (zeroBitsRow op 0xE#4 0xFFFF00#24).selects w = true ↔ opField w = op ∧ formatBD w = true := by
  simp [zeroBitsRow_selects_iff, sel_and_mask_eq_zero_iff, imm_and_maskBD_eq_zero_iff, formatBD]

end

/-! ### The rows of the operations -/

theorem opcodeRow_mem (i : Instr) : opcodeRow i ∈ opcodeTable := by
  cases i <;> simp [opcodeRow, opcodeTable]

theorem opcodeRow_selects_encode (i : Instr) : (opcodeRow i).selects (encode i) = true := by
  cases i with
  | sample x => exact Laws.SelectsItsRow.sample x
  | poll => exact Laws.SelectsItsRow.poll
  | timer => exact Laws.SelectsItsRow.timer
  | regcb h => exact Laws.SelectsItsRow.regcb h
  | reset => exact Laws.SelectsItsRow.reset
  | fltFrame c => exact Laws.SelectsItsRow.fltFrame c
  | rbPush b v => exact Laws.SelectsItsRow.rbPush b v
  | rbPop b => exact Laws.SelectsItsRow.rbPop b
  | rbLen b => exact Laws.SelectsItsRow.rbLen b
  | rbClear b => exact Laws.SelectsItsRow.rbClear b
  | rleBit x => exact Laws.SelectsItsRow.rleBit x
  | rleStep => exact Laws.SelectsItsRow.rleStep
  | decPulse r => exact Laws.SelectsItsRow.decPulse r
  | decStep => exact Laws.SelectsItsRow.decStep

/-- A word that selects a row of the table is the command word of an operation of that row. -/
theorem exists_encode_eq_of_selects {w : Word} {r : OpcodeRow} (hr : r ∈ opcodeTable) (hw : r.selects w = true) :
    ∃ i, encode i = w ∧ opcodeRow i = r := by
  simp only [opcodeTable_eq, List.mem_cons, List.not_mem_nil, or_false] at hr
  rcases hr with rfl | rfl | rfl | rfl | rfl | rfl | rfl | rfl | rfl | rfl | rfl | rfl | rfl | rfl
  · obtain ⟨hop, hf⟩ := selects_formatS_iff.mp hw
    exact ⟨.sample _, assemble_of_formatS hop hf, rfl⟩
  · obtain ⟨hop, hf⟩ := selects_formatZ_iff.mp hw
    exact ⟨.poll, assemble_of_formatZ hop hf, rfl⟩
  · obtain ⟨hop, hf⟩ := selects_formatZ_iff.mp hw
    exact ⟨.timer, assemble_of_formatZ hop hf, rfl⟩
  · obtain ⟨hop, hf⟩ := selects_formatC_iff.mp hw
    exact ⟨.regcb _, assemble_of_formatC hop hf, rfl⟩
  · obtain ⟨hop, hf⟩ := selects_formatZ_iff.mp hw
    exact ⟨.reset, assemble_of_formatZ hop hf, rfl⟩
  · obtain ⟨hop, hf⟩ := selects_formatC_iff.mp hw
    exact ⟨.fltFrame _, encode_fltFrame_of_formatC hop hf, rfl⟩
  · obtain ⟨hop, hf⟩ := selects_formatBD_iff.mp hw
    exact ⟨.rbPush _ _, assemble_of_formatBD hop hf, rfl⟩
  · obtain ⟨hop, hf⟩ := selects_formatB_iff.mp hw
    exact ⟨.rbPop _, assemble_of_formatB hop hf, rfl⟩
  · obtain ⟨hop, hf⟩ := selects_formatB_iff.mp hw
    exact ⟨.rbLen _, assemble_of_formatB hop hf, rfl⟩
  · obtain ⟨hop, hf⟩ := selects_formatB_iff.mp hw
    exact ⟨.rbClear _, assemble_of_formatB hop hf, rfl⟩
  · obtain ⟨hop, hf⟩ := selects_formatS_iff.mp hw
    exact ⟨.rleBit _, assemble_of_formatS hop hf, rfl⟩
  · obtain ⟨hop, hf⟩ := selects_formatZ_iff.mp hw
    exact ⟨.rleStep, assemble_of_formatZ hop hf, rfl⟩
  · obtain ⟨hop, hf⟩ := selects_formatP_iff.mp hw
    exact ⟨.decPulse _, encode_decPulse_of_formatP hop hf, rfl⟩
  · obtain ⟨hop, hf⟩ := selects_formatZ_iff.mp hw
    exact ⟨.decStep, assemble_of_formatZ hop hf, rfl⟩

/-- Settles O3: the two round trips carry every clause over to command words, which select their own row. -/
theorem decoderFollowsTheOperationMap : Obligations.DecoderFollowsTheOperationMap := by
  have selects_of_decode : ∀ (w : Word) (i : Instr), decode w = .ok i → (opcodeRow i).selects w = true := by
    intro w i h
    rw [← encodeOfDecodeIsTheWord w i h]
    exact opcodeRow_selects_encode i
  refine ⟨selects_of_decode, ?_, ?_⟩
  · intro w r hr hw
    obtain ⟨i, rfl, hi⟩ := exists_encode_eq_of_selects hr hw
    exact ⟨i, decodeOfEncodeIsTheOperation i, hi⟩
  · intro w hnone
    cases h : decode w with
    | error e => exact ⟨e, rfl⟩
    | ok i =>
      have hselects := selects_of_decode w i h
      rw [hnone _ (opcodeRow_mem i)] at hselects
      cases hselects

/-- Settles O4: the words of V51 are the command words of the operations it names. -/
theorem specWordsDecode : Obligations.SpecWordsDecode := by
  have h := decodeOfEncodeIsTheOperation
  exact ⟨h (.sample true), h (.rbPush .pulse 0x80#8), h (.rbPop .pulse), h (.rbLen .raw), h (.rleBit false),
    h (.decPulse ⟨true, 10#15⟩), h (.decPulse ⟨false, 280#15⟩), h (.fltFrame ⟨0x0C#8, 0xBB#8, 0xAA#8⟩),
    h (.regcb 0x00BEEF#24), h .poll, h .timer, h .reset, h .rleStep, h .decStep⟩

end Sys2Proof

/-! PROOFS. The data encodings inside the machine: records in PULSE and code bits (30_encoding.md R92 to R94). -/

namespace Sys2Proof

/-! ## Records in PULSE (30_encoding.md R92, R93) -/

theorem toNat_append_eq_add {m n : Nat} (x : BitVec m) (y : BitVec n) :
    (x ++ y).toNat = x.toNat * 2 ^ n + y.toNat := by
  rw [BitVec.toNat_append, ← Nat.shiftLeft_add_eq_or_of_lt y.isLt, Nat.shiftLeft_eq]

theorem PulseRecord.toRec_toNat (r : PulseRecord) : r.toRec.toNat = r.level.toNat * 32768 + r.duration.toNat := by
  rw [PulseRecord.toRec, toNat_append_eq_add, BitVec.toNat_ofBool]
  rfl

namespace Machine

theorem recordByte0_toNat (r : PulseRecord) : (recordByte0 r).toNat = r.toRec.toNat / 256 := by
  have hlt := r.toRec.isLt
  rw [recordByte0, BitVec.extractLsb'_toNat, Nat.shiftRight_eq_div_pow]
  omega

theorem recordByte1_toNat (r : PulseRecord) : (recordByte1 r).toNat = r.toRec.toNat % 256 :=
  BitVec.extractLsb'_toNat ..

theorem recordByte0_append_recordByte1 (r : PulseRecord) : recordByte0 r ++ recordByte1 r = r.toRec :=
  BitVec.extractLsb'_append_extractLsb'

theorem recordOfBytes_level (b0 b1 : Byte) : (recordOfBytes b0 b1).level = b0.getLsbD 7 := by
  simp only [recordOfBytes, PulseRecord.ofRec, BitVec.getLsbD_append]
  rfl

theorem recordOfBytes_duration_toNat (b0 b1 : Byte) :
    (recordOfBytes b0 b1).duration.toNat = b0.toNat % 128 * 256 + b1.toNat := by
  have hlt := b1.isLt
  have hmod : (recordOfBytes b0 b1).duration.toNat = (b0 ++ b1).toNat % 32768 := BitVec.extractLsb'_toNat ..
  rw [hmod, toNat_append_eq_add]
  omega

/-- Settles O5: the two bytes of a record, in order, are its 16 bits. -/
theorem recordBytesRoundTrip : Obligations.RecordBytesRoundTrip := by
  refine ⟨fun r => ⟨?_, ?_, ?_⟩, fun b0 b1 => ⟨recordOfBytes_level b0 b1, recordOfBytes_duration_toNat b0 b1⟩⟩
  · rw [recordByte0_toNat, PulseRecord.toRec_toNat]
  · rw [recordByte1_toNat, PulseRecord.toRec_toNat]
  · rw [recordOfBytes, recordByte0_append_recordByte1, PulseRecord.ofRec_toRec]

/-! ## The bits of a code (30_encoding.md R94) -/

theorem writeBit_getLsbD {v : Byte} {n k : Nat} {x : Bool} (hn : n < 8) :
    (writeBit v n x).getLsbD k = if k = n then x else v.getLsbD k := by
  by_cases hk : k = n
  · subst hk
    cases x <;> simp [writeBit, hn]
  · have hbit : (1#8 <<< n).getLsbD k = false := by
      rw [← BitVec.twoPow_eq, BitVec.getLsbD_twoPow]
      simp [Ne.symm hk]
    cases x with
    | true => simp [writeBit, hk, hbit]
    | false => simpa [writeBit, hk, hbit] using BitVec.lt_of_getLsbD

/-- `code[k]`, the byte that holds the data bits from `8 * k` on. -/
def codeByte (c : Code) : Nat → Byte
  | 0 => c.c0
  | 1 => c.c1
  | _ => c.c2

/-- Data bit `i` is bit `7 - (i mod 8)` of `code[i div 8]`, the place that `writeCodeBit` writes. -/
theorem codeBit_eq {i : Nat} (hi : i < 24) (c : Code) : codeBit c i = (codeByte c (i / 8)).getLsbD (7 - i % 8) := by
  unfold codeBit Code.toC24
  rw [BitVec.getLsbD_append, BitVec.getLsbD_append]
  obtain h | h | h : i / 8 = 0 ∨ i / 8 = 1 ∨ i / 8 = 2 := by omega
  · rw [if_neg (by omega), if_neg (by omega), h, show 23 - i - 8 - 8 = 7 - i % 8 by omega]
    rfl
  · rw [if_neg (by omega), if_pos (by omega), h, show 23 - i - 8 = 7 - i % 8 by omega]
    rfl
  · rw [if_pos (by omega), h, show 23 - i = 7 - i % 8 by omega]
    rfl

theorem codeByte_writeCodeBit {i k : Nat} (hi : i < 24) (hk : k < 3) (c : Code) (x : Bool) :
    codeByte (writeCodeBit c i x) k =
      if k = i / 8 then writeBit (codeByte c k) (7 - i % 8) x else codeByte c k := by
  obtain h | h | h : i / 8 = 0 ∨ i / 8 = 1 ∨ i / 8 = 2 := by omega
  all_goals
    rw [writeCodeBit, h]
    interval_cases k <;> rfl

/-- Settles O6: two data bits are in one place iff they have one index. -/
theorem codeBitWriteTouchesOneBit : Obligations.CodeBitWriteTouchesOneBit := by
  intro c i x hi j hj
  rw [codeBit_eq hj, codeBit_eq hj, codeByte_writeCodeBit hi (by omega)]
  by_cases hbyte : j / 8 = i / 8
  · have hsame : 7 - j % 8 = 7 - i % 8 ↔ j = i := by omega
    rw [if_pos hbyte, writeBit_getLsbD (by omega)]
    simp only [hsame]
  · rw [if_neg hbyte, if_neg fun h => hbyte (congrArg (· / 8) h)]

end Machine
end Sys2Proof

/-! PROOFS. Issuing a command word, and the responses of operations (30_encoding.md R97 to R102). -/

namespace Sys2Proof.Machine

/-! ## A step that issues a command word (30_encoding.md R106) -/

section
variable {s : State} {a : Agent} {w : Word} {rest : List Event} {i : Instr}

theorem step_of_issue (hcfg : s.cfg.legal = true) (hs : s.sched = .issue a w :: rest) :
    step s = issue a w { s with sched := rest } := by
  simp [step, hcfg, State.nextEvent, hs, occur]

theorem issue_of_decode_error {e : Reject} (hd : decode w = .error e) : issue a w s = .refused (refusalOf e) := by
  rw [issue, hd]

theorem issue_of_permitted (hd : decode w = .ok i) (hp : permitted a i s = true) : issue a w s = perform a i s := by
  simp [issue, hd, hp]

theorem perform_of_unmasked (h : a ≠ .interrupt ∨ s.ie = true) : perform a i s = exec i s := by
  rcases perform_cases s a i with ⟨ha, hi, _⟩ | ⟨_, e⟩
  · simp [ha, hi] at h
  · exact e

theorem interruptIdle_iff : s.interruptIdle = true ↔ InterruptIdle s := by
  unfold State.interruptIdle
  rw [Bool.and_eq_true, Bool.and_eq_true, and_assoc, Option.isNone_iff_eq_none, List.isEmpty_iff, List.all_eq_true]
  refine and_congr_right' (and_congr_right' ⟨fun h w hw => ?_, fun h e he => ?_⟩)
  · simpa using h _ hw
  · cases e with
    | hostIe v => rfl
    | issue a w =>
      have ha : a ≠ .interrupt := fun ha => h w (ha ▸ he)
      simpa using ha

/-- The task agent may issue everything but SAMPLE and RESET in every state (60_exceptions.md R236). -/
theorem permitted_task (hreset : i ≠ .reset) (hsample : ∀ x, i ≠ .sample x) : permitted .task i s = true := by
  cases i with
  | sample x => exact absurd rfl (hsample x)
  | reset => exact absurd rfl hreset
  | _ => rfl

/-- A test bench may issue SAMPLE while the interrupt agent is idle (60_exceptions.md R236). -/
theorem permitted_task_sample (x : Bool) (h : InterruptIdle s) : permitted .task (.sample x) s = true :=
  interruptIdle_iff.mpr h

end

/-- Settles O7: in each of the four contexts the agent may issue the operation, and no tick is masked. -/
theorem stepRunsTheDecodedOperation : Obligations.StepRunsTheDecodedOperation := by
  intro s a w rest i hcfg hs hd hcontext
  have hp : permitted a i { s with sched := rest } = true ∧ (a ≠ .interrupt ∨ s.ie = true) := by
    rcases hcontext with ⟨rfl, ⟨x, rfl⟩, hie⟩ | ⟨rfl, rfl⟩ | ⟨rfl, hreset, hsample⟩ | ⟨rfl, ⟨x, rfl⟩, hidle⟩
    · exact ⟨rfl, .inr hie⟩
    · exact ⟨rfl, .inl nofun⟩
    · exact ⟨permitted_task hreset hsample, .inl nofun⟩
    · exact ⟨permitted_task_sample x hidle, .inl nofun⟩
  obtain ⟨hpermitted, hunmasked⟩ := hp
  rw [step_of_issue hcfg hs, issue_of_permitted hd hpermitted]
  exact perform_of_unmasked hunmasked

/-- Settles O8: the word is decoded before its issuer is looked at. -/
theorem reservedWordIsRefused : Obligations.ReservedWordIsRefused := by
  intro s a w rest e hcfg hs hd
  rw [step_of_issue hcfg hs, issue_of_decode_error hd]

/-! ## The sub-steps respond to their caller only: none appends to the responses (30_encoding.md R102) -/

section
variable (s : State)

@[simp] theorem State.rbPush_responses (b : RingId) (v : Byte) : (s.rbPush b v).responses = s.responses := by
  rcases s.rbPush_cases b v with ⟨_, e⟩ | ⟨_, e⟩ <;> simp [e]

@[simp] theorem State.rbPop_responses (b : RingId) : (s.rbPop b).2.responses = s.responses := by
  simp [State.rbPop_eq]

@[simp] theorem State.rbClear_responses (b : RingId) : (s.rbClear b).responses = s.responses := by
  simp [State.rbClear_eq]

@[simp] theorem State.sample_responses (x : Bool) : (s.sample x).responses = s.responses := by
  rcases s.sample_cases x with ⟨_, e⟩ | ⟨_, e⟩ <;> simp [e]

@[simp] theorem State.tick_responses (x : Bool) : (s.tick x).responses = s.responses := by
  rcases s.tick_cases x with ⟨_, e⟩ | ⟨_, e⟩ <;> simp [e]

theorem State.foldl_responses {f : State → Bool → State} (hf : ∀ s x, (f s x).responses = s.responses) (xs : List Bool) :
    (xs.foldl f s).responses = s.responses :=
  List.foldlRecOn (motive := fun t => t.responses = s.responses) xs f rfl fun t ht x _ => (hf t x).trans ht

@[simp] theorem State.interruptPoint_responses : s.interruptPoint.responses = s.responses := by
  rcases s.interruptPoint_cases with ⟨_, e⟩ | ⟨xs, rest, _, e⟩
  · rw [e]
  · rw [e, State.foldl_responses _ State.tick_responses]

@[simp] theorem State.rleBit_responses (x : Bool) : (s.rleBit x).responses = s.responses := by
  rcases s.rleBit_cases x with ⟨_, e⟩ | ⟨_, e⟩ <;> simp [e, State.emit]

@[simp] theorem State.rleStep_responses : s.rleStep.2.responses = s.responses := by
  rcases s.rleStep_cases with ⟨_, e⟩ | ⟨_, e⟩
  · rw [e]
  · rw [e, State.foldl_responses _ State.rleBit_responses]

@[simp] theorem State.fltFrame_responses (c : Code) : (s.fltFrame c).responses = s.responses := by
  rcases s.fltFrame_cases c with ⟨_, e⟩ | ⟨_, _, e⟩ | ⟨_, _, _, e⟩ | ⟨_, _, _, e⟩ <;> simp [e]

@[simp] theorem State.syncTest_responses (t1 t2 : Nat) : (s.syncTest t1 t2).responses = s.responses := by
  rcases s.syncTest_cases t1 t2 with ⟨_, e⟩ | ⟨_, e⟩ <;> simp [e]

@[simp] theorem State.bitTest_responses (t1 t2 : Nat) : (s.bitTest t1 t2).responses = s.responses := by
  rcases s.bitTest_cases t1 t2 with ⟨_, e⟩ | ⟨_, _, _, e⟩ | ⟨_, _, _, e⟩ <;> simp [e]

@[simp] theorem State.decPulse_responses (r : PulseRecord) : (s.decPulse r).responses = s.responses := by
  rcases s.decPulse_cases r with ⟨_, _, e⟩ | ⟨_, _, e⟩ | ⟨_, _, e⟩ | ⟨_, _, _, e⟩ | ⟨_, _, _, e⟩ <;> simp [e]

@[simp] theorem State.decStep_responses : s.decStep.2.responses = s.responses := by
  unfold State.decStep
  simp only [State.rbLen_eq]
  split
  · rfl
  · split <;> simp

@[simp] theorem State.poll_responses : s.poll.responses = s.responses :=
  State.poll_keeps (P := fun t => t.responses = s.responses) (fun t ht => t.rleStep_responses.trans ht)
    (fun t ht => t.interruptPoint_responses.trans ht) (fun t ht => t.decStep_responses.trans ht) rfl

end

/-! ## Operations (30_encoding.md R102) -/

theorem exec_responses {i : Instr} {s t : State} (hpop : ∀ b, i ≠ .rbPop b) (hlen : ∀ b, i ≠ .rbLen b)
    (he : exec i s = .next t) : t.responses = s.responses := by
  cases i with
  | sample x => cases he; exact s.sample_responses x
  | poll => cases he; exact s.poll_responses
  | timer => rw [exec_timer] at he; cases he; rfl
  | regcb h => rw [exec_regcb] at he; cases he; split <;> rfl
  | reset => rw [exec_reset] at he; cases he; rfl
  | fltFrame c => cases he; exact s.fltFrame_responses c
  | rbPush b v => cases he; exact s.rbPush_responses b v
  | rbPop b => exact absurd rfl (hpop b)
  | rbLen b => exact absurd rfl (hlen b)
  | rbClear b => cases he; exact s.rbClear_responses b
  | rleBit x => cases he; exact s.rleBit_responses x
  | rleStep => cases he; exact s.rleStep_responses
  | decPulse r => cases he; exact s.decPulse_responses r
  | decStep => cases he; exact s.decStep_responses

theorem popWord_some_toNat (v : Byte) : (popWord (some v)).toNat = 256 + v.toNat := by
  rw [popWord, toNat_append_eq_add]
  rfl

theorem Response.pop_word_toNat (v : Option Byte) : (Response.pop v).word.toNat = (popWord v).toNat :=
  BitVec.toNat_setWidth_of_le (by omega)

theorem Response.len_word_toNat {n : Nat} (hn : n < 2 ^ 32) : (Response.len n).word.toNat = n := by
  rw [Response.word, BitVec.toNat_ofNat, Nat.mod_eq_of_lt hn]

/-- Settles O56: the other operations are made of sub-steps that append no response. -/
theorem onlyPopAndLenRespond : Obligations.OnlyPopAndLenRespond :=
  ⟨fun _ _ _ => exec_responses, rfl, popWord_some_toNat, Response.pop_word_toNat, fun _ => Response.len_word_toNat⟩

end Sys2Proof.Machine

/-! PROOFS. The ring buffer (40_ring_buffer.md): the four operations on the state, on the abstract queue, and in sequence. -/

namespace Sys2Proof.Machine

/-! ## The abstract queue of one ring (10_state.md R23, R24) -/

/-- Cursor arithmetic may be reduced at any point (10_state.md R22). -/
theorem slotOf_nextSlot_add (cap h i : Nat) : slotOf cap (nextSlot cap h + i) = slotOf cap (h + (i + 1)) := by
  rw [slotOf, nextSlot, Nat.mod_add_mod, slotOf, Nat.add_right_comm, Nat.add_assoc]

/-- A slot fewer than `S` places after a cursor wraps at most once. -/
theorem slotOf_add {cap h i : Nat} (hh : h ≤ cap) (hi : i ≤ cap) :
    slotOf cap (h + i) = if h + i ≤ cap then h + i else h + i - (cap + 1) := by
  split
  · next hle => exact slotOf_eq hle
  · next hgt =>
    rw [slotOf, Nat.mod_eq_sub_mod (by omega)]
    exact Nat.mod_eq_of_lt (by omega)

/-- From the head the tail's slot comes right after the unread bytes: it holds none of them (40_ring_buffer.md R121, case d). -/
theorem Ring.slotOf_head_add_eq_tail_iff {cap i : Nat} {r : Ring} (hh : r.head ≤ cap) (ht : r.tail ≤ cap) (hi : i ≤ cap) :
    slotOf cap (r.head + i) = r.tail ↔ i = r.length cap := by
  rw [slotOf_add hh hi, Ring.length_eq hh ht]
  split <;> split <;> omega

theorem Ring.queue_eq_nil_iff {cap : Nat} {r : Ring} (hh : r.head ≤ cap) (ht : r.tail ≤ cap) :
    r.queue cap = [] ↔ r.head = r.tail := by
  rw [← List.length_eq_zero_iff, Ring.queue_length, Ring.length_eq_zero_iff hh ht]

theorem Ring.queue_clear (cap : Nat) (r : Ring) : r.clear.queue cap = [] :=
  List.length_eq_zero_iff.mp (by rw [Ring.queue_length, Ring.clear_length])

/-- The byte at the head is the oldest, and the head's advance leaves the others. -/
theorem Ring.queue_eq_cons {cap : Nat} {r : Ring} (hh : r.head ≤ cap) (ht : r.tail ≤ cap) (hne : r.head ≠ r.tail) :
    r.queue cap = r.mem.read (slotOf cap r.head) :: ({ r with head := nextSlot cap r.head } : Ring).queue cap := by
  have hlen : 0 < r.length cap := Nat.pos_of_ne_zero fun h => hne ((Ring.length_eq_zero_iff hh ht).mp h)
  unfold Ring.queue
  rw [← Ring.length_advance hh ht hlen, List.range_succ_eq_map]
  simp [slotOf_nextSlot_add]

/-- A pop on the queue (40_ring_buffer.md R125). -/
theorem Ring.pop_queue {cap : Nat} {r : Ring} (hh : r.head ≤ cap) (ht : r.tail ≤ cap) :
    (r.pop cap).1 = (r.queue cap).head? ∧ (r.pop cap).2.queue cap = (r.queue cap).tail := by
  rcases Ring.pop_cases cap r with ⟨h, e⟩ | ⟨h, e⟩
  · rw [e, (Ring.queue_eq_nil_iff hh ht).mpr h]
    exact ⟨rfl, rfl⟩
  · rw [e, Ring.queue_eq_cons hh ht h]
    exact ⟨rfl, rfl⟩

/-- A push with room: the byte is written outside the queue, in the slot right after it. -/
theorem Ring.push_queue_of_not_full {cap : Nat} {r : Ring} (v : Byte) (hr : RingLegal cap r)
    (hfull : r.isFull cap = false) : (r.push cap v).queue cap = r.queue cap ++ [v] := by
  obtain ⟨hh, ht, hmem, _⟩ := hr
  have hpush : r.push cap v = ⟨r.mem.write r.tail v, r.head, nextSlot cap r.tail⟩ := by
    simp [Ring.push, hfull, slotOf_eq ht]
  have hlen : (r.push cap v).length cap = r.length cap + 1 := by simp [Ring.push_length v hh ht, hfull]
  have htail : slotOf cap (r.head + r.length cap) = r.tail :=
    (Ring.slotOf_head_add_eq_tail_iff hh ht (Ring.length_le cap r)).mpr rfl
  have hkept (i : Nat) (hi : i < r.length cap) :
      (r.mem.write r.tail v).read (slotOf cap (r.head + i)) = r.mem.read (slotOf cap (r.head + i)) := by
    have hcap := Ring.length_le cap r
    exact Memory.read_write_other v hmem fun e =>
      hi.ne ((Ring.slotOf_head_add_eq_tail_iff hh ht (by omega)).mp e)
  unfold Ring.queue
  rw [hlen, hpush, List.range_succ, List.map_append]
  congr 1
  · exact List.map_congr_left fun i hi => hkept i (List.mem_range.mp hi)
  · simp [htail, hmem]

/-- A push to a full ring is a pop, whose byte is lost, and a push with room. -/
theorem Ring.push_eq_pop_push_of_full {cap : Nat} {r : Ring} (v : Byte) (hr : RingLegal cap r) (hne : r.head ≠ r.tail)
    (hfull : r.isFull cap = true) : r.push cap v = (r.pop cap).2.push cap v := by
  have hroom := Ring.pop_isFull hr hne
  rcases Ring.pop_cases cap r with ⟨e, _⟩ | ⟨_, e⟩
  · exact absurd e hne
  · rw [e] at hroom ⊢
    simp [Ring.push, hfull, hroom]

/-- A push on the queue (40_ring_buffer.md R125). A ring of capacity 0, full while empty, is outside it. -/
theorem Ring.push_queue {cap : Nat} {r : Ring} (v : Byte) (hcap : 1 ≤ cap) (hr : RingLegal cap r) :
    (r.push cap v).queue cap =
      if (r.queue cap).length < cap then r.queue cap ++ [v] else (r.queue cap).tail ++ [v] := by
  have hle := Ring.length_le cap r
  have hiff := Ring.isFull_iff_length hr.1 hr.2.1
  rw [Ring.queue_length]
  cases hfull : r.isFull cap with
  | false =>
    have hlt : r.length cap ≠ cap := fun e => by simp [hiff.mpr e] at hfull
    rw [if_pos (by omega), Ring.push_queue_of_not_full v hr hfull]
  | true =>
    have hlen := hiff.mp hfull
    have hne : r.head ≠ r.tail := fun e => by
      have := (Ring.length_eq_zero_iff hr.1 hr.2.1).mpr e
      omega
    rw [if_neg (by omega), Ring.push_eq_pop_push_of_full v hr hne hfull,
      Ring.push_queue_of_not_full v (Ring.pop_legal hr) (Ring.pop_isFull hr hne), (Ring.pop_queue hr.1 hr.2.1).2]

/-! ## The queue as the last bytes pushed (40_ring_buffer.md R126) -/

/-- Keeping the last `n` early does not change the last `n` later. -/
theorem rtake_append_rtake {α : Type} (n : Nat) (l m : List α) : (l.rtake n ++ m).rtake n = (l ++ m).rtake n := by
  simp only [List.rtake_eq_reverse_take_reverse, List.reverse_append, List.reverse_reverse, List.take_append,
    List.take_take, List.length_reverse]
  rw [Nat.min_eq_left (Nat.sub_le _ _)]

/-- A push keeps the last `CAP` of the queue and the byte pushed. -/
theorem Ring.push_queue_eq_rtake {cap : Nat} {r : Ring} (v : Byte) (hcap : 1 ≤ cap) (hr : RingLegal cap r) :
    (r.push cap v).queue cap = (r.queue cap ++ [v]).rtake cap := by
  have hle : (r.queue cap).length ≤ cap := (r.queue_length cap).trans_le (Ring.length_le cap r)
  rw [Ring.push_queue v hcap hr, List.rtake, List.length_append, List.length_singleton]
  split
  · next hlt => rw [Nat.sub_eq_zero_of_le hlt, List.drop_zero]
  · next hge =>
    rw [show (r.queue cap).length + 1 - cap = 1 by omega, List.drop_append_of_le_length (by omega), List.drop_one]

/-! ## The operations on the state (40_ring_buffer.md R121 to R124) -/

section
variable (s : State) (b : RingId)

@[simp] theorem State.rbPush_ring (v : Byte) : (s.rbPush b v).ring b = (s.ring b).push (s.cap b) v := by
  rcases s.rbPush_cases b v with ⟨_, e⟩ | ⟨_, e⟩ <;> simp [e]

@[simp] theorem State.rbPush_cap (v : Byte) : (s.rbPush b v).cap b = s.cap b := by
  rcases s.rbPush_cases b v with ⟨_, e⟩ | ⟨_, e⟩ <;> simp [e]

@[simp] theorem State.rbPop_ring : (s.rbPop b).2.ring b = ((s.ring b).pop (s.cap b)).2 := by simp [State.rbPop_eq]

@[simp] theorem State.rbPop_cap : (s.rbPop b).2.cap b = s.cap b := by simp [State.rbPop_eq]

@[simp] theorem State.respond_queue (r : Response) : (s.respond r).queue b = s.queue b := rfl

theorem State.queue_length_le : (s.queue b).length ≤ s.cap b :=
  (Ring.queue_length _ _).trans_le (Ring.length_le _ _)

/-- What a push drops, and the frame: the ring and the drops are all it writes. -/
theorem State.rbPush_frame (v : Byte) :
    (s.rbPush b v).drops = s.drops ++ (if nextSlot (s.cap b) (s.ring b).tail = (s.ring b).head then [overflowCause b] else []) ∧
    s.rbPush b v = { s.setRing b ((s.rbPush b v).ring b) with drops := (s.rbPush b v).drops } := by
  rw [State.rbPush_ring]
  rcases s.rbPush_cases b v with ⟨h, e⟩ | ⟨h, e⟩ <;> rw [e]
  · exact ⟨by simp [← Ring.isFull_iff, h], rfl⟩
  · exact ⟨by simp [← Ring.isFull_iff, h], by simp [State.drop]⟩

end

/-- Settles O13: the cursors are those of `Ring.push`, and the tail, being in its range, names the slot written. -/
theorem pushWritesTheTailSlotAndAdvances : Obligations.PushWritesTheTailSlotAndAdvances := by
  intro b v s hmem ht
  have hring : (s.rbPush b v).ring b = (s.ring b).push (s.cap b) v := s.rbPush_ring b v
  have hwrite : ((s.ring b).push (s.cap b) v).mem = (s.ring b).mem.write (s.ring b).tail v := by
    simp [Ring.push, slotOf_eq ht]
  obtain ⟨hdrops, hframe⟩ := s.rbPush_frame b v
  refine ⟨s.rbPush b v, exec_rbPush s b v, ?_, fun a ha => ?_, ?_, ?_, ?_, hframe⟩
  · rw [hring, hwrite, Memory.read_write_same _ _ hmem]
  · rw [hring, hwrite, Memory.read_write_other v hmem ha]
  · rw [hring]; rfl
  · rw [hring]; simp [Ring.push, Ring.isFull, nextSlot]
  · rw [hdrops]; cases b <;> rfl

/-- Settles O14: the two cases of the pop, whose head, being in its range, names the slot read. -/
theorem popReturnsTheOldestByte : Obligations.PopReturnsTheOldestByte := by
  intro b s hh
  rw [exec_rbPop]
  rcases s.rbPop_cases b with ⟨h, e⟩ | ⟨h, e⟩ <;> rw [e]
  · exact ⟨fun _ => rfl, fun hne => absurd h hne⟩
  · exact ⟨fun he => absurd he h, fun _ => by rw [slotOf_eq hh]; rfl⟩

/-- The natural number whose modulus the model takes is the difference of the cursors, moved up by `S` (R123). -/
theorem Ring.length_eq_emod {cap : Nat} {r : Ring} (hh : r.head ≤ cap) :
    (r.length cap : Int) = ((r.tail : Int) - (r.head : Int)) % ((cap : Int) + 1) := by
  have hshift : ((r.tail + (cap + 1) - r.head : Nat) : Int) = (r.tail : Int) - r.head + (cap + 1) := by omega
  rw [Ring.length, Int.natCast_mod, hshift, Nat.cast_succ, Int.add_emod_right]

/-- Settles O15: the model's natural count is the integer modulus, and less than `S`. -/
theorem lenReportsTheCount : Obligations.LenReportsTheCount :=
  fun b s hh _ => ⟨_, exec_rbLen s b, Ring.length_le _ _, Ring.length_eq_emod hh⟩

/-- Settles O16: `Ring.clear` keeps the memory, and the critical section keeps the rest. -/
theorem clearZeroesTheCursors : Obligations.ClearZeroesTheCursors := fun b s => by
  rw [exec_rbClear, State.rbClear_eq, Ring.clear]

/-! ## The operations on the queue of the state (40_ring_buffer.md R125) -/

section
variable {s : State} {b : RingId}

theorem State.rbPop_queue (hr : RingLegal (s.cap b) (s.ring b)) :
    (s.rbPop b).1 = (s.queue b).head? ∧ (s.rbPop b).2.queue b = (s.queue b).tail := by
  obtain ⟨hbyte, hrest⟩ := Ring.pop_queue hr.1 hr.2.1
  exact ⟨by rw [State.rbPop_eq]; exact hbyte, by simpa [State.queue] using hrest⟩

/-- RB.POP of an empty queue: the whole next state. -/
theorem exec_rbPop_of_queue_nil (hr : RingLegal (s.cap b) (s.ring b)) (hq : s.queue b = []) :
    exec (.rbPop b) s = .next (s.respond (.pop none)) :=
  (popReturnsTheOldestByte b s hr.1).1 ((Ring.queue_eq_nil_iff hr.1 hr.2.1).mp hq)

/-- RB.POP of a queue that holds a byte. -/
theorem exec_rbPop_of_queue_cons {x : Byte} {rest : List Byte} (hr : RingLegal (s.cap b) (s.ring b))
    (hq : s.queue b = x :: rest) : ∃ t, exec (.rbPop b) s = .next t ∧ t.queue b = rest ∧
      t.responses = s.responses ++ [.pop (some x)] := by
  obtain ⟨hbyte, hrest⟩ := State.rbPop_queue hr
  rw [hq] at hbyte hrest
  exact ⟨_, exec_rbPop s b, hrest, by simp [hbyte]⟩

end

/-- Settles O17: each operation by what it does to the queue of its ring. -/
theorem ringOperationsActOnTheQueue : Obligations.RingOperationsActOnTheQueue := by
  intro b s hcap hr
  refine ⟨fun v => ⟨_, exec_rbPush s b v, ?_⟩, exec_rbPop_of_queue_nil hr, fun x rest => exec_rbPop_of_queue_cons hr, ?_,
    _, exec_rbClear s b, ?_⟩
  · simpa [State.queue] using Ring.push_queue v hcap hr
  · rw [exec_rbLen, State.queue, Ring.queue_length]
  · simp [State.queue, State.rbClear_eq, Ring.queue_clear]

/-! ## Sequences of pushes and pops (40_ring_buffer.md R126) -/

/-- The ring `b` is legal, with room for a byte at least: what pushes and pops of `b` keep, and what R125 and R126 suppose. -/
def RingReady (b : RingId) (s : State) : Prop := 1 ≤ s.cap b ∧ RingLegal (s.cap b) (s.ring b)

section
variable {s : State} {b : RingId}

theorem RingReady.rbPush (h : RingReady b s) (v : Byte) : RingReady b (s.rbPush b v) := by
  obtain ⟨hcap, hr⟩ := h
  rw [RingReady, State.rbPush_cap, State.rbPush_ring]
  exact ⟨hcap, Ring.push_legal v hr⟩

theorem RingReady.rbPop (h : RingReady b s) : RingReady b (s.rbPop b).2 := by
  obtain ⟨hcap, hr⟩ := h
  rw [RingReady, State.rbPop_cap, State.rbPop_ring]
  exact ⟨hcap, Ring.pop_legal hr⟩

theorem RingReady.exec_rbPop {t : State} (h : RingReady b s) (he : exec (.rbPop b) s = .next t) : RingReady b t := by
  cases he
  exact h.rbPop

theorem State.rbPush_queue (h : RingReady b s) (v : Byte) :
    (s.rbPush b v).queue b = (s.queue b ++ [v]).rtake (s.cap b) := by
  obtain ⟨hcap, hr⟩ := h
  simpa [State.queue] using Ring.push_queue_eq_rtake v hcap hr

/-- Pushes without a pop leave the last `CAP` of what was queued and what was pushed. -/
theorem run_rbPush (h : RingReady b s) (vs : List Byte) : ∃ t, run (vs.map (.rbPush b)) s = .next t ∧ RingReady b t ∧
    t.queue b = (s.queue b ++ vs).rtake (s.cap b) := by
  induction vs generalizing s with
  | nil =>
    refine ⟨s, rfl, h, ?_⟩
    rw [List.append_nil, List.rtake, Nat.sub_eq_zero_of_le (s.queue_length_le b), List.drop_zero]
  | cons v vs ih =>
    obtain ⟨t, hrun, ht, hq⟩ := ih (h.rbPush v)
    refine ⟨t, (run_cons_of_next (exec_rbPush s b v)).trans hrun, ht, ?_⟩
    rw [hq, State.rbPush_queue h, State.rbPush_cap, rtake_append_rtake, List.append_assoc, List.singleton_append]

/-- One pop more than there are bytes answers them oldest first, and then none. -/
theorem run_rbPop_drains {q : List Byte} (h : RingReady b s) (hq : s.queue b = q) :
    ∃ u, run (List.replicate (q.length + 1) (.rbPop b)) s = .next u ∧
      u.responses = s.responses ++ q.map (fun v => .pop (some v)) ++ [.pop none] := by
  induction q generalizing s with
  | nil => exact ⟨_, run_cons_of_next (exec_rbPop_of_queue_nil h.2 hq), by simp⟩
  | cons x rest ih =>
    obtain ⟨t, he, hrest, hresp⟩ := exec_rbPop_of_queue_cons h.2 hq
    obtain ⟨u, hrun, hu⟩ := ih (h.exec_rbPop he) hrest
    exact ⟨u, (run_cons_of_next he).trans hrun, by simp [hu, hresp]⟩

/-- A push of the byte given, a pop where none is. -/
def pushOrPop (b : RingId) : Option Byte → Instr
  | some v => .rbPush b v
  | none => .rbPop b

/-- The queue stays a run ending at the last byte pushed: a push appends a byte and may drop the oldest, a pop takes it. -/
theorem run_pushOrPop_queue_suffix {pushed : List Byte} (h : RingReady b s) (hq : s.queue b <:+ pushed)
    (ops : List (Option Byte)) : ∃ t, run (ops.map (pushOrPop b)) s = .next t ∧
      t.queue b <:+ pushed ++ ops.filterMap id ∧ (t.queue b).length ≤ s.cap b := by
  induction ops generalizing s pushed with
  | nil => exact ⟨s, rfl, by simpa using hq, s.queue_length_le b⟩
  | cons o ops ih =>
    cases o with
    | some v =>
      have hpush : (s.rbPush b v).queue b <:+ pushed ++ [v] := by
        rw [State.rbPush_queue h]
        exact (List.drop_suffix _ _).trans (List.suffix_append_self_iff.mpr hq)
      obtain ⟨t, hrun, hsuffix, hlen⟩ := ih (h.rbPush v) hpush
      exact ⟨t, (run_cons_of_next (exec_rbPush s b v)).trans hrun, by simpa using hsuffix, by simpa using hlen⟩
    | none =>
      have hpop : (s.rbPop b).2.queue b <:+ pushed := by
        rw [(State.rbPop_queue h.2).2]
        exact (List.tail_suffix _).trans hq
      obtain ⟨t, hrun, hsuffix, hlen⟩ := ih (s := (s.rbPop b).2.respond _) h.rbPop hpop
      exact ⟨t, (run_cons_of_next (exec_rbPop s b)).trans hrun, by simpa using hsuffix, by simpa using hlen⟩

end

/-- Settles O18: pushes to an empty ring leave the last bytes, which the pops answer; and a queue that is empty is a run of
nothing pushed. -/
theorem overwriteKeepsTheLastBytes : Obligations.OverwriteKeepsTheLastBytes := by
  intro b s hcap hr hempty
  have hready : RingReady b s := ⟨hcap, hr⟩
  have hnil : s.queue b = [] := (Ring.queue_eq_nil_iff hr.1 hr.2.1).mpr hempty
  refine ⟨fun vs hvs => ?_, fun ops => ?_⟩
  · obtain ⟨t, hpush, ht, hq⟩ := run_rbPush hready vs
    rw [hnil, List.nil_append, List.rtake] at hq
    obtain ⟨u, hpop, hu⟩ := run_rbPop_drains ht hq
    have hlen : (vs.drop (vs.length - s.cap b)).length = s.cap b := by rw [List.length_drop]; omega
    rw [hlen] at hpop
    exact ⟨t, u, hpush, hq, hpop, hu⟩
  · have hops : (fun o => match o with | some v => Instr.rbPush b v | none => .rbPop b) = pushOrPop b := by
      funext o
      cases o <;> rfl
    obtain ⟨t, hrun, hsuffix, hlen⟩ := run_pushOrPop_queue_suffix (pushed := []) hready (by rw [hnil]) ops
    exact ⟨t, hops ▸ hrun, hsuffix, hlen⟩

end Sys2Proof.Machine

/-! PROOFS. The pulse sampler (41_pulse_sampler.md): one SAMPLE, and samples from a byte boundary. -/

namespace Sys2Proof.Machine

/-! ## The accumulator (41_pulse_sampler.md R141) -/

theorem shiftIn_eq_shiftConcat (acc : Byte) (x : Bool) : shiftIn acc x = acc.shiftConcat x := by
  apply BitVec.eq_of_toNat_eq
  simp [shiftIn, BitVec.toNat_shiftConcat, Nat.shiftLeft_eq]

/-- Eight samples push out every bit the accumulator held and leave the byte they are the samples of (30_encoding.md R91). -/
theorem foldl_shiftIn_samplesOf (acc v : Byte) : (samplesOf v).foldl shiftIn acc = v := by
  apply BitVec.eq_of_getLsbD_eq
  intro i hi
  simp only [samplesOf, List.foldl_cons, List.foldl_nil, shiftIn_eq_shiftConcat, BitVec.getLsbD_shiftConcat]
  interval_cases i <;> rfl

theorem samplesOf_eq_map_range (v : Byte) : samplesOf v = (List.range 8).map fun j => v.getLsbD (7 - j) := rfl

/-! ## One SAMPLE (41_pulse_sampler.md R141) -/

section
variable {s : State}

theorem State.sample_of_lt_seven (x : Bool) (h : s.smp.cnt.val < 7) :
    s.sample x = { s with smp := ⟨shiftIn s.smp.acc x, ⟨s.smp.cnt.val + 1, by omega⟩⟩ } := by
  have hsucc : s.smp.cnt + 1 = ⟨s.smp.cnt.val + 1, by omega⟩ := Fin.ext (Fin.val_add_one_of_lt h)
  rcases s.sample_cases x with ⟨_, e⟩ | ⟨h7, _⟩
  · rw [e, hsucc]
  · exact absurd (congrArg Fin.val h7) h.ne

theorem State.sample_of_eq_seven (x : Bool) (h : s.smp.cnt.val = 7) :
    s.sample x = ({ s with smp := ⟨shiftIn s.smp.acc x, 0⟩ } : State).rbPush .raw (shiftIn s.smp.acc x) := by
  rcases s.sample_cases x with ⟨hne, _⟩ | ⟨_, e⟩
  · exact absurd (Fin.ext h) hne
  · exact e

/-- A push neither reads nor writes the sampler. -/
theorem State.rbPush_with_smp (b : RingId) (v : Byte) (m : Sampler) :
    ({ s with smp := m } : State).rbPush b v = { s.rbPush b v with smp := m } := by
  rw [State.rbPush_eq, State.rbPush_eq, apply_ite fun t : State => ({ t with smp := m } : State)]
  cases b <;> rfl

end

/-- Settles O20: the two cases of SAMPLE, with `shiftIn` as the arithmetic it is. -/
theorem sampleShiftsAndPushesTheEighth : Obligations.SampleShiftsAndPushesTheEighth := by
  refine fun x s => ⟨fun h => ⟨⟨s.smp.cnt.val + 1, by omega⟩, rfl, ?_⟩, fun h => ⟨s.sample x, exec_sample s x, ?_⟩⟩
  · rw [exec_sample, State.sample_of_lt_seven x h]
    rfl
  · rw [exec_rbPush, State.sample_of_eq_seven x h]
    rfl

/-! ## Samples in sequence (41_pulse_sampler.md R142) -/

section
variable {s : State}

/-- Samples that do not complete a byte change the sampler alone. -/
theorem run_samples_of_incomplete (xs : List Bool) (h : s.smp.cnt.val + xs.length < 8) :
    run (xs.map .sample) s = .next { s with smp := ⟨xs.foldl shiftIn s.smp.acc, ⟨s.smp.cnt.val + xs.length, h⟩⟩ } := by
  induction xs generalizing s with
  | nil => rfl
  | cons x xs ih =>
    rw [List.length_cons] at h
    have hlen : s.smp.cnt.val + 1 + xs.length = s.smp.cnt.val + (xs.length + 1) := by omega
    rw [List.map_cons, run_cons_of_next (exec_sample s x), State.sample_of_lt_seven x (by omega), ih (by simp only; omega)]
    simp only [List.foldl_cons, List.length_cons, hlen]

/-- A byte's samples from a byte boundary: seven that complete nothing, and the eighth, which pushes the byte. -/
theorem run_sampleByte (v : Byte) (h : s.smp.cnt = 0) :
    run (sampleByte v) s = .next { s.rbPush .raw v with smp := ⟨v, 0⟩ } := by
  have hsplit : samplesOf v = (samplesOf v).take 7 ++ [v.getLsbD 0] := rfl
  have hcnt : s.smp.cnt.val + ((samplesOf v).take 7).length = 7 := by rw [h]; rfl
  have hacc : shiftIn (((samplesOf v).take 7).foldl shiftIn s.smp.acc) (v.getLsbD 0) = v := foldl_shiftIn_samplesOf s.smp.acc v
  rw [sampleByte, hsplit, List.map_append, run_append_of_next (run_samples_of_incomplete _ (by omega)), List.map_singleton,
    run_cons_of_next (exec_sample _ _), run_nil, State.sample_of_eq_seven _ hcnt, hacc, State.rbPush_with_smp,
    State.rbPush_with_smp]

/-- Whole bytes from a byte boundary do what pushing them does, but for the sampler, which is at a byte boundary again. -/
theorem run_sampleBytes (bytes : List Byte) {m : Sampler} (h : m.cnt = 0) :
    ∃ u m', run (bytes.map (.rbPush .raw)) s = .next u ∧ m'.cnt = 0 ∧
      run (bytes.flatMap sampleByte) { s with smp := m } = .next { u with smp := m' } := by
  induction bytes generalizing s m with
  | nil => exact ⟨s, m, rfl, h, rfl⟩
  | cons v bytes ih =>
    obtain ⟨u, m', hpush, hm', hsample⟩ := ih (s := s.rbPush .raw v) (m := ⟨v, 0⟩) rfl
    refine ⟨u, m', (run_cons_of_next (exec_rbPush s .raw v)).trans hpush, hm', ?_⟩
    have hbyte := run_sampleByte (s := { s with smp := m }) v h
    rw [State.rbPush_with_smp] at hbyte
    rw [List.flatMap_cons, run_append_of_next hbyte, hsample]

end

/-- Settles O21: the whole bytes do what their pushes do, and the fewer than eight samples after them change the sampler alone. -/
theorem samplesArePushedEightToAByte : Obligations.SamplesArePushedEightToAByte := by
  intro bytes more s hcnt hmore
  obtain ⟨u, m, hpush, hm, hsample⟩ := run_sampleBytes (s := s) bytes hcnt
  have hlen : m.cnt.val + more.length = more.length := by rw [hm]; exact Nat.zero_add _
  have hrest := run_samples_of_incomplete (s := { u with smp := m }) more (hlen.trans_lt hmore)
  simp only [← samplesOf_eq_map_range, List.map_append, List.map_flatMap]
  exact ⟨_, u, (run_append_of_next hsample).trans hrest, hpush, rfl, rfl, hlen⟩

end Sys2Proof.Machine

/-! PROOFS. The run-length encoder (42_run_length_encoder.md): one RLE.BIT, saturation, RLE.STEP, and what a sequence of samples
emits. -/

namespace Sys2Proof.Machine

/-! ## Emission (42_run_length_encoder.md R152) -/

/-- The two bytes of a record, in the order of their pushes (30_encoding.md R93). -/
def recordBytes (r : PulseRecord) : List Byte := [recordByte0 r, recordByte1 r]

@[simp] theorem recordBytes_length (r : PulseRecord) : (recordBytes r).length = 2 := rfl

theorem recordByte0_eq_ofNat (r : PulseRecord) :
    recordByte0 r = BitVec.ofNat 8 ((r.level.toNat * 32768 + r.duration.toNat) / 256) := by
  rw [← PulseRecord.toRec_toNat, ← recordByte0_toNat, BitVec.ofNat_toNat, BitVec.setWidth_eq]

theorem recordByte1_eq_ofNat (r : PulseRecord) :
    recordByte1 r = BitVec.ofNat 8 ((r.level.toNat * 32768 + r.duration.toNat) % 256) := by
  rw [← PulseRecord.toRec_toNat, ← recordByte1_toNat, BitVec.ofNat_toNat, BitVec.setWidth_eq]

/-- Records written to PULSE are read back. -/
theorem recordsOf_flatMap_recordBytes (rs : List PulseRecord) : recordsOf (rs.flatMap recordBytes) = rs := by
  induction rs with
  | nil => rfl
  | cons r rs ih =>
    obtain ⟨_, _, hbytes⟩ := recordBytesRoundTrip.1 r
    rw [List.flatMap_cons]
    exact congrArg₂ List.cons hbytes ih

/-- A push writes the slot at the tail, and no other. -/
theorem Ring.push_read_other {cap a : Nat} {r : Ring} (v : Byte) (hmem : r.mem.wf = true) (ht : r.tail ≤ cap)
    (ha : a ≠ r.tail) : (r.push cap v).mem.read a = r.mem.read a := by
  rw [Ring.push, slotOf_eq ht]
  exact Memory.read_write_other v hmem ha

section
variable (s : State)

/-- An emission is the two pushes of the record's bytes. -/
theorem run_push_recordBytes (r : PulseRecord) :
    run [.rbPush .pulse (recordByte0 r), .rbPush .pulse (recordByte1 r)] s = .next (s.emit r) := rfl

theorem State.rbPush_pulse_raw (v : Byte) : (s.rbPush .pulse v).raw = s.raw := by
  rcases s.rbPush_cases .pulse v with ⟨_, e⟩ | ⟨_, e⟩ <;> simp [e]

theorem State.emit_raw (r : PulseRecord) : (s.emit r).raw = s.raw := by
  rw [State.emit, State.rbPush_pulse_raw, State.rbPush_pulse_raw]

theorem State.emit_pulse (r : PulseRecord) : (s.emit r).pulse =
    (s.pulse.push s.cfg.pulseCap (recordByte0 r)).push s.cfg.pulseCap (recordByte1 r) := by
  have hfirst := s.rbPush_ring .pulse (recordByte0 r)
  have hsecond := (s.rbPush .pulse (recordByte0 r)).rbPush_ring .pulse (recordByte1 r)
  rwa [hfirst, State.rbPush_cap] at hsecond

/-- An emission writes the two slots at PULSE's tail, and no other. -/
theorem State.emit_pulse_read_other {a : Nat} (r : PulseRecord) (hmem : s.pulse.mem.wf = true)
    (ht : s.pulse.tail ≤ s.cfg.pulseCap) (h0 : a ≠ s.pulse.tail) (h1 : a ≠ nextSlot s.cfg.pulseCap s.pulse.tail) :
    (s.emit r).pulse.mem.read a = s.pulse.mem.read a := by
  rw [State.emit_pulse, Ring.push_read_other _ (Memory.write_wf _ _ hmem) (nextSlot_le _ _) h1,
    Ring.push_read_other _ hmem ht h0]

end

section
variable {s : State}

/-- A push drops as many bytes as do not fit. -/
theorem State.rbPush_drops {b : RingId} (h : RingReady b s) (v : Byte) :
    (s.rbPush b v).drops =
      s.drops ++ List.replicate ((s.queue b).length + 1 - s.cap b) (overflowCause b) := by
  obtain ⟨_, hh, ht, _⟩ := h
  have hle := s.queue_length_le b
  have hfull : (s.ring b).isFull (s.cap b) = true ↔ (s.queue b).length = s.cap b := by
    rw [Ring.isFull_iff_length hh ht, State.queue, Ring.queue_length]
  rcases s.rbPush_cases b v with ⟨hroom, e⟩ | ⟨hloss, e⟩ <;> rw [e]
  · have hlt : (s.queue b).length ≠ s.cap b := fun h => Bool.false_ne_true (hroom.symm.trans (hfull.mpr h))
    rw [Nat.sub_eq_zero_of_le (by omega), List.replicate_zero, List.append_nil, State.setRing_drops]
  · rw [hfull.mp hloss, Nat.add_sub_cancel_left, State.drop_drops, State.setRing_drops]
    rfl

theorem RingReady.emit (h : RingReady .pulse s) (r : PulseRecord) : RingReady .pulse (s.emit r) :=
  (h.rbPush _).rbPush _

/-- An emission keeps the last `CAP` bytes of the queue and the record. -/
theorem State.emit_queue (h : RingReady .pulse s) (r : PulseRecord) :
    (s.emit r).queue .pulse = (s.queue .pulse ++ recordBytes r).rtake s.cfg.pulseCap := by
  rw [State.emit, State.rbPush_queue (h.rbPush _), State.rbPush_queue h, State.rbPush_cap, rtake_append_rtake,
    List.append_assoc]
  rfl

/-- An emission drops as many bytes as do not fit. -/
theorem State.emit_drops (h : RingReady .pulse s) (r : PulseRecord) :
    (s.emit r).drops =
      s.drops ++ List.replicate ((s.queue .pulse).length + 2 - s.cfg.pulseCap) .pulseOverflow := by
  have hcap : 1 ≤ s.cfg.pulseCap := h.1
  have hle : (s.queue .pulse).length ≤ s.cfg.pulseCap := s.queue_length_le .pulse
  have hlen : ((s.rbPush .pulse (recordByte0 r)).queue .pulse).length =
      (s.queue .pulse).length + 1 - ((s.queue .pulse).length + 1 - s.cfg.pulseCap) := by
    rw [State.rbPush_queue h, List.rtake, List.length_drop, List.length_append, List.length_singleton, State.cap_pulse]
  rw [State.emit, State.rbPush_drops (h.rbPush _), State.rbPush_drops h, State.rbPush_cap, hlen, List.append_assoc]
  simp only [State.cap_pulse, overflowCause, List.replicate_append_replicate]
  congr 2
  omega

end

/-- Settles O23: of a full queue and the record's two bytes the last `CAP` are kept, so two bytes do not fit. -/
theorem emissionIntoFullPulseDropsTwoBytes : Obligations.EmissionIntoFullPulseDropsTwoBytes := by
  intro x s hcap hr hx hfull
  have hready : RingReady .pulse s := ⟨Nat.one_le_of_lt hcap, hr⟩
  have hqueue := State.emit_queue hready ⟨s.rle.level, s.rle.count⟩
  have hdrops := State.emit_drops hready ⟨s.rle.level, s.rle.count⟩
  rw [List.rtake, List.length_append, hfull, recordBytes_length, Nat.add_sub_cancel_left,
    List.drop_append_of_le_length (hfull ▸ hcap)] at hqueue
  rw [hfull, Nat.add_sub_cancel_left] at hdrops
  refine ⟨_, exec_rleBit s x, ?_⟩
  rcases s.rleBit_cases x with ⟨h, _⟩ | ⟨_, e⟩
  · exact absurd h hx
  · rw [e]
    exact ⟨hqueue, hdrops⟩

/-! ## One RLE.BIT (42_run_length_encoder.md R151, R153) -/

/-- Settles O22: the two cases of RLE.BIT; the emission is the two pushes, which write the two slots at PULSE's tail. -/
theorem rleBitExtendsOrClosesTheRun : Obligations.RleBitExtendsOrClosesTheRun := by
  intro x s hmem ht
  rw [exec_rleBit]
  rcases s.rleBit_cases x with ⟨h, e⟩ | ⟨h, e⟩ <;> rw [e]
  · exact ⟨fun _ => rfl, fun hne => absurd h hne⟩
  · refine ⟨fun he => absurd he h, fun _ =>
      ⟨_, s.emit ⟨s.rle.level, s.rle.count⟩, rfl, ?_, rfl, fun a h0 h1 => ?_, fun a => ?_⟩⟩
    · rw [← run_push_recordBytes, recordByte0_eq_ofNat, recordByte1_eq_ofNat]
    · exact s.emit_pulse_read_other _ hmem ht h0 h1
    · exact congrArg (·.mem.read a) (s.emit_raw _)

/-- Settles O24, by induction on the number of samples: a count that stopped at the largest stays there. -/
theorem runsSaturate : Obligations.RunsSaturate := by
  intro n
  induction n with
  | zero =>
    intro s
    have hcount : min (s.rle.count.toNat + 0) 32767 = s.rle.count.toNat := by
      have := s.rle.count.isLt
      omega
    rw [hcount, BitVec.ofNat_toNat, BitVec.setWidth_eq]
    rfl
  | succ n ih =>
    intro s
    have hstep : s.rleBit s.rle.level = { s with rle := ⟨s.rle.level, saturatingSucc s.rle.count⟩ } := by
      rcases s.rleBit_cases s.rle.level with ⟨_, e⟩ | ⟨h, _⟩
      · exact e
      · exact absurd rfl h
    have hcount : min ((saturatingSucc s.rle.count).toNat + n) 32767 = min (s.rle.count.toNat + (n + 1)) 32767 := by
      rw [saturatingSucc_toNat, durMax]
      omega
    have hrest := ih (s.rleBit s.rle.level)
    rw [hstep] at hrest
    rw [List.replicate_succ, run_cons_of_next (exec_rleBit s _), hstep, hrest, hcount]

/-! ## Samples in sequence (42_run_length_encoder.md R154) -/

theorem run_rleBits (bits : List Bool) (s : State) : run (bits.map .rleBit) s = .next (bits.foldl State.rleBit s) := by
  induction bits generalizing s with
  | nil => rfl
  | cons x bits ih => rw [List.map_cons, run_cons_of_next (exec_rleBit s x), ih, List.foldl_cons]

/-- Settles O25: the two cases of RLE.STEP; RAW's head, being in its range, names the slot read. -/
theorem rleStepEncodesOneByte : Obligations.RleStepEncodesOneByte := by
  intro s hh
  rw [exec_rleStep]
  rcases s.rleStep_cases with ⟨h, e⟩ | ⟨h, e⟩ <;> rw [e]
  · exact ⟨fun _ => rfl, fun hne => absurd h hne⟩
  · refine ⟨fun he => absurd he h, fun _ => ⟨_, rfl, ?_⟩⟩
    rw [slotOf_eq hh, samplesOf_eq_map_range, ← run_rleBits, List.map_map]
    rfl

/-! ## What a sequence of samples emits -/

/-- The encoder after one more sample (R151). -/
def Encoder.account (e : Encoder) (x : Bool) : Encoder := ⟨x, if x = e.level then saturatingSucc e.count else 1#15⟩

/-- The records of the runs that samples close, in order (R151). -/
def Encoder.records : Encoder → List Bool → List PulseRecord
  | _, [] => []
  | e, x :: xs =>
    if x = e.level then (e.account x).records xs else ⟨e.level, e.count⟩ :: (e.account x).records xs

theorem State.rleBit_rle (s : State) (x : Bool) : (s.rleBit x).rle = s.rle.account x := by
  rcases s.rleBit_cases x with ⟨h, e⟩ | ⟨h, e⟩ <;> rw [e, Encoder.account]
  · rw [if_pos h]
  · rw [if_neg h]

theorem State.foldl_rleBit_rle (bits : List Bool) (s : State) :
    (bits.foldl State.rleBit s).rle = bits.foldl Encoder.account s.rle := by
  induction bits generalizing s with
  | nil => rfl
  | cons x bits ih => rw [List.foldl_cons, List.foldl_cons, ih, State.rleBit_rle]

section
variable {s : State}

theorem RingReady.rleBit (h : RingReady .pulse s) (x : Bool) : RingReady .pulse (s.rleBit x) := by
  rcases s.rleBit_cases x with ⟨_, e⟩ | ⟨_, e⟩ <;> rw [e]
  · exact h
  · exact h.emit _

theorem State.rleBit_observedSince (x : Bool) : ObservedSince s (s.rleBit x) :=
  have h := (keptByAllUpdates_observedSince s).toKeptByTaskUpdates
  h.rleBit (fun _ r => h.emit r) x (ObservedSince.refl s)

theorem State.foldl_rleBit_observedSince (bits : List Bool) : ObservedSince s (bits.foldl State.rleBit s) :=
  have h := (keptByAllUpdates_observedSince s).toKeptByTaskUpdates
  List.foldlRecOn _ _ (ObservedSince.refl s) fun _ ht x _ => h.rleBit (fun _ r => h.emit r) x ht

/-- What is observed is never taken back, so no later state has fewer overflows of PULSE noted. -/
theorem ObservedSince.count_drops_le {t : State} (h : ObservedSince s t) (d : DropCause) :
    s.drops.count d ≤ t.drops.count d := h.2.2.sublist.count_le d

/-- A record that overflows nothing is appended to the queue. -/
theorem State.emit_queue_of_noOverflow (h : RingReady .pulse s) (r : PulseRecord)
    (hno : (s.emit r).drops.count .pulseOverflow = s.drops.count .pulseOverflow) :
    (s.emit r).queue .pulse = s.queue .pulse ++ recordBytes r := by
  rw [State.emit_drops h, List.count_append, List.count_replicate_self] at hno
  have hfits : (s.queue .pulse ++ recordBytes r).length ≤ s.cfg.pulseCap := by
    rw [List.length_append, recordBytes_length]
    omega
  rw [State.emit_queue h, List.rtake, Nat.sub_eq_zero_of_le hfits, List.drop_zero]

/-- Samples that overflow nothing append the records of the runs they close. -/
theorem State.foldl_rleBit_queue (h : RingReady .pulse s) (bits : List Bool)
    (hno : (bits.foldl State.rleBit s).drops.count .pulseOverflow = s.drops.count .pulseOverflow) :
    (bits.foldl State.rleBit s).queue .pulse = s.queue .pulse ++ (s.rle.records bits).flatMap recordBytes := by
  induction bits generalizing s with
  | nil => exact (List.append_nil _).symm
  | cons x bits ih =>
    have hfirst := (State.rleBit_observedSince (s := s) x).count_drops_le .pulseOverflow
    have hlast := (State.foldl_rleBit_observedSince (s := s.rleBit x) bits).count_drops_le .pulseOverflow
    rw [List.foldl_cons] at hno ⊢
    rw [ih (h.rleBit x) (by omega), State.rleBit_rle, Encoder.records]
    have hnone : (s.rleBit x).drops.count .pulseOverflow = s.drops.count .pulseOverflow := by omega
    rcases s.rleBit_cases x with ⟨hx, e⟩ | ⟨hx, e⟩ <;> rw [e] at hnone ⊢
    · rw [if_pos hx]
      rfl
    · have hemit := State.emit_queue_of_noOverflow h _ hnone
      rw [if_neg hx, List.flatMap_cons, ← List.append_assoc, ← hemit]
      rfl

/-- From an empty PULSE, samples that overflow nothing leave the records of the runs they close. -/
theorem recordsOf_run_rleBits {t : State} {bits : List Bool} (hcap : 2 ≤ s.cfg.pulseCap)
    (hr : RingLegal s.cfg.pulseCap s.pulse) (hempty : s.pulse.head = s.pulse.tail)
    (hrun : run (bits.map .rleBit) s = .next t) (hno : NoOverflow s t) :
    recordsOf (t.queue .pulse) = s.rle.records bits ∧ t.rle = bits.foldl Encoder.account s.rle := by
  have hnil : s.queue .pulse = [] := (Ring.queue_eq_nil_iff hr.1 hr.2.1).mpr hempty
  rw [run_rleBits] at hrun
  cases hrun
  have hqueue := State.foldl_rleBit_queue ⟨Nat.one_le_of_lt hcap, hr⟩ bits hno.2
  rw [hqueue, hnil, List.nil_append, recordsOf_flatMap_recordBytes]
  exact ⟨rfl, State.foldl_rleBit_rle bits s⟩

end

/-! ## Run-length fidelity (42_run_length_encoder.md R157) -/

/-- No run of `xs` is longer than a count can hold. -/
def RunsFit (xs : List Bool) : Prop := ∀ (x : Bool) (n : Nat), List.replicate n x <:+: xs → n ≤ durMax

theorem RunsFit.of_infix {xs ys : List Bool} (h : RunsFit ys) (hxs : xs <:+: ys) : RunsFit xs :=
  fun x n hrun => h x n (hrun.trans hxs)

/-- The samples of the pending run (R156). -/
def Encoder.pending (e : Encoder) : List Bool := List.replicate e.count.toNat e.level

theorem Encoder.count_pending (e : Encoder) (x : Bool) :
    e.pending.count x = if e.level = x then e.count.toNat else 0 := by
  rw [Encoder.pending, List.count_replicate]
  simp only [beq_iff_eq]

/-- A count that does not saturate takes the sample into the pending run. -/
theorem Encoder.pending_account_same {e : Encoder} {xs : List Bool} (h : RunsFit (e.pending ++ e.level :: xs)) :
    (e.account e.level).pending ++ xs = e.pending ++ e.level :: xs := by
  have hpending : List.replicate (e.count.toNat + 1) e.level ++ xs = e.pending ++ e.level :: xs := by
    rw [List.replicate_succ', List.append_assoc, List.singleton_append, Encoder.pending]
  have hfit : e.count.toNat + 1 ≤ durMax := h _ _ (hpending ▸ (List.prefix_append _ _).isInfix)
  have hcount : (e.account e.level).count.toNat = e.count.toNat + 1 := by
    rw [Encoder.account, if_pos rfl, saturatingSucc_toNat, Nat.min_eq_left hfit]
  rw [← hpending, Encoder.pending, hcount]
  rfl

/-- A sample of the other level opens a run of one tick. -/
theorem Encoder.pending_account_other {e : Encoder} {x : Bool} (h : x ≠ e.level) : (e.account x).pending = [x] := by
  rw [Encoder.account, if_neg h]
  rfl

/-- Every sample, the pending run's among them, is in one closed run or in the run pending at the end. -/
theorem Encoder.ticksAt_records_add_pending (x : Bool) (e : Encoder) (bits : List Bool) (h : RunsFit (e.pending ++ bits)) :
    ticksAt x (e.records bits) + (bits.foldl Encoder.account e).pending.count x = (e.pending ++ bits).count x := by
  induction bits generalizing e with
  | nil => rw [Encoder.records, ticksAt, Nat.zero_add, List.foldl_nil, List.append_nil]
  | cons y bits ih =>
    rw [List.foldl_cons, Encoder.records]
    by_cases hy : y = e.level
    · subst hy
      have hsame := Encoder.pending_account_same h
      rw [if_pos rfl, ih _ (hsame ▸ h), hsame]
    · have hother : (e.account y).pending ++ bits = y :: bits := by
        rw [Encoder.pending_account_other hy, List.singleton_append]
      rw [if_neg hy, ticksAt, Nat.add_assoc, ih _ (hother ▸ h.of_infix (List.suffix_append _ _).isInfix), hother,
        List.count_append, Encoder.count_pending]

/-- Settles O26: from reset no run is pending, so the samples of closed and pending runs are those of the sequence. -/
theorem runLengthsAreExact : Obligations.RunLengthsAreExact := by
  intro bits s t hcap hr hempty hreset hfit hrun hno x
  obtain ⟨hrecords, hrle⟩ := recordsOf_run_rleBits hcap hr hempty hrun hno
  rw [hrecords, ← Encoder.count_pending, hrle, hreset]
  exact Encoder.ticksAt_records_add_pending x ⟨false, 0#15⟩ bits hfit

/-! ## Alternation (42_run_length_encoder.md R155, R158) -/

/-- A run has a tick at least from its first sample on. -/
theorem Encoder.one_le_account_count (e : Encoder) (x : Bool) : 1 ≤ (e.account x).count.toNat := by
  rw [Encoder.account]
  split
  · rw [saturatingSucc_toNat, durMax]
    omega
  · exact le_rfl

/-- Closed runs alternate from the encoder's level on, and only a run pending at the start can have no tick. -/
theorem Encoder.records_alternate {e : Encoder} {bits : List Bool} {k : Nat} {r : PulseRecord}
    (h : (e.records bits)[k]? = some r) :
    r.level = (e.level ^^ decide (k % 2 = 1)) ∧ (0 < k ∨ 1 ≤ e.count.toNat → 1 ≤ r.duration.toNat) := by
  induction bits generalizing e k with
  | nil => cases h
  | cons x bits ih =>
    rw [Encoder.records] at h
    split at h
    · next hx =>
      obtain ⟨hlevel, hticks⟩ := ih h
      exact ⟨hx ▸ hlevel, fun _ => hticks (.inr (e.one_le_account_count x))⟩
    · next hx =>
      cases k with
      | zero =>
        cases h
        simp
      | succ k =>
        obtain ⟨hlevel, hticks⟩ := ih h
        have hflip : (e.account x).level = !e.level := Bool.eq_not_of_ne hx
        have hparity : decide ((k + 1) % 2 = 1) = !decide (k % 2 = 1) := by
          rw [← decide_not, decide_eq_decide]
          omega
        refine ⟨?_, fun _ => hticks (.inr (e.one_le_account_count x))⟩
        rw [hlevel, hflip, hparity, Bool.not_xor, Bool.xor_not]

/-- Settles O27: the records left in PULSE are the runs closed from reset, which is at low with no tick. -/
theorem emittedRecordsAlternate : Obligations.EmittedRecordsAlternate := by
  intro bits s t hcap hr hempty hreset hrun hno k r hk
  rw [(recordsOf_run_rleBits hcap hr hempty hrun hno).1, hreset] at hk
  obtain ⟨hlevel, hticks⟩ := Encoder.records_alternate hk
  exact ⟨by simpa using hlevel, fun hpos => hticks (.inl hpos)⟩

end Sys2Proof.Machine

/-! PROOFS. The frame decoder (43_frame_decoder.md): one record, one pair, DEC.STEP, a whole frame, and recovery. -/

namespace Sys2Proof.Machine

/-! ## Classification of a data pair (43_frame_decoder.md R173, R174) -/

theorem one_le_dataMinRatio {cfg : Config} (h : cfg.legal = true) : 1 ≤ cfg.dataMinRatio := by
  simp only [Config.legal, Config.dataRatiosLegal, Bool.and_eq_true, decide_eq_true_eq] at h
  omega

/-- A high that exceeds `DMIN` times the low is not shorter than it, so a pair is never both a 1 and a 0. -/
theorem isZero_eq_false_of_isOne {cfg : Config} {t1 t2 : Nat} (hcfg : cfg.legal = true) (h : isOne cfg t1 t2 = true) :
    isZero cfg t1 t2 = false := by
  have hmin := one_le_dataMinRatio hcfg
  rw [← Bool.not_eq_true, isZero_iff]
  rintro ⟨hzero, _⟩
  have hone : t2 * cfg.dataMinRatio < t1 := ((isOne_iff cfg t1 t2).mp h).1
  have h1 := Nat.le_mul_of_pos_right t1 hmin
  have h2 := Nat.le_mul_of_pos_right t2 hmin
  omega

theorem classify_eq_none_iff (cfg : Config) (t1 t2 : Nat) :
    classify cfg t1 t2 = none ↔ ¬ isOne cfg t1 t2 = true ∧ ¬ isZero cfg t1 t2 = true := by
  unfold classify
  cases isOne cfg t1 t2 <;> cases isZero cfg t1 t2 <;> simp

/-- That `is_one` is tested first decides nothing: each data bit has its own test. -/
theorem classify_eq_some_iff {cfg : Config} {t1 t2 : Nat} {x : Bool} (hcfg : cfg.legal = true) :
    classify cfg t1 t2 = some x ↔ (if x then isOne cfg t1 t2 else isZero cfg t1 t2) = true := by
  unfold classify
  cases hone : isOne cfg t1 t2 with
  | false => cases x <;> simp
  | true =>
    have hzero := isZero_eq_false_of_isOne hcfg hone
    cases x <;> simp [hzero]

/-- A pair is a data bit by the products of R173. -/
theorem classify_of_products {cfg : Config} {t1 t2 : Nat} {x : Bool} (hcfg : cfg.legal = true)
    (h : if x then t2 * cfg.dataMinRatio < t1 ∧ t1 ≤ t2 * cfg.dataMaxRatio
      else t1 * cfg.dataMinRatio < t2 ∧ t2 ≤ t1 * cfg.dataMaxRatio) : classify cfg t1 t2 = some x := by
  rw [classify_eq_some_iff hcfg]
  cases x with
  | true => exact (isOne_iff cfg t1 t2).mpr h
  | false => exact (isZero_iff cfg t1 t2).mpr h

/-! ## One record and the two tests (43_frame_decoder.md R167 to R176) -/

section
variable {s : State} {d : Duration} {t1 t2 : Nat}

theorem State.decPulse_high (s : State) (d : Duration) : s.decPulse ⟨true, d⟩ = { s with
    dec := { s.dec with t1 := d, t1Valid := true }
    drops := s.drops ++ (if s.dec.t1Valid then [.highReplaced] else []) } := by
  cases hv : s.dec.t1Valid with
  | false => simp [State.decPulse, hv]
  | true => simp [State.decPulse, hv, State.drop]

theorem State.decPulse_low_of_no_t1 (hv : s.dec.t1Valid = false) : s.decPulse ⟨false, d⟩ = s.drop .lowSkipped := by
  simp [State.decPulse, hv]

theorem State.decPulse_low_of_seekingSync (hv : s.dec.t1Valid = true) (hp : s.dec.phase = .seekingSync) :
    s.decPulse ⟨false, d⟩ =
      ({ s with dec := { s.dec with t1Valid := false } } : State).syncTest s.dec.t1.toNat d.toNat := by
  simp [State.decPulse, hv, hp]

theorem State.decPulse_low_of_receivingData (hv : s.dec.t1Valid = true) (hp : s.dec.phase = .receivingData) :
    s.decPulse ⟨false, d⟩ =
      ({ s with dec := { s.dec with t1Valid := false } } : State).bitTest s.dec.t1.toNat d.toNat := by
  simp [State.decPulse, hv, hp]

theorem State.syncTest_of_ok (h : syncOk s.cfg t1 t2 = true) : s.syncTest t1 t2 =
    { s with dec := { s.dec with bitCount := 0, code := zeroCode, phase := .receivingData } } := if_pos h

theorem State.syncTest_of_not_ok (h : ¬ syncOk s.cfg t1 t2 = true) : s.syncTest t1 t2 = s.drop .badSync := if_neg h

theorem State.bitTest_of_none (h : classify s.cfg t1 t2 = none) :
    s.bitTest t1 t2 = ({ s with dec := { s.dec with phase := .seekingSync } } : State).drop .badBit := by
  rw [State.bitTest, h]

theorem State.bitTest_of_lt {x : Bool} (h : classify s.cfg t1 t2 = some x) (hb : s.dec.bitCount < 23) :
    s.bitTest t1 t2 = { s with dec := { s.dec with
      code := writeCodeBit s.dec.code s.dec.bitCount x, bitCount := s.dec.bitCount + 1 } } := by
  rw [State.bitTest, h]
  exact if_neg (by rw [frameBits]; omega)

/-- The 24th bit completes the frame. -/
theorem State.bitTest_of_last {x : Bool} (h : classify s.cfg t1 t2 = some x) (hb : s.dec.bitCount = 23) :
    s.bitTest t1 t2 = ({ s with dec := { s.dec with
      code := writeCodeBit s.dec.code 23 x, bitCount := 24, phase := .seekingSync } } : State).fltFrame
        (writeCodeBit s.dec.code 23 x) := by
  rw [State.bitTest, h, hb]
  rfl

end

/-- Settles O28: the records that complete no pair. -/
theorem decPulseFormsPairs : Obligations.DecPulseFormsPairs := by
  intro d s
  rw [exec_decPulse, exec_decPulse, s.decPulse_high d]
  exact ⟨rfl, fun hv => congrArg _ (State.decPulse_low_of_no_t1 hv)⟩

/-- Settles O29: the two outcomes of SYNC_TEST. -/
theorem syncPairStartsAFrame : Obligations.SyncPairStartsAFrame := by
  intro d s hv hp
  rw [exec_decPulse, State.decPulse_low_of_seekingSync hv hp, ← syncOk_iff]
  exact ⟨fun h => congrArg Host.Outcome.next (State.syncTest_of_ok h),
    fun h => congrArg Host.Outcome.next (State.syncTest_of_not_ok h)⟩

/-- Settles O30: the three outcomes of BIT_TEST. -/
theorem dataPairIsABitOrAbandonsTheFrame : Obligations.DataPairIsABitOrAbandonsTheFrame := by
  intro d s hcfg hv hp _
  rw [exec_decPulse, State.decPulse_low_of_receivingData hv hp]
  refine ⟨fun x hx => ?_, fun hnone => ?_⟩
  · have hbit : classify s.cfg s.dec.t1.toNat d.toNat = some x := classify_of_products hcfg hx
    refine ⟨fun hb => ?_, fun hb => ⟨_, rfl, ?_⟩⟩
    · rw [← hp]
      exact congrArg Host.Outcome.next (State.bitTest_of_lt hbit hb)
    · rw [exec_fltFrame]
      exact Eq.symm (congrArg Host.Outcome.next (State.bitTest_of_last hbit hb))
  · rw [← isOne_iff, ← isZero_iff, ← classify_eq_none_iff] at hnone
    exact congrArg Host.Outcome.next (State.bitTest_of_none hnone)

/-! ## DEC.STEP (43_frame_decoder.md R177) -/

theorem recordOfBytes_eq_ofNat (b0 b1 : Byte) :
    recordOfBytes b0 b1 = PulseRecord.ofRec (BitVec.ofNat 16 (b0.toNat * 256 + b1.toNat)) := by
  have hsum : (b0 ++ b1).toNat = b0.toNat * 256 + b1.toNat := toNat_append_eq_add b0 b1
  rw [recordOfBytes, ← hsum, BitVec.ofNat_toNat, BitVec.setWidth_eq]

/-- The two oldest bytes of a ring that holds as many, and what their pops leave. -/
theorem Ring.queue_eq_cons_cons {cap : Nat} {r : Ring} (hh : r.head ≤ cap) (ht : r.tail ≤ cap) (hlen : 2 ≤ r.length cap) :
    r.queue cap = r.mem.read r.head :: r.mem.read (nextSlot cap r.head) ::
      ({ r with head := nextSlot cap (nextSlot cap r.head) } : Ring).queue cap := by
  have hadv := Ring.length_advance hh ht (by omega)
  have hne : r.head ≠ r.tail := fun e => by
    have := (Ring.length_eq_zero_iff hh ht).mpr e
    omega
  have hne' : nextSlot cap r.head ≠ r.tail := fun e => by
    have := (Ring.length_eq_zero_iff (r := { r with head := nextSlot cap r.head }) (nextSlot_le _ _) ht).mpr e
    omega
  rw [Ring.queue_eq_cons hh ht hne, slotOf_eq hh,
    Ring.queue_eq_cons (r := { r with head := nextSlot cap r.head }) (nextSlot_le _ _) ht hne', slotOf_nextSlot]

theorem nextSlot_nextSlot (cap i : Nat) : nextSlot cap (nextSlot cap i) = (i + 2) % (cap + 1) :=
  Nat.mod_add_mod (i + 1) (cap + 1) 1

/-- Settles O31: the two cases of DEC.STEP, told apart by the length of PULSE's queue. -/
theorem decStepPopsOneRecord : Obligations.DecStepPopsOneRecord := by
  intro s hh ht
  rw [exec_decStep, State.queue, State.ring_pulse, State.cap_pulse, Ring.queue_length]
  rcases s.decStep_cases hh ht with ⟨h, e⟩ | ⟨h, e⟩ <;> rw [e]
  · exact ⟨fun _ => rfl, fun h2 => absurd h (by omega)⟩
  · refine ⟨fun h2 => absurd h (by omega), fun _ =>
      ⟨_, _, _, _, Ring.queue_eq_cons_cons hh ht h, rfl, ?_⟩⟩
    rw [exec_decPulse, ← recordOfBytes_eq_ofNat, nextSlot_nextSlot]

/-! ## Pairs in sequence -/

/-- The two records of a pair, the high one first. -/
def State.pulsePair (s : State) (p : Duration × Duration) : State := (s.decPulse ⟨true, p.1⟩).decPulse ⟨false, p.2⟩

theorem run_decPair (p : Duration × Duration) (s : State) : run (decPair p.1 p.2) s = .next (s.pulsePair p) := rfl

theorem run_decPairs (pairs : List (Duration × Duration)) (s : State) :
    run (pairs.flatMap fun p => decPair p.1 p.2) s = .next (pairs.foldl State.pulsePair s) := by
  induction pairs generalizing s with
  | nil => rfl
  | cons p pairs ih => rw [List.flatMap_cons, run_append_of_next (run_decPair p s), ih, List.foldl_cons]

/-- The state in which a pair is tested: its high record replaced the one held, if any, and was consumed. -/
def State.paired (s : State) (t1 : Duration) : State := { s with
  dec := { s.dec with t1 := t1, t1Valid := false }
  drops := s.drops ++ (if s.dec.t1Valid then [.highReplaced] else []) }

section
variable {s : State} {p : Duration × Duration}

theorem State.paired_of_no_t1 (hv : s.dec.t1Valid = false) (t1 : Duration) :
    s.paired t1 = { s with dec := { s.dec with t1 := t1, t1Valid := false } } := by
  rw [State.paired, hv, if_neg Bool.false_ne_true, List.append_nil]

theorem State.pulsePair_of_seekingSync (hp : s.dec.phase = .seekingSync) :
    s.pulsePair p = (s.paired p.1).syncTest p.1.toNat p.2.toNat := by
  rw [State.pulsePair, State.decPulse_high]
  exact State.decPulse_low_of_seekingSync rfl hp

theorem State.pulsePair_of_receivingData (hp : s.dec.phase = .receivingData) :
    s.pulsePair p = (s.paired p.1).bitTest p.1.toNat p.2.toNat := by
  rw [State.pulsePair, State.decPulse_high]
  exact State.decPulse_low_of_receivingData rfl hp

end

/-! ## A whole frame (43_frame_decoder.md R171 to R175) -/

/-- A code after data bits are written from index `i` on. -/
def writeCodeBits : Code → Nat → List Bool → Code
  | c, _, [] => c
  | c, i, x :: xs => writeCodeBits (writeCodeBit c i x) (i + 1) xs

theorem codeBit_writeCodeBits_of_lt {c : Code} {i j : Nat} {bits : List Bool} (hlen : i + bits.length ≤ 24) (hj : j < i) :
    codeBit (writeCodeBits c i bits) j = codeBit c j := by
  induction bits generalizing c i with
  | nil => rfl
  | cons x bits ih =>
    rw [List.length_cons] at hlen
    rw [writeCodeBits, ih (by omega) (by omega), codeBitWriteTouchesOneBit c i x (by omega) j (by omega), if_neg hj.ne]

theorem codeBit_writeCodeBits {c : Code} {i k : Nat} {x : Bool} {bits : List Bool} (hlen : i + bits.length ≤ 24)
    (hk : bits[k]? = some x) : codeBit (writeCodeBits c i bits) (i + k) = x := by
  induction bits generalizing c i k with
  | nil => cases hk
  | cons y bits ih =>
    rw [List.length_cons] at hlen
    rw [writeCodeBits]
    cases k with
    | zero =>
      cases hk
      rw [codeBit_writeCodeBits_of_lt (by omega) (by omega), Nat.add_zero,
        codeBitWriteTouchesOneBit c i x (by omega) i (by omega), if_pos rfl]
    | succ k =>
      rw [show i + (k + 1) = i + 1 + k by omega]
      exact ih (by omega) hk

section
variable {s : State} {p : Duration × Duration} {c : Code} {t1 : Duration} {x : Bool}

theorem State.pulsePair_of_bit {i : Nat} (hx : classify s.cfg p.1.toNat p.2.toNat = some x) (hi : i < 23) :
    State.pulsePair { s with dec := ⟨.receivingData, i, c, false, t1⟩ } p =
      { s with dec := ⟨.receivingData, i + 1, writeCodeBit c i x, false, p.1⟩ } := by
  rw [State.pulsePair_of_receivingData rfl, State.paired_of_no_t1 rfl]
  exact State.bitTest_of_lt hx hi

theorem State.pulsePair_of_last_bit (hx : classify s.cfg p.1.toNat p.2.toNat = some x) :
    State.pulsePair { s with dec := ⟨.receivingData, 23, c, false, t1⟩ } p =
      ({ s with dec := ⟨.seekingSync, 24, writeCodeBit c 23 x, false, p.1⟩ } : State).fltFrame (writeCodeBit c 23 x) := by
  rw [State.pulsePair_of_receivingData rfl, State.paired_of_no_t1 rfl]
  exact State.bitTest_of_last hx rfl

end

/-- The pairs of the frame's remaining data bits bring its code to the filter. -/
theorem State.foldl_pulsePair_frame {s : State} {i : Nat} {c : Code} {t1 : Duration} {pairs : List (Duration × Duration)}
    {bits : List Bool} {last : Duration × Duration}
    (hbits : List.Forall₂ (fun p x => classify s.cfg p.1.toNat p.2.toNat = some x) pairs bits)
    (hcount : i + bits.length = 24) (hlast : pairs.getLast? = some last) :
    pairs.foldl State.pulsePair { s with dec := ⟨.receivingData, i, c, false, t1⟩ } =
      ({ s with dec := ⟨.seekingSync, 24, writeCodeBits c i bits, false, last.1⟩ } : State).fltFrame
        (writeCodeBits c i bits) := by
  induction hbits generalizing i c t1 with
  | nil => cases hlast
  | @cons p x pairs bits hx hrest ih =>
    rw [List.length_cons] at hcount
    rw [List.foldl_cons, writeCodeBits]
    cases hrest with
    | nil =>
      cases hlast
      obtain rfl : i = 23 := by simpa using hcount
      exact State.pulsePair_of_last_bit hx
    | cons hy hrest =>
      have hlt : i < 23 := by
        rw [List.length_cons] at hcount
        omega
      rw [State.pulsePair_of_bit hx hlt]
      exact ih (by omega) hlast

/-- Settles O32: the sync pair begins a frame at bit 0, and the 24 pairs write all its bits. -/
theorem frameDecodesToItsBits : Obligations.FrameDecodesToItsBits := by
  intro s t1 t2 pairs bits last hcfg hp hv hmin hmax hpairs hlen hlast
  have hsync : s.pulsePair (t1, t2) = { s with dec := ⟨.receivingData, 0, zeroCode, false, t1⟩ } := by
    rw [State.pulsePair_of_seekingSync hp, State.paired_of_no_t1 hv]
    exact State.syncTest_of_ok ((syncOk_iff ..).mpr ⟨hmin, hmax⟩)
  have hbits := hpairs.imp fun _ _ h => classify_of_products hcfg h
  refine ⟨writeCodeBits zeroCode 0 bits, _, fun k x hk => ?_, ?_, exec_fltFrame _ _⟩
  · simpa using codeBit_writeCodeBits (c := zeroCode) (i := 0) (by omega) hk
  · rw [run_append_of_next (run_decPair (t1, t2) s), run_decPairs, hsync,
      State.foldl_pulsePair_frame hbits (by omega) hlast]

/-! ## Recovery (43_frame_decoder.md R184) -/

@[simp] theorem State.fltFrame_dec (s : State) (c : Code) : (s.fltFrame c).dec = s.dec := by
  rcases s.fltFrame_cases c with ⟨_, e⟩ | ⟨_, _, e⟩ | ⟨_, _, _, e⟩ | ⟨_, _, _, e⟩ <;> rw [e] <;> rfl

/-- A pair in ReceivingData ends the frame, or takes it one bit on, short of the 24th. -/
theorem State.pulsePair_ends_or_advances {s : State} (p : Duration × Duration) (hp : s.dec.phase = .receivingData) :
    (s.pulsePair p).dec.phase = .seekingSync ∨
    ((s.pulsePair p).dec.bitCount = s.dec.bitCount + 1 ∧ s.dec.bitCount + 1 ≠ frameBits) := by
  rw [State.pulsePair_of_receivingData hp]
  rcases (s.paired p.1).bitTest_cases p.1.toNat p.2.toNat with ⟨_, e⟩ | ⟨x, _, _, e⟩ | ⟨x, _, hb, e⟩ <;> rw [e]
  · exact .inl rfl
  · exact .inl (by rw [State.fltFrame_dec])
  · exact .inr ⟨rfl, hb⟩

/-- As many pairs as the frame lacks bits reach SeekingSync. -/
theorem State.exists_foldl_pulsePair_seekingSync {s : State} {pairs : List (Duration × Duration)}
    (hle : s.dec.bitCount ≤ 24) (hlt : s.dec.phase = .receivingData → s.dec.bitCount < 24)
    (hlen : 24 ≤ pairs.length + s.dec.bitCount) :
    ∃ k, k + s.dec.bitCount ≤ 24 ∧ ((pairs.take k).foldl State.pulsePair s).dec.phase = .seekingSync := by
  induction pairs generalizing s with
  | nil =>
    cases hp : s.dec.phase with
    | seekingSync => exact ⟨0, by omega, hp⟩
    | receivingData =>
      have := hlt hp
      rw [List.length_nil] at hlen
      omega
  | cons p pairs ih =>
    cases hp : s.dec.phase with
    | seekingSync => exact ⟨0, by omega, hp⟩
    | receivingData =>
      have hnow := hlt hp
      rcases s.pulsePair_ends_or_advances p hp with hend | ⟨hnext, hne⟩
      · exact ⟨1, by omega, hend⟩
      · rw [frameBits] at hne
        rw [List.length_cons] at hlen
        obtain ⟨k, hk, hseek⟩ := ih (s := s.pulsePair p) (by omega) (fun _ => by omega) (by omega)
        exact ⟨k + 1, by omega, hseek⟩

/-- Settles O33: a run of pairs is their fold, which reaches SeekingSync within the bits that the frame lacks. -/
theorem decoderNeverWedges : Obligations.DecoderNeverWedges := by
  intro s pairs hle hlt hlen
  obtain ⟨k, hk, hseek⟩ := State.exists_foldl_pulsePair_seekingSync (pairs := pairs) hle hlt (by omega)
  exact ⟨k, _, hk, run_decPairs (pairs.take k) s, hseek⟩

end Sys2Proof.Machine

/-! PROOFS. The confirmation and refractory filter (44_confirmation_filter.md): one frame, TIMER, REGCB, the window against every
operation, and the source's sequences. -/

namespace Sys2Proof.Machine

/-! ## One frame (44_confirmation_filter.md R191 to R196) -/

section
variable {s : State} {c : Code}

theorem Filter.confirms_eq_false_iff (f : Filter) (c : Code) :
    f.confirms c = false ↔ f.candValid = false ∨ f.cand ≠ c := by
  rw [← Bool.not_eq_true, Filter.confirms_iff, not_and_or, Bool.not_eq_true]

theorem State.fltFrame_of_unconfirmed (h : s.flt.candValid = false ∨ s.flt.cand ≠ c) :
    s.fltFrame c = { s with flt := ⟨true, c, s.flt.refrCnt⟩, drops := s.drops ++ [.unconfirmed] } := by
  rw [State.fltFrame, (Filter.confirms_eq_false_iff ..).mpr h]
  rfl

theorem State.fltFrame_of_window (h : s.flt.candValid = true ∧ s.flt.cand = c) (hw : 0 < s.flt.refrCnt) :
    s.fltFrame c = { s with drops := s.drops ++ [.refractory] } := by
  rw [State.fltFrame, if_pos ((Filter.confirms_iff ..).mpr h), Filter.windowActive, decide_eq_true hw]
  rfl

/-- A confirmed frame outside the window starts it, and then finds a consumer or none. -/
theorem State.fltFrame_of_accepted (h : s.flt.candValid = true ∧ s.flt.cand = c) (hw : s.flt.refrCnt = 0) :
    s.fltFrame c = if s.cb.registered
      then { s with flt := ⟨true, c, s.cfg.refractoryTicks⟩, out := s.out ++ [⟨s.cb.handle, c⟩] }
      else { s with flt := ⟨true, c, s.cfg.refractoryTicks⟩, drops := s.drops ++ [.noCallback] } := by
  rw [State.fltFrame, if_pos ((Filter.confirms_iff ..).mpr h), Filter.windowActive, hw]
  obtain ⟨hvalid, rfl⟩ := h
  simp [hvalid, State.deliver, State.drop]

end

/-- Settles O34: the four outcomes, by whether the code is confirmed, the window active and a consumer registered. -/
theorem frameIsConfirmedThenDelivered : Obligations.FrameIsConfirmedThenDelivered := by
  intro c s
  refine ⟨fun h => ?_, fun h => ⟨fun hw => ?_, fun hw hr => ?_, fun hw hr => ?_⟩⟩ <;> rw [exec_fltFrame]
  · rw [State.fltFrame_of_unconfirmed h]
  · rw [State.fltFrame_of_window h hw]
  · rw [State.fltFrame_of_accepted h hw, if_pos hr]
  · rw [State.fltFrame_of_accepted h hw, hr, if_neg Bool.false_ne_true]

/-- Settles O35: of the four outcomes of a frame, one appends to the deliveries. -/
theorem deliveryExactlyWhenAccepted : Obligations.DeliveryExactlyWhenAccepted := by
  intro c s
  refine ⟨_, exec_fltFrame s c, ?_⟩
  rcases s.fltFrame_cases c with ⟨hc, e⟩ | ⟨_, hw, e⟩ | ⟨hc, hw, hr, e⟩ | ⟨_, _, hr, e⟩ <;> rw [e]
  · have hnot : s.flt.candValid = true → s.flt.cand ≠ c := by
      simpa [or_iff_not_imp_left] using (Filter.confirms_eq_false_iff ..).mp hc
    simp +contextual [hnot]
  · simp [hw.ne']
  · simp [hw, hr, (Filter.confirms_iff ..).mp hc]
  · simp [hr]

/-! ## TIMER and REGCB (44_confirmation_filter.md R197, R198) -/

/-- Settles O36: an inactive window has nothing to take off. -/
theorem timerRunsTheWindowDown : Obligations.TimerRunsTheWindowDown := by
  intro s
  refine ⟨fun _ => exec_timer s, fun hw => ?_⟩
  have hstill : s.flt.refrCnt - 1 = s.flt.refrCnt := by omega
  rw [exec_timer, hstill]

/-- Settles O37, by the one test that REGCB makes. -/
theorem firstRegistrationStays : Obligations.FirstRegistrationStays := by
  intro h s
  refine ⟨fun hr => ?_, fun hr => ?_⟩ <;> rw [exec_regcb, hr]
  · exact congrArg Host.Outcome.next (if_neg Bool.false_ne_true)
  · exact congrArg Host.Outcome.next (if_pos rfl)

theorem run_timerN (n : Nat) (s : State) :
    run (timerN n) s = .next { s with flt := { s.flt with refrCnt := s.flt.refrCnt - n } } := by
  induction n generalizing s with
  | zero => rfl
  | succ n ih =>
    rw [timerN, List.replicate_succ, run_cons_of_next (exec_timer s)]
    refine (ih _).trans ?_
    rw [Nat.sub_sub, Nat.add_comm 1 n]

/-! ## What reaches the filter: TIMER, RESET and frames

Every other sub-step leaves the filter and the deliveries, so what a frame keeps of these two, POLL keeps, and every operation
but TIMER and RESET. -/

/-- The filter, and what was delivered. -/
def State.filterView (s : State) : Filter × List Delivery := (s.flt, s.out)

section
variable (s : State)

theorem State.setRing_filterView (b : RingId) (r : Ring) : (s.setRing b r).filterView = s.filterView := by
  rw [State.filterView, State.setRing_flt, State.setRing_out]
  rfl

theorem State.rbPush_filterView (b : RingId) (v : Byte) : (s.rbPush b v).filterView = s.filterView := by
  rcases s.rbPush_cases b v with ⟨_, e⟩ | ⟨_, e⟩ <;> rw [e]
  · exact s.setRing_filterView b _
  · exact s.setRing_filterView b _

theorem State.rbPop_filterView (b : RingId) : (s.rbPop b).2.filterView = s.filterView := by
  rw [State.rbPop_eq, State.setRing_filterView]

theorem State.sample_filterView (x : Bool) : (s.sample x).filterView = s.filterView := by
  rw [State.sample_frame]
  rfl

theorem State.tick_filterView (x : Bool) : (s.tick x).filterView = s.filterView := by
  rcases s.tick_cases x with ⟨_, e⟩ | ⟨_, e⟩ <;> rw [e]
  · exact s.sample_filterView x
  · rfl

theorem State.foldl_filterView {f : State → Bool → State} (hf : ∀ s x, (f s x).filterView = s.filterView) (xs : List Bool) :
    (xs.foldl f s).filterView = s.filterView :=
  List.foldlRecOn (motive := fun t => t.filterView = s.filterView) xs f rfl fun t ht x _ => (hf t x).trans ht

theorem State.interruptPoint_filterView : s.interruptPoint.filterView = s.filterView := by
  rcases s.interruptPoint_cases with ⟨_, e⟩ | ⟨xs, rest, _, e⟩ <;> rw [e]
  exact State.foldl_filterView _ State.tick_filterView xs

theorem State.emit_filterView (r : PulseRecord) : (s.emit r).filterView = s.filterView := by
  rw [State.emit, State.rbPush_filterView, State.rbPush_filterView]

theorem State.with_rle_filterView (e : Encoder) : ({ s with rle := e } : State).filterView = s.filterView := rfl

theorem State.rleBit_filterView (x : Bool) : (s.rleBit x).filterView = s.filterView := by
  rcases s.rleBit_cases x with ⟨_, e⟩ | ⟨_, e⟩ <;> rw [e, State.with_rle_filterView]
  exact s.emit_filterView _

theorem State.rleStep_filterView : s.rleStep.2.filterView = s.filterView := by
  rcases s.rleStep_cases with ⟨_, e⟩ | ⟨_, e⟩ <;> rw [e]
  exact State.foldl_filterView _ State.rleBit_filterView _

theorem State.syncTest_filterView (t1 t2 : Nat) : (s.syncTest t1 t2).filterView = s.filterView := by
  rcases s.syncTest_cases t1 t2 with ⟨_, e⟩ | ⟨_, e⟩ <;> rw [e] <;> rfl

end

/-- `P` speaks of the filter and the deliveries only, and a frame keeps it. -/
structure KeptByFrames (P : State → Prop) : Prop where
  filterView : ∀ s t, t.filterView = s.filterView → P s → P t
  frame : ∀ s c, P s → P (s.fltFrame c)

section
variable {P : State → Prop} {s t : State}

theorem KeptByFrames.bitTest (h : KeptByFrames P) (t1 t2 : Nat) (hs : P s) : P (s.bitTest t1 t2) := by
  rcases s.bitTest_cases t1 t2 with ⟨_, e⟩ | ⟨_, _, _, e⟩ | ⟨_, _, _, e⟩ <;> rw [e]
  · exact h.filterView s _ rfl hs
  · exact h.frame _ _ (h.filterView s _ rfl hs)
  · exact h.filterView s _ rfl hs

theorem KeptByFrames.decPulse (h : KeptByFrames P) (r : PulseRecord) (hs : P s) : P (s.decPulse r) := by
  rcases s.decPulse_cases r with ⟨_, _, e⟩ | ⟨_, _, e⟩ | ⟨_, _, e⟩ | ⟨_, _, _, e⟩ | ⟨_, _, _, e⟩ <;> rw [e]
  · exact h.filterView s _ rfl hs
  · exact h.filterView s _ rfl hs
  · exact h.filterView s _ rfl hs
  · exact h.filterView s _ (State.syncTest_filterView ..) hs
  · exact h.bitTest _ _ (h.filterView s _ rfl hs)

theorem KeptByFrames.decStep (h : KeptByFrames P) (hs : P s) : P s.decStep.2 := by
  have hpop : P ((s.rbPop .pulse).2.rbPop .pulse).2 :=
    h.filterView s _ ((State.rbPop_filterView _ .pulse).trans (s.rbPop_filterView .pulse)) hs
  unfold State.decStep
  simp only [State.rbLen_eq]
  split
  · exact hs
  · split
    · exact h.decPulse _ hpop
    · exact hpop

theorem KeptByFrames.poll (h : KeptByFrames P) (hs : P s) : P s.poll :=
  State.poll_keeps (fun s => h.filterView s _ s.rleStep_filterView)
    (fun s => h.filterView s _ s.interruptPoint_filterView) (fun _ => h.decStep) hs

theorem KeptByFrames.exec {i : Instr} (h : KeptByFrames P) (htimer : i ≠ .timer) (hreset : i ≠ .reset) (hs : P s)
    (he : exec i s = .next t) : P t := by
  cases i with
  | sample x => cases he; exact h.filterView s _ (s.sample_filterView x) hs
  | poll => cases he; exact h.poll hs
  | timer => exact absurd rfl htimer
  | regcb c => rw [exec_regcb] at he; cases he; split <;> exact h.filterView s _ rfl hs
  | reset => exact absurd rfl hreset
  | fltFrame c => cases he; exact h.frame s c hs
  | rbPush b v => cases he; exact h.filterView s _ (s.rbPush_filterView b v) hs
  | rbPop b => cases he; exact h.filterView s _ (s.rbPop_filterView b) hs
  | rbLen b => rw [exec_rbLen] at he; cases he; exact h.filterView s _ rfl hs
  | rbClear b => rw [exec_rbClear, State.rbClear_eq] at he; cases he; exact h.filterView s _ (s.setRing_filterView b _) hs
  | rleBit x => cases he; exact h.filterView s _ (s.rleBit_filterView x) hs
  | rleStep => cases he; exact h.filterView s _ s.rleStep_filterView hs
  | decPulse r => cases he; exact h.decPulse r hs
  | decStep => cases he; exact h.decStep hs

end

/-! ## The window against every operation (44_confirmation_filter.md R194, R199) -/

/-- The window has `n` TIMERs to go, and the deliveries are `ds`. -/
def WindowStands (n : Nat) (ds : List Delivery) (t : State) : Prop := t.flt.refrCnt = n ∧ t.out = ds

/-- Inside the window a frame becomes the candidate or is dropped; either way it neither restarts the window nor is
delivered. -/
theorem WindowStands.keptByFrames {n : Nat} (hn : 0 < n) (ds : List Delivery) : KeptByFrames (WindowStands n ds) where
  filterView := by
    rintro s t hview ⟨hcount, hout⟩
    obtain ⟨hflt, hsame⟩ := Prod.ext_iff.mp hview
    exact ⟨(congrArg Filter.refrCnt hflt).trans hcount, hsame.trans hout⟩
  frame := by
    rintro s c ⟨hcount, hout⟩
    rcases s.fltFrame_cases c with ⟨_, e⟩ | ⟨_, _, e⟩ | ⟨_, hw, _, _⟩ | ⟨_, hw, _, _⟩
    · rw [e]
      exact ⟨hcount, hout⟩
    · rw [e]
      exact ⟨hcount, hout⟩
    · omega
    · omega

theorem exec_windowStands {i : Instr} {s t : State} (htimer : i ≠ .timer) (hreset : i ≠ .reset) (hw : 0 < s.flt.refrCnt)
    (he : exec i s = .next t) : WindowStands s.flt.refrCnt s.out t :=
  (WindowStands.keptByFrames hw s.out).exec htimer hreset ⟨rfl, rfl⟩ he

/-- Settles O40: the window stands through every operation but the two that move it. -/
theorem onlyTimerMovesAnActiveWindow : Obligations.OnlyTimerMovesAnActiveWindow :=
  fun _ _ _ htimer hreset hw he => (exec_windowStands htimer hreset hw he).1

theorem run_cons_eq_next_iff {i : Instr} {rest : List Instr} {s t : State} :
    run (i :: rest) s = .next t ↔ ∃ u, exec i s = .next u ∧ run rest u = .next t := by
  rw [run]
  cases exec i s <;> simp

/-- Settles O39, by induction over the run: a TIMER takes one off the window and off the TIMERs left, and every other operation
finds the window active and leaves it. -/
theorem windowSuppressesEveryDelivery : Obligations.WindowSuppressesEveryDelivery := by
  intro ops
  induction ops with
  | nil =>
    intro s t _ _ he
    cases he
    rfl
  | cons i rest ih =>
    intro s t hreset hcount he
    obtain ⟨hi, hrest⟩ := List.ne_and_not_mem_of_not_mem_cons hreset
    obtain ⟨u, hu, ht⟩ := run_cons_eq_next_iff.mp he
    by_cases htimer : i = .timer
    · subst htimer
      rw [List.count_cons_self] at hcount
      rw [exec_timer] at hu
      cases hu
      exact (ih _ t hrest (Nat.lt_sub_of_add_lt hcount) ht :)
    · rw [List.count_cons_of_ne htimer] at hcount
      obtain ⟨hwindow, hout⟩ := exec_windowStands htimer hi.symm (by omega) hu
      exact (ih u t hrest (by omega) ht).trans hout

/-! ## The source's sequences (44_confirmation_filter.md R200) -/

section
variable {s : State} {A B : Code}

theorem exec_fltFrame_of_unconfirmed (h : s.flt.candValid = false ∨ s.flt.cand ≠ A) : exec (.fltFrame A) s =
    .next { s with flt := ⟨true, A, s.flt.refrCnt⟩, drops := s.drops ++ [.unconfirmed] } := by
  rw [exec_fltFrame, State.fltFrame_of_unconfirmed h]

/-- The state after a confirmed code was delivered: the window runs, and the code stays the candidate. -/
def State.accept (s : State) (A : Code) : State :=
  { s with flt := ⟨true, A, s.cfg.refractoryTicks⟩, out := s.out ++ [⟨s.cb.handle, A⟩] }

theorem exec_fltFrame_of_accepted (hr : s.cb.registered = true) (h : s.flt = ⟨true, A, 0⟩) :
    exec (.fltFrame A) s = .next (s.accept A) := by
  rw [exec_fltFrame, State.fltFrame_of_accepted (by simp [h]) (by rw [h]), if_pos hr, State.accept]

/-- Outside a window a new code is the candidate at its first frame and accepted at its second. -/
theorem run_frame_twice (hr : s.cb.registered = true) (hnew : s.flt.candValid = false) (hw : s.flt.refrCnt = 0) :
    ∃ u : State, u.cfg = s.cfg ∧ u.cb = s.cb ∧ u.out = s.out ∧
      run [.fltFrame A, .fltFrame A] s = .next (u.accept A) := by
  rw [run_cons_of_next (exec_fltFrame_of_unconfirmed (.inl hnew)), hw]
  have hsecond := exec_fltFrame_of_accepted (A := A)
    (s := { s with flt := ⟨true, A, 0⟩, drops := s.drops ++ [.unconfirmed] }) hr rfl
  refine ⟨_, ?_, ?_, ?_, run_cons_of_next hsecond⟩ <;> rfl

/-- No code is confirmed where each differs from the one before. -/
theorem run_alternating_frames_out (hne : A ≠ B) (hnew : s.flt.candValid = false) :
    ∃ t, run [.fltFrame A, .fltFrame B, .fltFrame A] s = .next t ∧ t.out = s.out := by
  rw [run_cons_of_next (exec_fltFrame_of_unconfirmed (.inl hnew)),
    run_cons_of_next (exec_fltFrame_of_unconfirmed (.inr hne)),
    run_cons_of_next (exec_fltFrame_of_unconfirmed (.inr hne.symm))]
  exact ⟨_, rfl, rfl⟩

/-- Nothing more is delivered in the window just started, which has all of `REFRACTORY_TICKS` to go. -/
theorem State.accept_suppresses {ops : List Instr} {t : State} (hreset : .reset ∉ ops)
    (hcount : ops.count .timer < s.cfg.refractoryTicks) (he : run ops (s.accept A) = .next t) :
    t.out = s.out ++ [⟨s.cb.handle, A⟩] :=
  windowSuppressesEveryDelivery ops (s.accept A) t hreset hcount he

/-- The frame that follows the window just started is accepted, and starts another. -/
theorem run_accept_after_window (hr : s.cb.registered = true) (rest : List Instr) :
    run (timerN s.cfg.refractoryTicks ++ .fltFrame A :: rest) (s.accept A) = run rest ((s.accept A).accept A) := by
  rw [run_append_of_next (run_timerN _ _)]
  exact run_cons_of_next (exec_fltFrame_of_accepted hr (by simp [State.accept]))

end

/-- Settles O38: A, A is accepted once; from there the window suppresses what comes before its end, and the frame after it is
accepted again. -/
theorem confirmationAndRefractoryProperties : Obligations.ConfirmationAndRefractoryProperties := by
  intro s A B hne hr hnew hw hticks
  refine ⟨run_alternating_frames_out hne hnew, ?_⟩
  obtain ⟨u, hcfg, hcb, hout, hpair⟩ := run_frame_twice (A := A) hr hnew hw
  rw [← hcb] at hr
  rw [← hcfg] at hticks
  rw [← hcfg, ← hcb, ← hout]
  refine ⟨⟨_, hpair, rfl⟩, fun k hk => ?_, ?_, ?_⟩ <;> rw [List.append_assoc, run_append_of_next hpair]
  · have hinside := run_append_of_next (js := [.fltFrame A, .fltFrame A]) (run_timerN k (u.accept A))
    exact ⟨_, hinside, State.accept_suppresses (by simp [timerN]) (by simpa [timerN] using hk) hinside⟩
  · exact ⟨_, run_accept_after_window hr [], by simp [State.accept]⟩
  · refine ⟨_, run_accept_after_window hr [.fltFrame A], ?_⟩
    have hlast := State.accept_suppresses (s := u.accept A) (A := A) (ops := [.fltFrame A]) (by simp) hticks rfl
    simpa [State.accept] using hlast

end Sys2Proof.Machine

/-! PROOFS. Pipeline sequencing (45_pipeline_sequencing.md): RESET, and what a stage operation reads and writes. -/

namespace Sys2Proof.Machine

/-! ## RESET (45_pipeline_sequencing.md R213) -/

/-- Settles O48: the reset values are those of `exec_reset`, whose cleared rings have both cursors at 0. -/
theorem resetSetsEveryElement : Obligations.ResetSetsEveryElement := by
  intro s
  refine ⟨_, exec_reset s, ?_, rfl, rfl, rfl, rfl, rfl, rfl, rfl, rfl, rfl, rfl⟩
  simp [AtReset, Ring.clear, zeroCode]

/-! ## What a stage operation reads and writes (45_pipeline_sequencing.md R216)

Each effect is settled by the elements that the operation reads, and is the same on every state with the same values there. -/

/-- The states agree on everything that decoding a record reads: the configuration, the registration, the decoder and the
filter. -/
structure SameDecoding (s t : State) : Prop where
  cfg : t.cfg = s.cfg
  cb : t.cb = s.cb
  dec : t.dec = s.dec
  flt : t.flt = s.flt

/-- The state with another decoder and another filter, after the deliveries `o` and the drops `ds`. -/
def State.withDecoded (t : State) (d : Decoder) (f : Filter) (o : List Delivery) (ds : List DropCause) : State :=
  { t with dec := d, flt := f, out := t.out ++ o, drops := t.drops ++ ds }

section
variable (s : State)

theorem State.fltFrame_effect (c : Code) : ∃ f o ds, ∀ t : State, t.cfg = s.cfg → t.cb = s.cb → t.flt = s.flt →
    t.fltFrame c = t.withDecoded t.dec f o ds := by
  cases hc : s.flt.confirms c with
  | false =>
    refine ⟨{ s.flt with cand := c, candValid := true }, [], [.unconfirmed], fun t hcfg hcb hflt => ?_⟩
    simp [State.fltFrame, hflt, hc, State.drop, State.withDecoded]
  | true =>
    by_cases hw : s.flt.windowActive = true
    · refine ⟨s.flt, [], [.refractory], fun t hcfg hcb hflt => ?_⟩
      rw [← hflt] at hc hw ⊢
      simp [State.fltFrame, hc, hw, State.drop, State.withDecoded]
    · cases hr : s.cb.registered with
      | true =>
        refine ⟨{ s.flt with refrCnt := s.cfg.refractoryTicks }, [⟨s.cb.handle, c⟩], [], fun t hcfg hcb hflt => ?_⟩
        simp [State.fltFrame, hflt, hcfg, hcb, hc, hw, hr, State.deliver, State.withDecoded]
      | false =>
        refine ⟨{ s.flt with refrCnt := s.cfg.refractoryTicks }, [], [.noCallback], fun t hcfg hcb hflt => ?_⟩
        simp [State.fltFrame, hflt, hcfg, hcb, hc, hw, hr, State.drop, State.withDecoded]

theorem State.syncTest_effect (t1 t2 : Nat) : ∃ d ds, ∀ t, SameDecoding s t →
    t.syncTest t1 t2 = t.withDecoded d t.flt [] ds := by
  by_cases hok : syncOk s.cfg t1 t2 = true
  · refine ⟨{ s.dec with bitCount := 0, code := zeroCode, phase := .receivingData }, [], fun t h => ?_⟩
    rw [State.syncTest_of_ok (h.cfg ▸ hok), h.dec]
    simp [State.withDecoded]
  · refine ⟨s.dec, [.badSync], fun t h => ?_⟩
    rw [State.syncTest_of_not_ok (h.cfg ▸ hok), ← h.dec]
    simp [State.withDecoded, State.drop]

theorem State.bitTest_effect (t1 t2 : Nat) : ∃ d f o ds, ∀ t, SameDecoding s t →
    t.bitTest t1 t2 = t.withDecoded d f o ds := by
  cases hx : classify s.cfg t1 t2 with
  | none =>
    refine ⟨{ s.dec with phase := .seekingSync }, s.flt, [], [.badBit], fun t h => ?_⟩
    rw [State.bitTest_of_none (h.cfg ▸ hx), h.dec, ← h.flt]
    simp [State.withDecoded, State.drop]
  | some x =>
    by_cases hlast : s.dec.bitCount + 1 = frameBits
    · obtain ⟨f, o, ds, hframe⟩ := s.fltFrame_effect (writeCodeBit s.dec.code s.dec.bitCount x)
      refine ⟨{ s.dec with
        code := writeCodeBit s.dec.code s.dec.bitCount x, bitCount := s.dec.bitCount + 1, phase := .seekingSync },
        f, o, ds, fun t h => ?_⟩
      have hbit : classify t.cfg t1 t2 = some x := h.cfg ▸ hx
      rw [State.bitTest, hbit, h.dec]
      simp only [if_pos hlast]
      refine (hframe _ ?_ ?_ ?_).trans rfl
      exacts [h.cfg, h.cb, h.flt]
    · refine ⟨{ s.dec with code := writeCodeBit s.dec.code s.dec.bitCount x, bitCount := s.dec.bitCount + 1 }, s.flt, [], [],
        fun t h => ?_⟩
      simp [State.bitTest, h.cfg, hx, h.dec, ← h.flt, hlast, State.withDecoded]

theorem State.decPulse_effect (r : PulseRecord) : ∃ d f o ds, ∀ t, SameDecoding s t →
    t.decPulse r = t.withDecoded d f o ds := by
  obtain ⟨level, duration⟩ := r
  cases level with
  | true =>
    refine ⟨{ s.dec with t1 := duration, t1Valid := true }, s.flt, [], if s.dec.t1Valid then [.highReplaced] else [],
      fun t h => ?_⟩
    rw [State.decPulse_high, h.dec, ← h.flt]
    simp [State.withDecoded]
  | false =>
    cases hv : s.dec.t1Valid with
    | false =>
      refine ⟨s.dec, s.flt, [], [.lowSkipped], fun t h => ?_⟩
      rw [State.decPulse_low_of_no_t1 (h.dec ▸ hv), ← h.dec, ← h.flt]
      simp [State.withDecoded, State.drop]
    | true =>
      cases hp : s.dec.phase with
      | seekingSync =>
        obtain ⟨d, ds, htest⟩ := ({ s with dec := { s.dec with t1Valid := false } } : State).syncTest_effect
          s.dec.t1.toNat duration.toNat
        refine ⟨d, s.flt, [], ds, fun t h => ?_⟩
        rw [State.decPulse_low_of_seekingSync (h.dec ▸ hv) (h.dec ▸ hp), h.dec, ← h.flt]
        exact htest { t with dec := _ } ⟨h.cfg, h.cb, rfl, h.flt⟩
      | receivingData =>
        obtain ⟨d, f, o, ds, htest⟩ := ({ s with dec := { s.dec with t1Valid := false } } : State).bitTest_effect
          s.dec.t1.toNat duration.toNat
        refine ⟨d, f, o, ds, fun t h => ?_⟩
        rw [State.decPulse_low_of_receivingData (h.dec ▸ hv) (h.dec ▸ hp), h.dec]
        exact htest { t with dec := _ } ⟨h.cfg, h.cb, rfl, h.flt⟩

theorem State.rbPush_pulse_effect (v : Byte) : ∃ p ds, ∀ t : State, t.cfg = s.cfg → t.pulse = s.pulse →
    t.rbPush .pulse v = { t with pulse := p, drops := t.drops ++ ds } := by
  refine ⟨s.pulse.push s.cfg.pulseCap v, if s.pulse.isFull s.cfg.pulseCap then [.pulseOverflow] else [],
    fun t hcfg hpulse => ?_⟩
  rw [← hcfg, ← hpulse, State.rbPush_eq]
  cases hfull : t.pulse.isFull t.cfg.pulseCap <;> simp [hfull, State.setRing, State.drop, overflowCause]

theorem State.rleBit_effect (x : Bool) : ∃ e p ds, ∀ t : State, t.cfg = s.cfg → t.pulse = s.pulse → t.rle = s.rle →
    t.rleBit x = { t with rle := e, pulse := p, drops := t.drops ++ ds } := by
  by_cases hx : x = s.rle.level
  · refine ⟨⟨x, saturatingSucc s.rle.count⟩, s.pulse, [], fun t _ hpulse hrle => ?_⟩
    simp [State.rleBit, hrle, ← hpulse, hx]
  · obtain ⟨p, ds, hfirst⟩ := s.rbPush_pulse_effect (recordByte0 ⟨s.rle.level, s.rle.count⟩)
    obtain ⟨p', ds', hsecond⟩ := ({ s with pulse := p } : State).rbPush_pulse_effect
      (recordByte1 ⟨s.rle.level, s.rle.count⟩)
    refine ⟨⟨x, 1#15⟩, p', ds ++ ds', fun t hcfg hpulse hrle => ?_⟩
    rw [State.rleBit, hrle, if_pos hx, State.emit, hfirst t hcfg hpulse,
      hsecond { t with pulse := p, drops := t.drops ++ ds } hcfg rfl, List.append_assoc]

end

/-- Settles O52: the operation's effect on the state itself is its frame. -/
theorem stageOperationsTouchTheirStageOnly : Obligations.StageOperationsTouchTheirStageOnly := by
  refine ⟨fun r s t he => ?_, fun c s t he => ?_, fun x s t he => ?_⟩ <;> cases he
  · obtain ⟨d, f, o, ds, h⟩ := s.decPulse_effect r
    rw [h s ⟨rfl, rfl, rfl, rfl⟩]
    rfl
  · obtain ⟨f, o, ds, h⟩ := s.fltFrame_effect c
    rw [h s rfl rfl rfl]
    rfl
  · obtain ⟨e, p, ds, h⟩ := s.rleBit_effect x
    rw [h s rfl rfl rfl]

end Sys2Proof.Machine

/-! PROOFS. POLL: the turns of its two loops and the SAMPLEs between them (45_pipeline_sequencing.md R211, R212, R214). -/

namespace Sys2Proof.Machine

/-! ## The ticks to come and the tick held, which no step of POLL reads (60_exceptions.md R226; log 6, log 19) -/

/-- The state with other ticks to come and another tick held. -/
def State.withTicks (s : State) (ticks : List (List Bool)) (held : Option Bool) : State :=
  { s with ticks := ticks, pendingTick := held }

section
variable (s : State) (T T' : List (List Bool)) (P P' : Option Bool)

@[simp] theorem State.withTicks_queue (b : RingId) : (s.withTicks T P).queue b = s.queue b := by cases b <;> rfl
@[simp] theorem State.withTicks_withTicks : (s.withTicks T P).withTicks T' P' = s.withTicks T' P' := rfl
@[simp] theorem State.withTicks_self : s.withTicks s.ticks s.pendingTick = s := rfl

theorem State.sample_withTicks (x : Bool) : (s.withTicks T P).sample x = (s.sample x).withTicks T P := by
  obtain ⟨m, r, ds, h⟩ := s.sample_effect x
  rw [h s rfl rfl rfl, h (s.withTicks T P) rfl rfl rfl]
  rfl

theorem State.rleBit_withTicks (x : Bool) : (s.withTicks T P).rleBit x = (s.rleBit x).withTicks T P := by
  obtain ⟨e, p, ds, h⟩ := s.rleBit_effect x
  rw [h s rfl rfl rfl, h (s.withTicks T P) rfl rfl rfl]
  rfl

theorem State.decPulse_withTicks (r : PulseRecord) : (s.withTicks T P).decPulse r = (s.decPulse r).withTicks T P := by
  obtain ⟨d, f, o, ds, h⟩ := s.decPulse_effect r
  rw [h s ⟨rfl, rfl, rfl, rfl⟩, h (s.withTicks T P) ⟨rfl, rfl, rfl, rfl⟩]
  rfl

theorem State.rbPop_withTicks (b : RingId) :
    (s.withTicks T P).rbPop b = ((s.rbPop b).1, (s.rbPop b).2.withTicks T P) := by cases b <;> rfl

theorem State.foldl_withTicks {f : State → Bool → State}
    (hf : ∀ (s : State) x, f (s.withTicks T P) x = (f s x).withTicks T P) (xs : List Bool) :
    xs.foldl f (s.withTicks T P) = (xs.foldl f s).withTicks T P := by
  induction xs generalizing s with
  | nil => rfl
  | cons x xs ih => rw [List.foldl_cons, List.foldl_cons, ← ih, ← hf]

theorem State.rleStep_withTicks :
    (s.withTicks T P).rleStep = (s.rleStep.1, s.rleStep.2.withTicks T P) := by
  rw [State.rleStep, State.rleStep, State.rbPop_withTicks]
  cases (s.rbPop .raw).1 with
  | none => rfl
  | some v => exact congrArg (Prod.mk true) (State.foldl_withTicks _ T P (fun s => s.rleBit_withTicks T P) _)

theorem State.decStep_withTicks :
    (s.withTicks T P).decStep = (s.decStep.1, s.decStep.2.withTicks T P) := by
  simp only [State.decStep, State.rbLen_eq, State.rbPop_withTicks]
  by_cases hlen : (s.ring .pulse).length (s.cap .pulse) < 2
  · rw [if_pos hlen]
    exact if_pos hlen
  · rw [if_neg hlen]
    refine (if_neg hlen).trans ?_
    cases (s.rbPop .pulse).1 with
    | none => rfl
    | some b0 =>
      cases ((s.rbPop .pulse).2.rbPop .pulse).1 with
      | none => rfl
      | some b1 => exact congrArg (Prod.mk true) (State.decPulse_withTicks _ T P _)

end

/-! ## An interruption point as SAMPLEs (45_pipeline_sequencing.md R212, 60_exceptions.md R225, R226) -/

/-- Of the ticks that occur, those whose SAMPLE runs. -/
def samplesRun (ie : Bool) (ys : List Bool) : List Bool := if ie then ys else []

/-- The tick held once the ticks `ys` occurred. -/
def tickHeld (ie : Bool) (held : Option Bool) (ys : List Bool) : Option Bool := if ie then held else held.or ys.head?

/-- The ticks that fall at the coming interruption point. -/
def State.ticksHere (s : State) : List Bool := s.ticks.headD []

theorem samplesRun_append (ie : Bool) (xs ys : List Bool) :
    samplesRun ie (xs ++ ys) = samplesRun ie xs ++ samplesRun ie ys := by cases ie <;> rfl

theorem tickHeld_append (ie : Bool) (held : Option Bool) (xs ys : List Bool) :
    tickHeld ie held (xs ++ ys) = tickHeld ie (tickHeld ie held xs) ys := by
  cases ie with
  | true => rfl
  | false => simp [tickHeld, List.head?_append, Option.or_assoc]

section
variable (s : State)

theorem State.ticksHere_append_flatten : s.ticksHere ++ s.ticks.tail.flatten = s.ticks.flatten := by
  rw [State.ticksHere]
  cases s.ticks <;> rfl

theorem exec_ie {i : Instr} {s t : State} (he : exec i s = .next t) : t.ie = s.ie := everyOperationRestoresIe i s t he

theorem State.sample_ie (x : Bool) : (s.sample x).ie = s.ie := exec_ie (exec_sample s x)

theorem State.foldl_tick_of_enabled (xs : List Bool) (h : s.ie = true) : xs.foldl State.tick s = xs.foldl State.sample s := by
  induction xs generalizing s with
  | nil => rfl
  | cons x xs ih =>
    have hx : s.tick x = s.sample x := if_pos h
    rw [List.foldl_cons, List.foldl_cons, hx, ih _ ((s.sample_ie x).trans h)]

theorem State.interruptPoint_eq : s.interruptPoint = ((samplesRun s.ie s.ticksHere).foldl State.sample s).withTicks
    s.ticks.tail (tickHeld s.ie s.pendingTick s.ticksHere) := by
  cases hie : s.ie with
  | false => exact s.interruptPoint_of_masked hie
  | true =>
    rcases s.interruptPoint_cases with ⟨ht, e⟩ | ⟨xs, rest, ht, e⟩
    · rw [e, State.ticksHere, ht]
      exact congrArg (s.withTicks · s.pendingTick) ht
    · rw [e, State.ticksHere, ht, State.foldl_tick_of_enabled { s with ticks := rest } xs hie]
      exact State.foldl_withTicks s rest s.pendingTick (fun s => s.sample_withTicks _ _) xs

theorem run_samples (xs : List Bool) : run (xs.map .sample) s = .next (xs.foldl State.sample s) := by
  induction xs generalizing s with
  | nil => rfl
  | cons x xs ih => rw [List.map_cons, run_cons_of_next (exec_sample s x), ih, List.foldl_cons]

end

/-! ## The queues under the steps of POLL and the SAMPLEs between them -/

/-- Both rings are legal, whatever their capacities. -/
def RingsLegal (s : State) : Prop := RingLegal s.cfg.rawCap s.raw ∧ RingLegal s.cfg.pulseCap s.pulse

theorem RingsLegal.keptByAllUpdates : KeptByAllUpdates RingsLegal where
  raw := fun _ _ hr ⟨raw, pulse⟩ => ⟨hr raw, pulse⟩
  pulse := fun _ _ hr ⟨raw, pulse⟩ => ⟨raw, hr pulse⟩
  encoder := fun _ _ h => h
  decoder := fun _ _ _ h => h
  filter := fun _ _ _ _ h => h
  registration := fun _ _ h => h
  deliver := fun _ _ _ h => h
  respond := fun _ _ h => h
  drop := fun _ _ h => h
  sampler := fun _ _ h => h
  hold := fun _ _ _ h => h
  ticks := fun _ _ h => h

section
variable {s : State}

theorem State.queue_raw (s : State) : s.queue .raw = s.raw.queue s.cfg.rawCap := rfl
theorem State.queue_pulse (s : State) : s.queue .pulse = s.pulse.queue s.cfg.pulseCap := rfl

theorem State.foldl_rleBit_frame (s : State) (xs : List Bool) :
    ∃ e p ds, xs.foldl State.rleBit s = { s with rle := e, pulse := p, drops := ds } := by
  induction xs generalizing s with
  | nil => exact ⟨_, _, _, rfl⟩
  | cons x xs ih =>
    obtain ⟨e, p, ds, h⟩ := s.rleBit_effect x
    rw [List.foldl_cons, h s rfl rfl rfl]
    exact ih _

theorem State.foldl_rleBit_queue_raw (s : State) (xs : List Bool) :
    (xs.foldl State.rleBit s).queue .raw = s.queue .raw := by
  obtain ⟨e, p, ds, h⟩ := s.foldl_rleBit_frame xs
  rw [h]
  rfl

theorem State.decPulse_queue (s : State) (r : PulseRecord) (b : RingId) : (s.decPulse r).queue b = s.queue b := by
  obtain ⟨d, f, o, ds, h⟩ := s.decPulse_effect r
  rw [h s ⟨rfl, rfl, rfl, rfl⟩]
  cases b <;> rfl

theorem State.foldl_sample_queue_pulse (s : State) (xs : List Bool) :
    (xs.foldl State.sample s).queue .pulse = s.queue .pulse := by
  induction xs generalizing s with
  | nil => rfl
  | cons x xs ih =>
    rw [List.foldl_cons, ih, s.sample_frame x]
    rfl

/-- A SAMPLE adds at most one byte to RAW (41_pulse_sampler.md R141). -/
theorem State.sample_queue_raw_length_le (hr : RingsLegal s) (x : Bool) :
    ((s.sample x).queue .raw).length ≤ (s.queue .raw).length + 1 := by
  obtain ⟨⟨hh, ht, _⟩, _⟩ := hr
  rcases s.sample_cases x with ⟨_, e⟩ | ⟨_, e⟩ <;> rw [e]
  · exact Nat.le_succ _
  · rw [State.queue, State.rbPush_ring, State.rbPush_cap, Ring.queue_length, State.queue, Ring.queue_length]
    refine (Ring.push_length _ hh ht).trans_le ?_
    split
    · exact Nat.le_succ _
    · exact le_rfl

theorem State.foldl_sample_queue_raw_length_le (hr : RingsLegal s) (xs : List Bool) :
    ((xs.foldl State.sample s).queue .raw).length ≤ (s.queue .raw).length + xs.length := by
  induction xs generalizing s with
  | nil => exact le_rfl
  | cons x xs ih =>
    have hfirst := State.sample_queue_raw_length_le hr x
    have hrest := ih (RingsLegal.keptByAllUpdates.toKeptBySamplerUpdates.sample x hr)
    rw [List.foldl_cons, List.length_cons]
    omega

theorem State.interruptPoint_queue_pulse (s : State) : s.interruptPoint.queue .pulse = s.queue .pulse := by
  rw [State.interruptPoint_eq, State.withTicks_queue, State.foldl_sample_queue_pulse]

/-- RLE.STEP on the queue (42_run_length_encoder.md R154). -/
theorem State.rleStep_of_queue_nil (hr : RingsLegal s) (hq : s.queue .raw = []) : s.rleStep = (false, s) := by
  obtain ⟨⟨hh, ht, _⟩, _⟩ := hr
  rcases s.rleStep_cases with ⟨_, e⟩ | ⟨hne, _⟩
  · exact e
  · exact absurd ((Ring.queue_eq_nil_iff hh ht).mp hq) hne

theorem State.rleStep_of_queue_cons {v : Byte} {rest : List Byte} (hr : RingsLegal s) (hq : s.queue .raw = v :: rest) :
    ∃ r, s.rleStep = (true, (samplesOf v).foldl State.rleBit { s with raw := r }) ∧ r.queue s.cfg.rawCap = rest := by
  obtain ⟨⟨hh, ht, _⟩, _⟩ := hr
  rcases s.rleStep_cases with ⟨hempty, _⟩ | ⟨hne, e⟩
  · rw [State.queue_raw, (Ring.queue_eq_nil_iff hh ht).mpr hempty] at hq
    cases hq
  · rw [State.queue_raw, Ring.queue_eq_cons hh ht hne] at hq
    cases hq
    exact ⟨_, e, rfl⟩

/-- DEC.STEP on the queue (43_frame_decoder.md R177). -/
theorem State.decStep_of_queue_lt (hr : RingsLegal s) (hq : (s.queue .pulse).length < 2) : s.decStep = (false, s) := by
  obtain ⟨_, hh, ht, _⟩ := hr
  rw [State.queue, Ring.queue_length] at hq
  rcases s.decStep_cases hh ht with ⟨_, e⟩ | ⟨hlen, _⟩
  · exact e
  · exact absurd hlen (not_le.mpr hq)

theorem State.decStep_of_queue_cons {b0 b1 : Byte} {rest : List Byte} (hr : RingsLegal s)
    (hq : s.queue .pulse = b0 :: b1 :: rest) :
    ∃ p, s.decStep = (true, ({ s with pulse := p } : State).decPulse (recordOfBytes b0 b1)) ∧
      p.queue s.cfg.pulseCap = rest := by
  obtain ⟨_, hh, ht, _⟩ := hr
  have hlen : 2 ≤ s.pulse.length s.cfg.pulseCap := by
    rw [← Ring.queue_length, ← State.queue_pulse, hq]
    exact Nat.le_add_left 2 rest.length
  rcases s.decStep_cases hh ht with ⟨hlt, _⟩ | ⟨_, e⟩
  · exact absurd hlen (not_le.mpr hlt)
  · rw [State.queue_pulse, Ring.queue_eq_cons_cons hh ht hlen] at hq
    cases hq
    exact ⟨_, e, rfl⟩

/-- A queue without a whole record, or its first. -/
theorem length_lt_two_or_eq_cons_cons {α : Type} (q : List α) : q.length < 2 ∨ ∃ a b rest, q = a :: b :: rest := by
  match q with
  | [] => exact .inl (by simp)
  | [_] => exact .inl (by simp)
  | a :: b :: rest => exact .inr ⟨a, b, rest, rfl⟩

/-- RLE.STEP consumes a byte exactly when RAW holds one. -/
theorem State.rleStep_consumes_iff (hr : RingsLegal s) : s.rleStep.1 = true ↔ s.queue .raw ≠ [] := by
  cases hq : s.queue .raw with
  | nil => simp [State.rleStep_of_queue_nil hr hq]
  | cons v rest =>
    obtain ⟨r, e, _⟩ := State.rleStep_of_queue_cons hr hq
    simp [e]

/-- DEC.STEP consumes a record exactly when PULSE holds two bytes. -/
theorem State.decStep_consumes_iff (hr : RingsLegal s) : s.decStep.1 = true ↔ 2 ≤ (s.queue .pulse).length := by
  rcases length_lt_two_or_eq_cons_cons (s.queue .pulse) with hlt | ⟨b0, b1, rest, hq⟩
  · simp [State.decStep_of_queue_lt hr hlt, hlt]
  · obtain ⟨p, e, _⟩ := State.decStep_of_queue_cons hr hq
    simp [e, hq]

theorem State.rleStep_queue_raw {u : State} (hr : RingsLegal s) (h : s.rleStep = (true, u)) :
    (u.queue .raw).length + 1 = (s.queue .raw).length := by
  cases hq : s.queue .raw with
  | nil =>
    rw [State.rleStep_of_queue_nil hr hq] at h
    cases h
  | cons v rest =>
    obtain ⟨r, e, hrest⟩ := State.rleStep_of_queue_cons hr hq
    rw [e] at h
    cases h
    rw [State.foldl_rleBit_queue_raw, List.length_cons, ← hrest]
    rfl

theorem State.decStep_queues {u : State} (hr : RingsLegal s) (h : s.decStep = (true, u)) :
    (u.queue .pulse).length + 2 = (s.queue .pulse).length ∧ u.queue .raw = s.queue .raw := by
  rcases length_lt_two_or_eq_cons_cons (s.queue .pulse) with hlt | ⟨b0, b1, rest, hq⟩
  · rw [State.decStep_of_queue_lt hr hlt] at h
    cases h
  · obtain ⟨p, e, hrest⟩ := State.decStep_of_queue_cons hr hq
    rw [e] at h
    cases h
    rw [State.decPulse_queue, State.decPulse_queue, hq, List.length_cons, List.length_cons, ← hrest]
    exact ⟨rfl, rfl⟩

end

/-! ## POLL as turns (45_pipeline_sequencing.md R211, R212, R214) -/

/-- The operation `i` does what the sub-step `f` of POLL does, which reads neither the ticks to come nor the one held. -/
structure PollStep (i : Instr) (f : State → Bool × State) : Prop where
  exec : ∀ s, exec i s = .next (f s).2
  noSample : sampleOperand i = none
  noReset : i ≠ .reset
  withTicks : ∀ s T P, f (State.withTicks s T P) = ((f s).1, (f s).2.withTicks T P)

theorem pollStep_rleStep : PollStep .rleStep State.rleStep := ⟨exec_rleStep, rfl, nofun, State.rleStep_withTicks⟩

theorem pollStep_decStep : PollStep .decStep State.decStep := ⟨exec_decStep, rfl, nofun, State.decStep_withTicks⟩

/-- The SAMPLEs that run at the coming interruption point. -/
def State.samplesHere (s : State) : List Instr := (samplesRun s.ie s.ticksHere).map .sample

/-- `Turns i f n ops ys s t`: from `s` the loop of a phase takes `n` turns that find input and ends at `t`, where `f` finds none
and changes nothing. `ops` are the operations performed, each turn's `i` and the SAMPLEs that run at the interruption point after
it, and `ys` the ticks that occur there. -/
inductive Turns (i : Instr) (f : State → Bool × State) : Nat → List Instr → List Bool → State → State → Prop
  | done {s : State} : f s = (false, s) → Turns i f 0 [] [] s s
  | turn {n : Nat} {ops : List Instr} {ys : List Bool} {s u t : State} :
      f s = (true, u) → Turns i f n ops ys u.interruptPoint t →
      Turns i f (n + 1) (i :: (u.samplesHere ++ ops)) (u.ticksHere ++ ys) s t

section
variable {i : Instr} {f : State → Bool × State} {n : Nat} {ops : List Instr} {ys : List Bool} {s t u : State}

theorem PollStep.exec_of_eq {b : Bool} (h : PollStep i f) (hf : f s = (b, u)) : Machine.exec i s = .next u := by
  rw [h.exec, hf]

/-- A step of POLL leaves `ie`, the ticks to come and the tick held. -/
theorem PollStep.keeps_ticks {b : Bool} (h : PollStep i f) (hf : f s = (b, u)) :
    u.ie = s.ie ∧ u.ticks = s.ticks ∧ u.pendingTick = s.pendingTick := by
  have hsame := h.withTicks s s.ticks s.pendingTick
  rw [State.withTicks_self, hf] at hsame
  have hu : u = u.withTicks s.ticks s.pendingTick := congrArg Prod.snd hsame
  exact ⟨exec_ie (h.exec_of_eq hf), congrArg (·.ticks) hu, congrArg (·.pendingTick) hu⟩

theorem State.interruptPoint_ie (s : State) : s.interruptPoint.ie = s.ie :=
  (keptByAllUpdates_ie s.ie).toKeptBySamplerUpdates.interruptPoint rfl

/-! ### What turns keep and what they count -/

theorem Turns.last (ht : Turns i f n ops ys s t) : f t = (false, t) := by
  induction ht with
  | done hf => exact hf
  | turn _ _ ih => exact ih

/-- What a step with input and the interruption point after it keep, turns keep. -/
theorem Turns.keeps {P : State → Prop} (hstep : ∀ s u, f s = (true, u) → P s → P u.interruptPoint)
    (ht : Turns i f n ops ys s t) (hs : P s) : P t := by
  induction ht with
  | done => exact hs
  | turn hf _ ih => exact ih (hstep _ _ hf hs)

/-- Turns that each take something of `μ` come to an end. -/
theorem exists_turns {P : State → Prop} {μ : State → Nat} (hdone : ∀ s, P s → (f s).1 = false → f s = (false, s))
    (hturn : ∀ s u, P s → f s = (true, u) → P u.interruptPoint ∧ μ u.interruptPoint < μ s) (s : State) (hs : P s) :
    ∃ n ops ys t, Turns i f n ops ys s t ∧ n ≤ μ s := by
  induction hμ : μ s using Nat.strong_induction_on generalizing s with
  | _ m ih =>
    subst hμ
    cases hf : (f s).1 with
    | false => exact ⟨0, [], [], s, .done (hdone s hs hf), Nat.zero_le _⟩
    | true =>
      have hf : f s = (true, (f s).2) := Prod.ext hf rfl
      obtain ⟨hnext, hlt⟩ := hturn s _ hs hf
      obtain ⟨n, ops, ys, t, ht, hn⟩ := ih _ hlt _ hnext rfl
      exact ⟨n + 1, _, _, t, .turn hf ht, by omega⟩

/-! ### Turns as a run of operations -/

theorem State.foldl_sample_ticksHere (u : State) (T : List (List Bool)) (P : Option Bool) :
    (samplesRun u.ie u.ticksHere).foldl State.sample (u.withTicks T P) = u.interruptPoint.withTicks T P := by
  rw [State.interruptPoint_eq, State.withTicks_withTicks]
  exact State.foldl_withTicks u T P (fun s => s.sample_withTicks T P) _

theorem run_samplesHere (u : State) (T : List (List Bool)) (P : Option Bool) :
    Machine.run u.samplesHere (u.withTicks T P) = .next (u.interruptPoint.withTicks T P) := by
  rw [State.samplesHere, run_samples, State.foldl_sample_ticksHere]

theorem Turns.run (h : PollStep i f) (ht : Turns i f n ops ys s t) (T : List (List Bool)) (P : Option Bool) :
    run ops (s.withTicks T P) = .next (t.withTicks T P) := by
  induction ht with
  | done => rfl
  | @turn n ops ys s u t hf _ ih =>
    have hstep : f (s.withTicks T P) = (true, u.withTicks T P) := by rw [h.withTicks, hf]
    rw [run_cons_of_next (h.exec_of_eq hstep), run_append_of_next (run_samplesHere u T P), ih]

theorem State.mem_samplesHere {j : Instr} (hj : j ∈ u.samplesHere) : ∃ x, j = .sample x := by
  obtain ⟨x, _, rfl⟩ := List.mem_map.mp hj
  exact ⟨x, rfl⟩

theorem State.filter_samplesHere (u : State) : u.samplesHere.filter (fun j => decide (sampleOperand j = none)) = [] := by
  refine List.filter_eq_nil_iff.mpr fun j hj => ?_
  obtain ⟨x, rfl⟩ := State.mem_samplesHere hj
  exact Bool.false_ne_true

theorem Turns.filter_steps (h : PollStep i f) (ht : Turns i f n ops ys s t) :
    ops.filter (fun j => decide (sampleOperand j = none)) = List.replicate n i := by
  induction ht with
  | done => rfl
  | turn _ _ ih =>
    rw [List.filter_cons_of_pos (by simpa using h.noSample), List.filter_append, State.filter_samplesHere, ih]
    rfl

theorem State.filterMap_samplesHere (u : State) :
    u.samplesHere.filterMap sampleOperand = samplesRun u.ie u.ticksHere := by
  rw [State.samplesHere, List.filterMap_map]
  exact List.filterMap_some

theorem Turns.mem_ops {j : Instr} (ht : Turns i f n ops ys s t) (hj : j ∈ ops) : j = i ∨ ∃ x, j = .sample x := by
  induction ht with
  | done => cases hj
  | turn _ _ ih =>
    rcases List.mem_cons.mp hj with rfl | hj
    · exact .inl rfl
    · rcases List.mem_append.mp hj with hj | hj
      · exact .inr (State.mem_samplesHere hj)
      · exact ih hj

theorem Turns.ie (h : PollStep i f) (ht : Turns i f n ops ys s t) : t.ie = s.ie :=
  ht.keeps (P := fun x => x.ie = s.ie)
    (fun _ u hf hx => u.interruptPoint_ie.trans ((h.keeps_ticks hf).1.trans hx)) rfl

/-- The SAMPLEs among the operations are those of the ticks that occur, unless `ie` masks them. -/
theorem Turns.samples (h : PollStep i f) (ht : Turns i f n ops ys s t) :
    ops.filterMap sampleOperand = samplesRun s.ie ys := by
  induction ht with
  | @done s => cases s.ie <;> rfl
  | @turn n ops ys s u t hf _ ih =>
    obtain ⟨hie, _, _⟩ := h.keeps_ticks hf
    rw [List.filterMap_cons_none h.noSample, List.filterMap_append, State.filterMap_samplesHere, ih,
      State.interruptPoint_ie, samplesRun_append, hie]

/-- The ticks that occur leave the list of those to come, and the tick held is as R226 says. -/
theorem State.interruptPoint_ticks (s : State) : s.ticksHere ++ s.interruptPoint.ticks.flatten = s.ticks.flatten ∧
    s.interruptPoint.pendingTick = tickHeld s.ie s.pendingTick s.ticksHere := by
  rw [State.interruptPoint_eq]
  exact ⟨s.ticksHere_append_flatten, rfl⟩

theorem Turns.ticks (h : PollStep i f) (ht : Turns i f n ops ys s t) :
    ys ++ t.ticks.flatten = s.ticks.flatten ∧ t.pendingTick = tickHeld s.ie s.pendingTick ys := by
  induction ht with
  | @done s => exact ⟨rfl, by cases hie : s.ie <;> simp [tickHeld]⟩
  | @turn n ops ys s u t hf _ ih =>
    obtain ⟨hie, hticks, hheld⟩ := h.keeps_ticks hf
    obtain ⟨hhere, hheld'⟩ := u.interruptPoint_ticks
    obtain ⟨hrest, hlast⟩ := ih
    rw [hlast, hheld', State.interruptPoint_ie, tickHeld_append, List.append_assoc, hrest, hhere, hie, hticks, hheld]
    exact ⟨rfl, rfl⟩

/-- Each `i` among the operations finds input for `f`. -/
def FindsInput (i : Instr) (f : State → Bool × State) (ops : List Instr) (s : State) : Prop :=
  ∀ (k : Nat) (w : State), ops[k]? = some i → Machine.run (ops.take k) s = .next w → (f w).1 = true

theorem FindsInput.nil : FindsInput i f [] s := nofun

theorem FindsInput.cons {j : Instr} (he : Machine.exec j s = .next u) (hfirst : j = i → (f s).1 = true)
    (hrest : FindsInput i f ops u) : FindsInput i f (j :: ops) s := by
  intro k w hk hrun
  cases k with
  | zero =>
    cases hrun
    exact hfirst (Option.some.inj hk)
  | succ k =>
    rw [List.take_succ_cons, run_cons_of_next he] at hrun
    exact hrest k w hk hrun

theorem FindsInput.samples (h : PollStep i f) (xs : List Bool) (hrest : FindsInput i f ops (xs.foldl State.sample s)) :
    FindsInput i f (xs.map .sample ++ ops) s := by
  induction xs generalizing s with
  | nil => exact hrest
  | cons x xs ih =>
    refine .cons (exec_sample s x) (fun e => ?_) (ih hrest)
    have hnone := h.noSample
    rw [← e] at hnone
    cases hnone

theorem FindsInput.samplesHere {T : List (List Bool)} {P : Option Bool} (h : PollStep i f)
    (hrest : FindsInput i f ops (u.interruptPoint.withTicks T P)) :
    FindsInput i f (u.samplesHere ++ ops) (u.withTicks T P) :=
  .samples h _ (u.foldl_sample_ticksHere T P ▸ hrest)

theorem Turns.findsInput (h : PollStep i f) (ht : Turns i f n ops ys s t) (T : List (List Bool)) (P : Option Bool) :
    FindsInput i f ops (s.withTicks T P) := by
  induction ht with
  | done => exact .nil
  | @turn n ops ys s u t hf _ ih =>
    have hstep : f (s.withTicks T P) = (true, u.withTicks T P) := by rw [h.withTicks, hf]
    exact .cons (h.exec_of_eq hstep) (fun _ => by rw [hstep]) (.samplesHere h ih)

end

/-! ## The two loops end by themselves (45_pipeline_sequencing.md R214) -/

section
variable {i : Instr} {f : State → Bool × State} {n : Nat} {ops : List Instr} {ys : List Bool} {s t u : State}

/-- With fuel for one step more than the turns, phase 1 is its turns and the last interruption point. -/
theorem Turns.pollEncode_eq {fuel : Nat} (ht : Turns .rleStep State.rleStep n ops ys s t) (hn : n < fuel) :
    State.pollEncode fuel s = t.interruptPoint := by
  induction ht generalizing fuel with
  | done hf =>
    obtain ⟨fuel, rfl⟩ := Nat.exists_eq_add_of_lt hn
    rw [State.pollEncode_succ, hf]
    rfl
  | turn hf _ ih =>
    cases fuel with
    | zero => cases hn
    | succ fuel =>
      rw [State.pollEncode_succ, hf]
      exact ih (Nat.lt_of_succ_lt_succ hn)

/-- With fuel for one step more than the turns, phase 2 is its turns. -/
theorem Turns.pollDecode_eq {fuel : Nat} (ht : Turns .decStep State.decStep n ops ys s t) (hn : n < fuel) :
    State.pollDecode fuel s = t := by
  induction ht generalizing fuel with
  | done hf =>
    obtain ⟨fuel, rfl⟩ := Nat.exists_eq_add_of_lt hn
    rw [State.pollDecode_succ, hf]
    rfl
  | turn hf _ ih =>
    cases fuel with
    | zero => cases hn
    | succ fuel =>
      rw [State.pollDecode_succ, hf]
      exact ih (Nat.lt_of_succ_lt_succ hn)

theorem State.poll_eq_of_turns {m : Nat} {ops' : List Instr} {ys' : List Bool}
    (henc : Turns .rleStep State.rleStep n ops ys s u) (hn : n < s.encodeFuel)
    (hdec : Turns .decStep State.decStep m ops' ys' u.interruptPoint t) (hm : m < u.interruptPoint.decodeFuel) :
    s.poll = t := by
  rw [State.poll]
  simp only [henc.pollEncode_eq hn]
  exact hdec.pollDecode_eq hm

/-- What every update keeps, a step of POLL keeps, and the interruption point after it. -/
theorem PollStep.turn_keeps {P : State → Prop} (h : PollStep i f) (hP : KeptByAllUpdates P)
    (s u : State) (hf : f s = (true, u)) (hs : P s) : P u.interruptPoint :=
  hP.toKeptBySamplerUpdates.interruptPoint (hP.exec h.noReset hs (h.exec_of_eq hf))

theorem Turns.ringsLegal (h : PollStep i f) (ht : Turns i f n ops ys s t) (hs : RingsLegal s) :
    RingsLegal t :=
  ht.keeps (h.turn_keeps RingsLegal.keptByAllUpdates) hs

/-- What phase 1 may still have to encode: the bytes in RAW, and at most one more for every tick to come. -/
def State.backlog (s : State) : Nat := (s.queue .raw).length + s.ticks.flatten.length

theorem State.interruptPoint_backlog_le (hr : RingsLegal s) : s.interruptPoint.backlog ≤ s.backlog := by
  have hqueue : (s.interruptPoint.queue .raw).length ≤ (s.queue .raw).length + s.ticksHere.length := by
    have hsamples : (samplesRun s.ie s.ticksHere).length ≤ s.ticksHere.length := by cases hie : s.ie <;> simp [samplesRun]
    rw [State.interruptPoint_eq, State.withTicks_queue]
    exact (State.foldl_sample_queue_raw_length_le hr _).trans (Nat.add_le_add_left hsamples _)
  have hticks := congrArg List.length s.interruptPoint_ticks.1
  rw [List.length_append] at hticks
  simp only [State.backlog]
  omega

/-- Each turn of phase 1 takes a byte of the backlog. -/
theorem exists_turns_encode (hr : RingsLegal s) :
    ∃ n ops ys t, Turns .rleStep State.rleStep n ops ys s t ∧ n < s.encodeFuel := by
  have hdone : ∀ s, RingsLegal s → s.rleStep.1 = false → s.rleStep = (false, s) := by
    intro s hr hf
    refine State.rleStep_of_queue_nil hr ?_
    by_contra hne
    rw [(State.rleStep_consumes_iff hr).mpr hne] at hf
    cases hf
  have hturn : ∀ s u, RingsLegal s → s.rleStep = (true, u) → RingsLegal u.interruptPoint ∧
      u.interruptPoint.backlog < s.backlog := by
    intro s u hr hf
    obtain ⟨_, hticks, _⟩ := pollStep_rleStep.keeps_ticks hf
    have hu := RingsLegal.keptByAllUpdates.exec pollStep_rleStep.noReset hr (pollStep_rleStep.exec_of_eq hf)
    have hbyte := State.rleStep_queue_raw hr hf
    have hpoint := State.interruptPoint_backlog_le hu
    simp only [State.backlog, hticks] at hpoint ⊢
    exact ⟨pollStep_rleStep.turn_keeps RingsLegal.keptByAllUpdates s u hf hr, by omega⟩
  obtain ⟨n, ops, ys, t, ht, hn⟩ := exists_turns (i := .rleStep) (μ := State.backlog) hdone hturn s hr
  rw [State.backlog, State.queue_raw, Ring.queue_length] at hn
  exact ⟨n, ops, ys, t, ht, Nat.lt_succ_of_le hn⟩

/-- Phase 2 takes one turn for every two bytes in PULSE, whatever interrupts it. -/
theorem Turns.decode_count (hr : RingsLegal s) (ht : Turns .decStep State.decStep n ops ys s t) :
    n = (s.queue .pulse).length / 2 := by
  induction ht with
  | @done s hf =>
    have hlt : ¬ 2 ≤ (s.queue .pulse).length := fun h2 => by
      rw [← State.decStep_consumes_iff hr, hf] at h2
      cases h2
    omega
  | @turn n ops ys s u t hf _ ih =>
    obtain ⟨hrec, _⟩ := State.decStep_queues hr hf
    have hn := ih (pollStep_decStep.turn_keeps RingsLegal.keptByAllUpdates s u hf hr)
    rw [State.interruptPoint_queue_pulse] at hn
    omega

theorem exists_turns_decode (hr : RingsLegal s) :
    ∃ n ops ys t, Turns .decStep State.decStep n ops ys s t ∧ n < s.decodeFuel := by
  have hdone : ∀ s, RingsLegal s → s.decStep.1 = false → s.decStep = (false, s) := by
    intro s hr hf
    refine State.decStep_of_queue_lt hr (not_le.mp fun h2 => ?_)
    rw [(State.decStep_consumes_iff hr).mpr h2] at hf
    cases hf
  have hturn : ∀ s u, RingsLegal s → s.decStep = (true, u) → RingsLegal u.interruptPoint ∧
      (u.interruptPoint.queue .pulse).length < (s.queue .pulse).length := by
    intro s u hr hf
    obtain ⟨hrec, _⟩ := State.decStep_queues hr hf
    rw [State.interruptPoint_queue_pulse]
    exact ⟨pollStep_decStep.turn_keeps RingsLegal.keptByAllUpdates s u hf hr, by omega⟩
  obtain ⟨n, ops, ys, t, ht, _⟩ := exists_turns (i := .decStep) (μ := fun s => (s.queue .pulse).length) hdone hturn s hr
  refine ⟨n, ops, ys, t, ht, ?_⟩
  rw [ht.decode_count hr, State.queue_pulse, Ring.queue_length]
  exact Nat.lt_succ_self _

end

/-- Settles O46: both loops are their turns, under the model's fuel and under any more. -/
theorem pollLoopsEndByThemselves : Obligations.PollLoopsEndByThemselves := by
  intro s k hraw hpulse
  obtain ⟨n, _, _, _, henc, hn⟩ := exists_turns_encode (s := s) ⟨hraw, hpulse⟩
  obtain ⟨m, _, _, _, hdec, hm⟩ := exists_turns_decode (s := s) ⟨hraw, hpulse⟩
  exact ⟨(henc.pollEncode_eq (Nat.lt_add_right k hn)).trans (henc.pollEncode_eq hn).symm,
    (hdec.pollDecode_eq (Nat.lt_add_right k hm)).trans (hdec.pollDecode_eq hm).symm⟩

/-- POLL is turns of RLE.STEP, an interruption point, and turns of DEC.STEP. -/
theorem State.exists_poll_turns {s : State} (hr : RingsLegal s) : ∃ n enc ys u m dec zs,
    Turns .rleStep State.rleStep n enc ys s u ∧ Turns .decStep State.decStep m dec zs u.interruptPoint s.poll := by
  obtain ⟨n, enc, ys, u, henc, hn⟩ := exists_turns_encode hr
  have hu := henc.ringsLegal pollStep_rleStep hr
  obtain ⟨m, dec, zs, t, hdec, hm⟩ := exists_turns_decode
    (RingsLegal.keptByAllUpdates.toKeptBySamplerUpdates.interruptPoint hu)
  obtain rfl := State.poll_eq_of_turns henc hn hdec hm
  exact ⟨n, enc, ys, u, m, dec, zs, henc, hdec⟩

/-! ## POLL as an interleaving (45_pipeline_sequencing.md R211, R212) -/

/-- What every update keeps, operations without RESET keep. -/
theorem KeptByAllUpdates.run {P : State → Prop} (h : KeptByAllUpdates P) {ops : List Instr} {s t : State}
    (hops : .reset ∉ ops) (hs : P s) (he : run ops s = .next t) : P t := by
  induction ops generalizing s with
  | nil =>
    cases he
    exact hs
  | cons i ops ih =>
    obtain ⟨u, hi, hrest⟩ := run_cons_eq_next_iff.mp he
    rw [List.mem_cons, not_or] at hops
    exact ih hops.2 (h.exec (Ne.symm hops.1) hs hi) hrest

section
variable {i : Instr} {f : State → Bool × State} {n : Nat} {ops : List Instr} {ys : List Bool} {s t u : State}

theorem Turns.reset_notMem (h : PollStep i f) (ht : Turns i f n ops ys s t) : .reset ∉ ops := by
  intro hmem
  rcases ht.mem_ops hmem with hi | ⟨x, hx⟩
  · exact h.noReset hi.symm
  · cases hx

theorem Turns.queue_raw_nil (hr : RingsLegal s) (ht : Turns .rleStep State.rleStep n ops ys s t) : t.queue .raw = [] := by
  by_contra hne
  have hlast := (State.rleStep_consumes_iff (ht.ringsLegal pollStep_rleStep hr)).mpr hne
  rw [ht.last] at hlast
  cases hlast

theorem Turns.queue_pulse_lt (hr : RingsLegal s) (ht : Turns .decStep State.decStep n ops ys s t) :
    (t.queue .pulse).length < 2 := by
  refine not_le.mp fun h2 => ?_
  have hlast := (State.decStep_consumes_iff (ht.ringsLegal pollStep_decStep hr)).mpr h2
  rw [ht.last] at hlast
  cases hlast

/-- The second part of POLL: the last RLE.STEP, which finds nothing, the interruption point after it, and phase 2. -/
theorem run_decoding {m : Nat} {dec : List Instr} {zs : List Bool} (hu : u.rleStep = (false, u))
    (hdec : Turns .decStep State.decStep m dec zs u.interruptPoint t) (T : List (List Bool)) (P : Option Bool) :
    run (.rleStep :: (u.samplesHere ++ dec)) (u.withTicks T P) = .next (t.withTicks T P) := by
  rw [run_cons_of_next (exec_rleStep _), State.rleStep_withTicks, hu, run_append_of_next (run_samplesHere u T P),
    hdec.run pollStep_decStep]

/-- The ticks that occur inside a POLL, by their phases, and what becomes of them. -/
theorem State.poll_ticks {m : Nat} {dec : List Instr} {zs : List Bool}
    (henc : Turns .rleStep State.rleStep n ops ys s u)
    (hdec : Turns .decStep State.decStep m dec zs u.interruptPoint t) :
    ys ++ (u.ticksHere ++ zs) ++ t.ticks.flatten = s.ticks.flatten ∧
    t.pendingTick = tickHeld s.ie s.pendingTick (ys ++ (u.ticksHere ++ zs)) ∧
    (ops ++ (u.samplesHere ++ dec)).filterMap sampleOperand = samplesRun s.ie (ys ++ (u.ticksHere ++ zs)) := by
  obtain ⟨hys, hheld⟩ := henc.ticks pollStep_rleStep
  obtain ⟨hhere, hheld'⟩ := u.interruptPoint_ticks
  obtain ⟨hzs, hlast⟩ := hdec.ticks pollStep_decStep
  have hie : u.ie = s.ie := henc.ie pollStep_rleStep
  refine ⟨?_, ?_, ?_⟩
  · rw [List.append_assoc, List.append_assoc, hzs, hhere, hys]
  · rw [hlast, hheld', hheld, State.interruptPoint_ie, hie, tickHeld_append, tickHeld_append]
  · rw [List.filterMap_append, List.filterMap_append, henc.samples pollStep_rleStep, u.filterMap_samplesHere,
      hdec.samples pollStep_decStep, State.interruptPoint_ie, hie, samplesRun_append, samplesRun_append]

end

/-- Settles O45: the two phases are turns, between them the last RLE.STEP and the interruption point after it. -/
theorem pollIsAnInterleaving : Obligations.PollIsAnInterleaving := by
  intro s hraw hpulse
  have hr : RingsLegal s := ⟨hraw, hpulse⟩
  obtain ⟨n, enc, ys, u, m, dec, zs, henc, hdec⟩ := State.exists_poll_turns hr
  have hu : RingsLegal u := henc.ringsLegal pollStep_rleStep hr
  have hpoint : RingsLegal u.interruptPoint := RingsLegal.keptByAllUpdates.toKeptBySamplerUpdates.interruptPoint hu
  have hempty : u.queue .raw = [] := henc.queue_raw_nil hr
  have hshort : (s.poll.queue .pulse).length < 2 := hdec.queue_pulse_lt hpoint
  obtain ⟨hys, hheld, hsamples⟩ := State.poll_ticks henc hdec
  have hencode := henc.run pollStep_rleStep s.poll.ticks s.poll.pendingTick
  have hdecode := run_decoding henc.last hdec s.poll.ticks s.poll.pendingTick
  rw [State.withTicks_self] at hdecode
  rw [← State.withTicks_queue u s.poll.ticks s.poll.pendingTick] at hempty
  have hlegal {ops : List Instr} {x w : State} (hx : RingsLegal x) (hops : .reset ∉ ops) (k : Nat)
      (he : run (ops.take k) x = .next w) : RingsLegal w :=
    RingsLegal.keptByAllUpdates.run (fun h => hops (List.mem_of_mem_take h)) hx he
  have hstep : exec .rleStep (u.withTicks s.poll.ticks s.poll.pendingTick) =
      .next (u.withTicks s.poll.ticks s.poll.pendingTick) := by
    rw [exec_rleStep, State.rleStep_withTicks, henc.last]
  refine ⟨s.poll, u.withTicks s.poll.ticks s.poll.pendingTick, s.poll, enc, u.samplesHere ++ dec,
    samplesRun s.ie (ys ++ (u.ticksHere ++ zs)), ys ++ (u.ticksHere ++ zs), n, m, exec_poll s, hencode,
    hempty, hdecode, hshort, pollStep_decStep.exec_of_eq hdec.last, hshort,
    henc.filter_steps pollStep_rleStep, ?_, hsamples, ?_, ?_, hys, fun hie => ?_, fun hie => ?_⟩
  · rw [List.filter_append, u.filter_samplesHere, hdec.filter_steps pollStep_decStep, List.nil_append]
  · intro k w hk hrun
    have hw := hlegal (x := s.withTicks s.poll.ticks s.poll.pendingTick) hr (henc.reset_notMem pollStep_rleStep) k hrun
    exact (State.rleStep_consumes_iff hw).mp
      (henc.findsInput pollStep_rleStep _ _ k w hk hrun)
  · intro k w hk hrun
    rw [run_cons_of_next hstep] at hrun
    have hnoReset : Instr.reset ∉ u.samplesHere ++ dec := by
      rw [List.mem_append, not_or]
      exact ⟨fun h => (State.mem_samplesHere h).elim nofun, hdec.reset_notMem pollStep_decStep⟩
    have hw := hlegal (x := u.withTicks s.poll.ticks s.poll.pendingTick) hu hnoReset k hrun
    exact (State.decStep_consumes_iff hw).mp
      (FindsInput.samplesHere pollStep_decStep (hdec.findsInput pollStep_decStep _ _) k w hk hrun)
  · rw [hheld, hie]
    exact ⟨rfl, rfl⟩
  · rw [hheld, hie]
    exact ⟨rfl, rfl⟩

/-! ## POLL that nothing interrupts (45_pipeline_sequencing.md R211) -/

section
variable {i : Instr} {f : State → Bool × State} {n : Nat} {ops : List Instr} {ys : List Bool} {s t u : State}

theorem Uninterrupted.interruptPoint (h : Uninterrupted u) :
    Uninterrupted u.interruptPoint ∧ ∃ T P, u.interruptPoint = u.withTicks T P :=
  ⟨(State.interruptPoint_keeps_uninterrupted_smp ⟨h, rfl⟩).1, _, _, u.interruptPoint_of_uninterrupted h⟩

/-- Where nothing interrupts, a turn does what its step does, but for the ticks. -/
theorem PollStep.turn_of_uninterrupted (h : PollStep i f) (hs : Uninterrupted s) (hf : f s = (true, u)) :
    Uninterrupted u.interruptPoint ∧ ∃ T P, u.interruptPoint = u.withTicks T P := by
  obtain ⟨hie, hticks, _⟩ := h.keeps_ticks hf
  refine Uninterrupted.interruptPoint ?_
  rw [Uninterrupted, hie, hticks]
  exact hs

theorem Turns.uninterrupted (h : PollStep i f) (ht : Turns i f n ops ys s t) (hs : Uninterrupted s) : Uninterrupted t :=
  ht.keeps (P := fun s => Uninterrupted s) (fun _ _ hf hs => (h.turn_of_uninterrupted hs hf).1) hs

theorem Turns.ops_of_uninterrupted (h : PollStep i f) (ht : Turns i f n ops ys s t) (hs : Uninterrupted s) :
    ops = List.replicate n i := by
  have hnone : samplesRun s.ie ys = [] := by
    rcases hs with hticks | hie
    · have hys := (ht.ticks h).1
      rw [hticks, List.flatten_nil, List.append_eq_nil_iff] at hys
      rw [hys.1]
      cases s.ie <;> rfl
    · rw [hie]
      rfl
  rw [← ht.samples h, List.filterMap_eq_nil_iff] at hnone
  rw [← ht.filter_steps h]
  exact (List.filter_eq_self.mpr fun j hj => decide_eq_true (hnone j hj)).symm

theorem Turns.encode_count (hr : RingsLegal s) (hs : Uninterrupted s) (ht : Turns .rleStep State.rleStep n ops ys s t) :
    n = (s.queue .raw).length := by
  induction ht with
  | @done s hf =>
    have hempty := (Turns.done (i := .rleStep) hf).queue_raw_nil hr
    rw [hempty]
    rfl
  | @turn n ops ys s u t hf _ ih =>
    have hbyte := State.rleStep_queue_raw hr hf
    obtain ⟨hnext, T, P, e⟩ := pollStep_rleStep.turn_of_uninterrupted hs hf
    have hn := ih (pollStep_rleStep.turn_keeps RingsLegal.keptByAllUpdates s u hf hr) hnext
    rw [e, State.withTicks_queue] at hn
    omega

/-- Phase 2 that nothing interrupts leaves RAW's queue. -/
theorem Turns.decode_queue_raw (hr : RingsLegal s) (hs : Uninterrupted s)
    (ht : Turns .decStep State.decStep n ops ys s t) : t.queue .raw = s.queue .raw := by
  induction ht with
  | done => rfl
  | @turn n ops ys s u t hf _ ih =>
    obtain ⟨hnext, T, P, e⟩ := pollStep_decStep.turn_of_uninterrupted hs hf
    rw [ih (pollStep_decStep.turn_keeps RingsLegal.keptByAllUpdates s u hf hr) hnext, e, State.withTicks_queue,
      (State.decStep_queues hr hf).2]

/-- Only the ticks to come and the tick held are replaced. -/
theorem State.eq_of_withTicks (s : State) (T : List (List Bool)) (P : Option Bool) :
    s = { s.withTicks T P with ticks := s.ticks, pendingTick := s.pendingTick } := rfl

/-- With no tick to fall inside it, POLL leaves the ticks and the tick held. -/
theorem State.poll_ticks_of_nil (h : s.ticks = []) : s.poll.ticks = [] ∧ s.poll.pendingTick = s.pendingTick := by
  have hkeep {i : Instr} {f : State → Bool × State} (hf : PollStep i f) (x : State)
      (hx : x.ticks = [] ∧ x.pendingTick = s.pendingTick) : (f x).2.ticks = [] ∧ (f x).2.pendingTick = s.pendingTick := by
    obtain ⟨_, hticks, hheld⟩ := hf.keeps_ticks (s := x) rfl
    rwa [hticks, hheld]
  refine State.poll_keeps (P := fun x => x.ticks = [] ∧ x.pendingTick = s.pendingTick) (hkeep pollStep_rleStep) ?_
    (hkeep pollStep_decStep) ⟨h, rfl⟩
  intro x hx
  rcases x.interruptPoint_cases with ⟨_, e⟩ | ⟨_, _, e, _⟩
  · rwa [e]
  · rw [hx.1] at e
    cases e

end

/-- Settles O44: each phase takes no turn, so only the interruption point between them is left. -/
theorem pollWithNothingWaitingChangesNothing : Obligations.PollWithNothingWaitingChangesNothing := by
  intro s hempty hh ht hlen hs
  have hrle : s.rleStep = (false, s) := by
    rcases s.rleStep_cases with ⟨_, e⟩ | ⟨hne, _⟩
    · exact e
    · exact absurd hempty hne
  obtain ⟨_, T, P, hpoint⟩ := Uninterrupted.interruptPoint hs
  have hdec : (s.withTicks T P).decStep = (false, s.withTicks T P) := by
    rw [State.decStep_withTicks]
    rcases s.decStep_cases hh ht with ⟨_, e⟩ | ⟨h2, _⟩
    · rw [e]
    · rw [State.queue_pulse, Ring.queue_length] at hlen
      exact absurd h2 (not_le.mpr hlen)
  have hpoll : s.poll = s.withTicks T P := State.poll_eq_of_turns (.done hrle) (Nat.succ_pos _)
    (by rw [hpoint]; exact .done hdec) (Nat.succ_pos _)
  refine ⟨s.poll, exec_poll s, by rw [hpoll]; rfl, fun hticks => ?_⟩
  obtain ⟨hnil, hheld⟩ := State.poll_ticks_of_nil hticks
  rw [hpoll] at hnil hheld ⊢
  rw [show T = s.ticks from hnil.trans hticks.symm, show P = s.pendingTick from hheld, State.withTicks_self]

/-- Settles O43: where nothing interrupts, the turns are the steps alone, one for each byte of RAW and for each record of PULSE. -/
theorem pollDrainsBothBuffers : Obligations.PollDrainsBothBuffers := by
  intro s hraw hpulse hs
  have hr : RingsLegal s := ⟨hraw, hpulse⟩
  obtain ⟨n, enc, ys, u, m, dec, zs, henc, hdec⟩ := State.exists_poll_turns hr
  have hu : RingsLegal u := henc.ringsLegal pollStep_rleStep hr
  have hpoint : RingsLegal u.interruptPoint := RingsLegal.keptByAllUpdates.toKeptBySamplerUpdates.interruptPoint hu
  obtain ⟨hs', T, P, hsame⟩ := Uninterrupted.interruptPoint (henc.uninterrupted pollStep_rleStep hs)
  have hencode := henc.run pollStep_rleStep s.ticks s.pendingTick
  have hdecode := hdec.run pollStep_decStep s.ticks s.pendingTick
  rw [henc.ops_of_uninterrupted pollStep_rleStep hs, henc.encode_count hr hs, State.withTicks_self] at hencode
  rw [hdec.ops_of_uninterrupted pollStep_decStep hs', hdec.decode_count hpoint, hsame, State.withTicks_withTicks,
    State.withTicks_queue] at hdecode
  refine ⟨s.poll, u.withTicks s.ticks s.pendingTick, s.poll.withTicks s.ticks s.pendingTick, exec_poll s, hencode, ?_,
    State.eq_of_withTicks _ _ _, fun hticks => ?_, ?_, hdec.queue_pulse_lt hpoint⟩
  · rw [State.withTicks_queue]
    exact hdecode
  · obtain ⟨hnil, hheld⟩ := State.poll_ticks_of_nil hticks
    rw [hticks, ← hnil, ← hheld, State.withTicks_self]
  · rw [hdec.decode_queue_raw hpoint hs', hsame, State.withTicks_queue, henc.queue_raw_nil hr]

end Sys2Proof.Machine

/-! PROOFS. That the timing of POLLs does not matter (45_pipeline_sequencing.md R215). -/

namespace Sys2Proof.Machine

/-! ## What the samples still to come will lead to (45_pipeline_sequencing.md R215)

With no overflow every byte of RAW is encoded and every record of PULSE decoded, each once and in order. So what a state and the
samples to come lead to, once everything is drained, is settled before: a SAMPLE, an RLE.STEP and a DEC.STEP each take a step
towards it and leave it the same, in whatever order they come. -/

/-- The sampler after one more sample (41_pulse_sampler.md R141). -/
def Sampler.take (m : Sampler) (x : Bool) : Sampler := ⟨shiftIn m.acc x, m.cnt + 1⟩

/-- The bytes that samples complete, in order (R141). -/
def Sampler.bytes : Sampler → List Bool → List Byte
  | _, [] => []
  | m, x :: xs => if m.cnt = 7 then shiftIn m.acc x :: (m.take x).bytes xs else (m.take x).bytes xs

/-- The samples the encoder will have accounted: those of the bytes in RAW, and of the bytes that `xs` will complete. -/
def State.bitsAhead (s : State) (xs : List Bool) : List Bool := (s.queue .raw ++ s.smp.bytes xs).flatMap samplesOf

/-- The records the decoder will have taken: those in PULSE, and those of the runs still to close. -/
def State.recordsAhead (s : State) (xs : List Bool) : List PulseRecord :=
  recordsOf (s.queue .pulse ++ (s.rle.records (s.bitsAhead xs)).flatMap recordBytes)

/-- The decoder, the filter and the deliveries. -/
def State.decoded (s : State) : Decoder × Filter × List Delivery := (s.dec, s.flt, s.out)

/-- The sampler, the encoder, and the decoder with what follows it, once the samples `xs` are taken and everything is drained. -/
def State.settled (s : State) (xs : List Bool) : Sampler × Encoder × Decoder × Filter × List Delivery :=
  (xs.foldl Sampler.take s.smp, (s.bitsAhead xs).foldl Encoder.account s.rle,
    ((s.recordsAhead xs).foldl State.decPulse s).decoded)

section
variable {s t u : State}

theorem Encoder.records_append (e : Encoder) (xs ys : List Bool) :
    e.records (xs ++ ys) = e.records xs ++ (xs.foldl Encoder.account e).records ys := by
  induction xs generalizing e with
  | nil => rfl
  | cons x xs ih =>
    rw [List.cons_append, Encoder.records, Encoder.records, ih, List.foldl_cons]
    split <;> rfl

theorem SameDecoding.foldl_decoded (h : SameDecoding s t) (hout : t.out = s.out) (rs : List PulseRecord) :
    (rs.foldl State.decPulse t).decoded = (rs.foldl State.decPulse s).decoded := by
  induction rs generalizing s t with
  | nil =>
    obtain ⟨_, _, hdec, hflt⟩ := h
    rw [List.foldl_nil, List.foldl_nil, State.decoded, State.decoded, hdec, hflt, hout]
  | cons r rs ih =>
    obtain ⟨d, f, o, ds, heffect⟩ := s.decPulse_effect r
    rw [List.foldl_cons, List.foldl_cons, heffect t h, heffect s ⟨rfl, rfl, rfl, rfl⟩]
    exact ih ⟨h.cfg, h.cb, rfl, rfl⟩ (congrArg (· ++ o) hout)

/-- Two states that agree on the pipeline settle alike. -/
theorem State.settled_congr {xs ys : List Bool} (h : SameDecoding s t) (hout : t.out = s.out)
    (hsmp : ys.foldl Sampler.take t.smp = xs.foldl Sampler.take s.smp)
    (hrle : (t.bitsAhead ys).foldl Encoder.account t.rle = (s.bitsAhead xs).foldl Encoder.account s.rle)
    (hrecords : t.recordsAhead ys = s.recordsAhead xs) : t.settled ys = s.settled xs := by
  rw [State.settled, State.settled, hsmp, hrle, hrecords, h.foldl_decoded hout]

/-- The end of a run that drains everything. -/
theorem State.settled_of_drained (hraw : s.queue .raw = []) (hpulse : (s.queue .pulse).length < 2) :
    s.settled [] = (s.smp, s.rle, s.decoded) := by
  have hbits : s.bitsAhead [] = [] := by
    rw [State.bitsAhead, hraw]
    rfl
  have hrecords : s.recordsAhead [] = [] := by
    rw [State.recordsAhead, hbits]
    match hq : s.queue .pulse with
    | [] => rfl
    | [_] => rfl
    | _ :: _ :: _ =>
      rw [hq] at hpulse
      exact absurd hpulse (by simp)
  rw [State.settled, hbits, hrecords]
  rfl

/-! ### SAMPLE, RLE.STEP and DEC.STEP leave it the same -/

/-- Both rings are legal and have room for a byte. -/
def RingsReady (s : State) : Prop := RingReady .raw s ∧ RingReady .pulse s

theorem RingsReady.ringsLegal (h : RingsReady s) : RingsLegal s := ⟨h.1.2, h.2.2⟩

theorem RingsReady.keptByAllUpdates : KeptByAllUpdates RingsReady where
  raw := fun _ _ hr ⟨⟨hcap, raw⟩, pulse⟩ => ⟨⟨hcap, hr raw⟩, pulse⟩
  pulse := fun _ _ hr ⟨raw, hcap, pulse⟩ => ⟨raw, hcap, hr pulse⟩
  encoder := fun _ _ h => h
  decoder := fun _ _ _ h => h
  filter := fun _ _ _ _ h => h
  registration := fun _ _ h => h
  deliver := fun _ _ _ h => h
  respond := fun _ _ h => h
  drop := fun _ _ h => h
  sampler := fun _ _ h => h
  hold := fun _ _ _ h => h
  ticks := fun _ _ h => h

/-- A push that overflows nothing is appended to the queue. -/
theorem State.rbPush_queue_of_noOverflow {b : RingId} (h : RingReady b s) (v : Byte)
    (hno : (s.rbPush b v).drops.count (overflowCause b) = s.drops.count (overflowCause b)) :
    (s.rbPush b v).queue b = s.queue b ++ [v] := by
  rw [State.rbPush_drops h, List.count_append, List.count_replicate_self] at hno
  have hfits : (s.queue b ++ [v]).length ≤ s.cap b := by
    rw [List.length_append, List.length_singleton]
    omega
  rw [State.rbPush_queue h, List.rtake, Nat.sub_eq_zero_of_le hfits, List.drop_zero]

/-- SAMPLE where RAW overflows nothing: the sampler takes the sample, and RAW the byte that it completes, if any. -/
theorem State.sample_of_noOverflow (h : RingReady .raw s) (x : Bool)
    (hno : (s.sample x).drops.count .rawOverflow = s.drops.count .rawOverflow) :
    (s.sample x).smp = s.smp.take x ∧
      ∀ xs, (s.sample x).queue .raw ++ (s.smp.take x).bytes xs = s.queue .raw ++ s.smp.bytes (x :: xs) := by
  rcases s.sample_cases x with ⟨h7, e⟩ | ⟨h7, e⟩
  · rw [e]
    refine ⟨rfl, fun xs => ?_⟩
    rw [Sampler.bytes, if_neg h7]
    rfl
  · rw [State.rbPush_with_smp] at e
    rw [e] at hno ⊢
    have hqueue := State.rbPush_queue_of_noOverflow h _ hno
    refine ⟨by rw [Sampler.take, h7]; rfl, fun xs => ?_⟩
    rw [Sampler.bytes, if_pos h7, List.append_cons, ← hqueue]
    rfl

theorem State.settled_sample (h : RingReady .raw s) (x : Bool)
    (hno : (s.sample x).drops.count .rawOverflow = s.drops.count .rawOverflow) (xs : List Bool) :
    (s.sample x).settled xs = s.settled (x :: xs) := by
  obtain ⟨hsmp, hbytes⟩ := State.sample_of_noOverflow h x hno
  have hbits : (s.sample x).bitsAhead xs = s.bitsAhead (x :: xs) := by
    rw [State.bitsAhead, hsmp, hbytes, State.bitsAhead]
  have hframe := s.sample_frame x
  have hrle : (s.sample x).rle = s.rle := by rw [hframe]
  have hpulse : (s.sample x).queue .pulse = s.queue .pulse := State.foldl_sample_queue_pulse s [x]
  refine State.settled_congr ?_ (by rw [hframe]) (by rw [hsmp, List.foldl_cons]) (by rw [hbits, hrle]) ?_
  · rw [hframe]
    exact ⟨rfl, rfl, rfl, rfl⟩
  · rw [State.recordsAhead, hbits, hrle, hpulse, State.recordsAhead]

theorem State.settled_rleStep (h : RingsReady s)
    (hno : s.rleStep.2.drops.count .pulseOverflow = s.drops.count .pulseOverflow) (xs : List Bool) :
    s.rleStep.2.settled xs = s.settled xs := by
  cases hq : s.queue .raw with
  | nil => rw [State.rleStep_of_queue_nil h.ringsLegal hq]
  | cons v rest =>
    obtain ⟨r, e, hrest⟩ := State.rleStep_of_queue_cons h.ringsLegal hq
    rw [e] at hno ⊢
    have hqueue := State.foldl_rleBit_queue (s := { s with raw := r }) h.2 (samplesOf v) hno
    have hrle := State.foldl_rleBit_rle (samplesOf v) { s with raw := r }
    have hraw := State.foldl_rleBit_queue_raw { s with raw := r } (samplesOf v)
    obtain ⟨e', p, ds, hframe⟩ := State.foldl_rleBit_frame { s with raw := r } (samplesOf v)
    generalize (samplesOf v).foldl State.rleBit { s with raw := r } = u at *
    have hsmp : u.smp = s.smp := by rw [hframe]
    have hbits : s.bitsAhead xs = samplesOf v ++ u.bitsAhead xs := by
      rw [State.bitsAhead, State.bitsAhead, hraw, hsmp, hq, ← hrest]
      rfl
    refine State.settled_congr ?_ (by rw [hframe]) (by rw [hsmp]) (by rw [hbits, hrle, List.foldl_append]) ?_
    · rw [hframe]
      exact ⟨rfl, rfl, rfl, rfl⟩
    · rw [State.recordsAhead, State.recordsAhead, hbits, hrle, hqueue, Encoder.records_append, List.flatMap_append,
        List.append_assoc]
      rfl

theorem State.settled_decStep (h : RingsReady s) (xs : List Bool) : s.decStep.2.settled xs = s.settled xs := by
  rcases length_lt_two_or_eq_cons_cons (s.queue .pulse) with hlt | ⟨b0, b1, rest, hq⟩
  · rw [State.decStep_of_queue_lt h.ringsLegal hlt]
  · obtain ⟨p, e, hrest⟩ := State.decStep_of_queue_cons h.ringsLegal hq
    obtain ⟨d, f, o, ds, heffect⟩ := s.decPulse_effect (recordOfBytes b0 b1)
    have hfirst : s.decPulse (recordOfBytes b0 b1) = s.withDecoded d f o ds := heffect s ⟨rfl, rfl, rfl, rfl⟩
    have hstep : s.decStep.2 = ({ s with pulse := p } : State).withDecoded d f o ds := by
      rw [e]
      exact heffect { s with pulse := p } ⟨rfl, rfl, rfl, rfl⟩
    have hrecords : s.recordsAhead xs =
        recordOfBytes b0 b1 :: (({ s with pulse := p } : State).withDecoded d f o ds).recordsAhead xs := by
      rw [State.recordsAhead, State.recordsAhead, hq, ← hrest]
      rfl
    rw [hstep, State.settled, State.settled, hrecords, List.foldl_cons, hfirst,
      SameDecoding.foldl_decoded (s := s.withDecoded d f o ds) (t := ({ s with pulse := p } : State).withDecoded d f o ds)
        ⟨rfl, rfl, rfl, rfl⟩ rfl]
    rfl

/-! ### Runs -/

/-- What is observed is never taken back, so a run without overflow has none in its parts. -/
theorem NoOverflow.split (hfirst : ObservedSince s u) (hrest : ObservedSince u t) (h : NoOverflow s t) :
    NoOverflow s u ∧ NoOverflow u t := by
  obtain ⟨hraw, hpulse⟩ := h
  have hraw₁ := hfirst.count_drops_le .rawOverflow
  have hraw₂ := hrest.count_drops_le .rawOverflow
  have hpulse₁ := hfirst.count_drops_le .pulseOverflow
  have hpulse₂ := hrest.count_drops_le .pulseOverflow
  exact ⟨⟨by omega, by omega⟩, by omega, by omega⟩

/-- The first operation of a run without overflow, and the rest of it. -/
theorem NoOverflow.cons {i : Instr} {ops : List Instr} (hops : .reset ∉ ops) (hi : exec i s = .next u)
    (he : run ops u = .next t) (h : NoOverflow s t) : NoOverflow s u ∧ NoOverflow u t :=
  h.split (observationsOnlyGrow i s u hi) ((keptByAllUpdates_observedSince u).run hops (ObservedSince.refl u) he)

/-- The operations that POLL is made of. -/
def IsPollOperation (j : Instr) : Prop := j = .rleStep ∨ j = .decStep ∨ ∃ x, j = .sample x

theorem IsPollOperation.ne_reset {j : Instr} (h : IsPollOperation j) : j ≠ .reset := by
  rcases h with rfl | rfl | ⟨x, rfl⟩ <;> nofun

/-- The operations of the schedules that R215 compares. -/
def IsScheduled (i : Instr) : Prop := i = .poll ∨ ∃ x, i = .sample x

theorem IsScheduled.ne_reset {i : Instr} (h : IsScheduled i) : i ≠ .reset := by
  rcases h with rfl | ⟨x, rfl⟩ <;> nofun

theorem settled_of_run {ops : List Instr} (hr : RingsReady s) (hops : ∀ j ∈ ops, IsPollOperation j)
    (he : run ops s = .next t) (hno : NoOverflow s t) (xs : List Bool) :
    t.settled xs = s.settled (ops.filterMap sampleOperand ++ xs) := by
  induction ops generalizing s with
  | nil =>
    cases he
    rfl
  | cons i ops ih =>
    obtain ⟨u, hi, hrest⟩ := run_cons_eq_next_iff.mp he
    rw [List.forall_mem_cons] at hops
    obtain ⟨hfirst, hops⟩ := hops
    obtain ⟨⟨hraw, hpulse⟩, hno⟩ := hno.cons (fun hmem => (hops _ hmem).ne_reset rfl) hi hrest
    have hu := RingsReady.keptByAllUpdates.exec hfirst.ne_reset hr hi
    rw [ih hu hops hrest hno]
    rcases hfirst with rfl | rfl | ⟨x, rfl⟩ <;> cases hi
    · exact State.settled_rleStep hr hpulse _
    · exact State.settled_decStep hr _
    · exact State.settled_sample hr.1 x hraw _

theorem State.settled_withTicks (s : State) (T : List (List Bool)) (P : Option Bool) (xs : List Bool) :
    (s.withTicks T P).settled xs = s.settled xs := State.settled_congr ⟨rfl, rfl, rfl, rfl⟩ rfl rfl rfl rfl

/-- POLL as a run of its operations, with the SAMPLEs that run among them. -/
theorem State.exists_poll_run (hr : RingsLegal s) : ∃ ops ys, (∀ j ∈ ops, IsPollOperation j) ∧
    run ops (s.withTicks s.poll.ticks s.poll.pendingTick) = .next s.poll ∧
    ops.filterMap sampleOperand = samplesRun s.ie ys ∧ ys ++ s.poll.ticks.flatten = s.ticks.flatten ∧
    (s.poll.queue .pulse).length < 2 := by
  obtain ⟨n, enc, ys, u, m, dec, zs, henc, hdec⟩ := State.exists_poll_turns hr
  have hu : RingsLegal u := henc.ringsLegal pollStep_rleStep hr
  obtain ⟨hys, _, hsamples⟩ := State.poll_ticks henc hdec
  refine ⟨enc ++ .rleStep :: (u.samplesHere ++ dec), ys ++ (u.ticksHere ++ zs), fun j hj => ?_, ?_, ?_, hys,
    hdec.queue_pulse_lt (RingsLegal.keptByAllUpdates.toKeptBySamplerUpdates.interruptPoint hu)⟩
  · rcases List.mem_append.mp hj with hj | hj
    · exact (henc.mem_ops hj).imp_right .inr
    · rcases List.mem_cons.mp hj with rfl | hj
      · exact .inl rfl
      · rcases List.mem_append.mp hj with hj | hj
        · exact .inr (.inr (State.mem_samplesHere hj))
        · exact .inr (hdec.mem_ops hj)
  · rw [run_append_of_next (henc.run pollStep_rleStep _ _)]
    exact run_decoding henc.last hdec s.poll.ticks s.poll.pendingTick
  · rw [← hsamples, List.filterMap_append, List.filterMap_append, List.filterMap_cons_none rfl]

/-- SAMPLEs and POLLs that overflow nothing leave what their samples lead to. -/
theorem settled_of_schedule {ops : List Instr} (hr : RingsReady s) (hops : ∀ i ∈ ops, IsScheduled i)
    (he : run ops s = .next t) (hno : NoOverflow s t) : t.settled [] = s.settled (samplesTaken ops s) := by
  induction ops generalizing s with
  | nil =>
    cases he
    rfl
  | cons i ops ih =>
    obtain ⟨u, hi, hrest⟩ := run_cons_eq_next_iff.mp he
    rw [List.forall_mem_cons] at hops
    obtain ⟨hfirst, hops⟩ := hops
    obtain ⟨hno', hno⟩ := hno.cons (fun hmem => (hops _ hmem).ne_reset rfl) hi hrest
    have hu := RingsReady.keptByAllUpdates.exec hfirst.ne_reset hr hi
    rw [ih hu hops hrest hno]
    rcases hfirst with rfl | ⟨x, rfl⟩ <;> cases hi
    · obtain ⟨polled, ys, hpolled, hrun, hsamples, hys, _⟩ := State.exists_poll_run hr.ringsLegal
      have htaken : samplesTaken (.poll :: ops) s = samplesRun s.ie ys ++ samplesTaken ops s.poll := by
        have hlen : s.ticks.flatten.take (s.ticks.flatten.length - s.poll.ticks.flatten.length) = ys := by
          rw [← hys, List.length_append, Nat.add_sub_cancel, List.take_left]
        rw [← hlen]
        rfl
      rw [htaken, ← hsamples, ← State.settled_withTicks s s.poll.ticks s.poll.pendingTick]
      exact settled_of_run (s := s.withTicks s.poll.ticks s.poll.pendingTick) hr hpolled hrun hno' _
    · exact State.settled_sample hr.1 x hno'.1 _

theorem run_append_eq_next_iff {is js : List Instr} :
    run (is ++ js) s = .next t ↔ ∃ u, run is s = .next u ∧ run js u = .next t := by
  induction is generalizing s with
  | nil => simp
  | cons i is ih =>
    simp only [List.cons_append, run_cons_eq_next_iff, ih]
    exact ⟨fun ⟨v, hv, u, hu, ht⟩ => ⟨u, ⟨v, hv, hu⟩, ht⟩, fun ⟨u, ⟨v, hv, hu⟩, ht⟩ => ⟨v, hv, u, hu, ht⟩⟩

theorem RingsReady.of_legal (hcfg : s.cfg.legal = true) (hs : Legal s) : RingsReady s := by
  obtain ⟨hraw, hpulse, _⟩ := hs
  simp only [Config.legal, Config.rawCapLegal, Config.pulseCapLegal, Bool.and_eq_true, decide_eq_true_eq] at hcfg
  obtain ⟨⟨⟨_, hrawCap⟩, hpulseCap, _⟩, _⟩ := hcfg
  exact ⟨⟨hrawCap, hraw⟩, Nat.one_le_of_lt hpulseCap, hpulse⟩

/-- A schedule that ends with a POLL and drains RAW: its outcome is what its samples lead to. -/
theorem outcome_of_schedule {ops : List Instr} (hr : RingsReady s) (hops : ∀ i ∈ ops, IsScheduled i)
    (he : run (ops ++ [Instr.poll]) s = .next t) (hraw : t.queue .raw = []) (hno : NoOverflow s t) :
    (t.smp, t.rle, t.decoded) = s.settled (samplesTaken (ops ++ [Instr.poll]) s) := by
  have hops' : ∀ i ∈ ops ++ [Instr.poll], IsScheduled i :=
    List.forall_mem_append.mpr ⟨hops, fun i hi => .inl (List.mem_singleton.mp hi)⟩
  obtain ⟨u, hu, hpoll⟩ := run_append_eq_next_iff.mp he
  have hru := (RingsReady.keptByAllUpdates.run (fun hmem => (hops _ hmem).ne_reset rfl) hr hu).ringsLegal
  cases hpoll
  obtain ⟨_, _, _, _, _, _, hpulse⟩ := State.exists_poll_run hru
  rw [← settled_of_schedule hr hops' he hno, State.settled_of_drained hraw hpulse]

end

/-- Settles O47: either schedule's outcome is what the start and the samples, which both schedules share, lead to. -/
theorem pollTimingDoesNotMatter : Obligations.PollTimingDoesNotMatter := by
  intro ops ops' s s' t t' hops hops' hs' hcfg hlegal hrun hrun' hsamples hraw hraw' hno hno'
  obtain ⟨T, rfl⟩ : ∃ T, s' = s.withTicks T s.pendingTick := ⟨_, hs'⟩
  have hr := RingsReady.of_legal hcfg hlegal
  have hsame : (t.smp, t.rle, t.decoded) = (t'.smp, t'.rle, t'.decoded) := by
    rw [outcome_of_schedule hr hops hrun hraw hno, outcome_of_schedule (s := s.withTicks T _) hr hops' hrun' hraw' hno',
      State.settled_withTicks, hsamples]
  simpa only [State.decoded, Prod.mk.injEq] using hsame

end Sys2Proof.Machine

/-! PROOFS. No exceptions (60_exceptions.md): where a step stops, who may issue what, masked ticks, and the silent drops of one
operation. -/

namespace Sys2Proof

/-- The constraints of 00_scope.md R8 and 10_state.md R40 as numbers. -/
theorem Config.legal_iff (c : Config) : c.legal = true ↔
    (1 ≤ c.syncMinRatio ∧ c.syncMinRatio ≤ c.syncMaxRatio ∧ c.syncMaxRatio ≤ 64 ∧
      1 ≤ c.dataMinRatio ∧ c.dataMinRatio ≤ c.dataMaxRatio ∧ c.dataMaxRatio ≤ 64 ∧
      1 ≤ c.rawCap ∧ 2 ≤ c.pulseCap ∧ c.pulseCap % 2 = 0 ∧ 0 < c.samplerTickUs) := by
  simp only [Config.legal, Config.syncRatiosLegal, Config.dataRatiosLegal, Config.rawCapLegal, Config.pulseCapLegal,
    Config.tickLegal, Bool.and_eq_true, decide_eq_true_eq, and_assoc]

end Sys2Proof

namespace Sys2Proof.Machine

/-! ## Silent drops of one operation (60_exceptions.md R221, R222) -/

/-- At most one drop, of a cause numbered `lo` to `hi` in R221. -/
def AtMostOneDrop (lo hi : Nat) (d : List DropCause) : Prop :=
  d.length ≤ 1 ∧ ∀ c ∈ d, lo ≤ c.number ∧ c.number ≤ hi

/-- The decoder's causes of R221. -/
abbrev DecoderDrop : List DropCause → Prop := AtMostOneDrop 3 6

/-- The filter's causes of R221. -/
abbrev FilterDrop : List DropCause → Prop := AtMostOneDrop 7 9

theorem AtMostOneDrop.nil (lo hi : Nat) : AtMostOneDrop lo hi [] := ⟨Nat.zero_le 1, nofun⟩

theorem AtMostOneDrop.singleton {lo hi : Nat} {c : DropCause} (h : lo ≤ c.number ∧ c.number ≤ hi) :
    AtMostOneDrop lo hi [c] :=
  ⟨le_rfl, List.forall_mem_singleton.mpr h⟩

/-- From `s` to `t` at most one drop in the decoder is noted, and then at most one in the filter. -/
def DropsInDecoding (s t : State) : Prop :=
  ∃ d e : List DropCause, t.drops = s.drops ++ d ++ e ∧ DecoderDrop d ∧ FilterDrop e

section
variable {s t : State}

theorem DropsInDecoding.of_none (h : t.drops = s.drops) : DropsInDecoding s t :=
  ⟨[], [], by simp [h], .nil 3 6, .nil 7 9⟩

theorem DropsInDecoding.of_decoder {c : DropCause} (hc : 3 ≤ c.number ∧ c.number ≤ 6) (h : t.drops = s.drops ++ [c]) :
    DropsInDecoding s t :=
  ⟨[c], [], by simp [h], .singleton hc, .nil 7 9⟩

theorem DropsInDecoding.of_filter {c : DropCause} (hc : 7 ≤ c.number ∧ c.number ≤ 9) (h : t.drops = s.drops ++ [c]) :
    DropsInDecoding s t :=
  ⟨[], [c], by simp [h], .nil 3 6, .singleton hc⟩

end

section
variable (s : State)

/-- A frame is delivered without a drop, or dropped for one of the filter's three causes (44_confirmation_filter.md R191). -/
theorem State.fltFrame_drops (c : Code) : DropsInDecoding s (s.fltFrame c) := by
  rcases s.fltFrame_cases c with ⟨_, e⟩ | ⟨_, _, e⟩ | ⟨_, _, _, e⟩ | ⟨_, _, _, e⟩ <;> rw [e]
  · exact .of_filter (c := .unconfirmed) (by decide) rfl
  · exact .of_filter (c := .refractory) (by decide) rfl
  · exact .of_none rfl
  · exact .of_filter (c := .noCallback) (by decide) rfl

theorem State.syncTest_drops (t1 t2 : Nat) : DropsInDecoding s (s.syncTest t1 t2) := by
  rcases s.syncTest_cases t1 t2 with ⟨_, e⟩ | ⟨_, e⟩ <;> rw [e]
  · exact .of_none rfl
  · exact .of_decoder (c := .badSync) (by decide) rfl

/-- A pair that is no bit is the decoder's drop; only the 24th bit reaches the filter (43_frame_decoder.md R175, R176). -/
theorem State.bitTest_drops (t1 t2 : Nat) : DropsInDecoding s (s.bitTest t1 t2) := by
  rcases s.bitTest_cases t1 t2 with ⟨_, e⟩ | ⟨_, _, _, e⟩ | ⟨_, _, _, e⟩ <;> rw [e]
  · exact .of_decoder (c := .badBit) (by decide) rfl
  · exact State.fltFrame_drops { s with dec := _ } _
  · exact .of_none rfl

theorem State.decPulse_drops (r : PulseRecord) : DropsInDecoding s (s.decPulse r) := by
  rcases s.decPulse_cases r with ⟨_, _, e⟩ | ⟨_, _, e⟩ | ⟨_, _, e⟩ | ⟨_, _, _, e⟩ | ⟨_, _, _, e⟩ <;> rw [e]
  · exact .of_none rfl
  · exact .of_decoder (c := .highReplaced) (by decide) rfl
  · exact .of_decoder (c := .lowSkipped) (by decide) rfl
  · exact State.syncTest_drops { s with dec := _ } _ _
  · exact State.bitTest_drops { s with dec := _ } _ _

/-- A push drops at most one byte, whatever the cursors of the ring are (40_ring_buffer.md R121). -/
theorem State.exists_rbPush_drops (b : RingId) (v : Byte) :
    ∃ k ≤ 1, (s.rbPush b v).drops = s.drops ++ List.replicate k (overflowCause b) := by
  rcases s.rbPush_cases b v with ⟨_, e⟩ | ⟨_, e⟩
  · exact ⟨0, zero_le_one, by simp [e]⟩
  · exact ⟨1, le_rfl, by simp [e]⟩

/-- An emission is two pushes, each of which drops at most one byte (42_run_length_encoder.md R152). -/
theorem State.exists_emit_drops (r : PulseRecord) :
    ∃ k ≤ 2, (s.emit r).drops = s.drops ++ List.replicate k .pulseOverflow := by
  obtain ⟨k0, h0, hfirst⟩ := s.exists_rbPush_drops .pulse (recordByte0 r)
  obtain ⟨k1, h1, hsecond⟩ := (s.rbPush .pulse (recordByte0 r)).exists_rbPush_drops .pulse (recordByte1 r)
  refine ⟨k0 + k1, by omega, ?_⟩
  rw [State.emit, hsecond, hfirst, List.append_assoc, List.replicate_append_replicate]
  rfl

theorem State.exists_rleBit_drops (x : Bool) :
    ∃ k ≤ 2, (s.rleBit x).drops = s.drops ++ List.replicate k .pulseOverflow := by
  rcases s.rleBit_cases x with ⟨_, e⟩ | ⟨_, e⟩ <;> rw [e]
  · exact ⟨0, Nat.zero_le 2, by simp⟩
  · exact s.exists_emit_drops _

end

/-- Settles O54: a record's outcomes, by the sub-steps that decode it, and an RLE.BIT's, by its two pushes. -/
theorem dropsPerOperation : Obligations.DropsPerOperation := by
  refine ⟨fun r s t he => ?_, fun x s t he => ?_⟩ <;> cases he
  · obtain ⟨d, e, hdrops, ⟨hdOne, hdCause⟩, heOne, heCause⟩ := s.decPulse_drops r
    exact ⟨d, e, hdrops, hdOne, heOne, hdCause, heCause⟩
  · exact s.exists_rleBit_drops x

/-! ## Every operation has a next state (60_exceptions.md R220) -/

theorem exists_exec_eq_next (i : Instr) (s : State) : ∃ t, exec i s = .next t := by
  cases i with
  | sample x => exact ⟨_, exec_sample s x⟩
  | poll => exact ⟨_, exec_poll s⟩
  | timer => exact ⟨_, exec_timer s⟩
  | regcb h => exact ⟨_, exec_regcb h s⟩
  | reset => exact ⟨_, exec_reset s⟩
  | fltFrame c => exact ⟨_, exec_fltFrame s c⟩
  | rbPush b v => exact ⟨_, exec_rbPush s b v⟩
  | rbPop b => exact ⟨_, exec_rbPop s b⟩
  | rbLen b => exact ⟨_, exec_rbLen s b⟩
  | rbClear b => exact ⟨_, exec_rbClear s b⟩
  | rleBit x => exact ⟨_, exec_rleBit s x⟩
  | rleStep => exact ⟨_, exec_rleStep s⟩
  | decPulse r => exact ⟨_, exec_decPulse s r⟩
  | decStep => exact ⟨_, exec_decStep s⟩

theorem exists_perform_eq_next (a : Agent) (i : Instr) (s : State) : ∃ t, perform a i s = .next t := by
  rcases perform_cases s a i with ⟨_, _, e⟩ | ⟨_, e⟩ <;> rw [e]
  · exact ⟨_, rfl⟩
  · exact exists_exec_eq_next i s

/-- There is no fault to stop with: the type of faults is empty. -/
theorem step_ne_fault (s : State) (f : Fault) : step s ≠ .fault f := nomatch f

/-- Settles O53, by the equation of each operation. -/
theorem everyOperationIsTotal : Obligations.EveryOperationIsTotal := ⟨exists_exec_eq_next, step_ne_fault⟩

/-! ## A step without an operation (60_exceptions.md R241, 10_state.md R39) -/

section
variable {s : State} {rest : List Event}

theorem step_of_illegal (hcfg : s.cfg.legal = false) : step s = .refused .illegalConfiguration := if_pos hcfg

theorem step_of_no_event (hcfg : s.cfg.legal = true) (hs : s.sched = []) : step s = .next s := by
  simp [step, hcfg, State.nextEvent, hs]

theorem step_of_hostIe {v : Bool} (hcfg : s.cfg.legal = true) (hs : s.sched = .hostIe v :: rest) :
    step s = .next (({ s with sched := rest } : State).setIe v) := by
  simp [step, hcfg, State.nextEvent, hs, occur]

theorem State.setIe_of_no_release {v : Bool} (h : v = false ∨ s.pendingTick = none) : s.setIe v = { s with ie := v } := by
  rcases s.setIe_cases v with ⟨rfl, x, hx, _⟩ | ⟨_, e⟩
  · simp [hx] at h
  · exact e

theorem State.setIe_of_held {x : Bool} (h : s.pendingTick = some x) :
    s.setIe true = ({ s with ie := true, pendingTick := none } : State).sample x := by
  rcases s.setIe_cases true with ⟨_, y, hy, e⟩ | ⟨hno, _⟩
  · cases h.symm.trans hy
    exact e
  · simp [h] at hno

end

/-- Settles O10: the schedule is empty, or its next event is the host's write, which releases no tick. -/
theorem stepWithoutAnOperation : Obligations.StepWithoutAnOperation := by
  intro s hcfg
  refine ⟨step_of_no_event hcfg, fun v rest hs h => ?_⟩
  rw [step_of_hostIe hcfg hs]
  exact congrArg Host.Outcome.next (State.setIe_of_no_release (s := { s with sched := rest }) h)

/-! ## Masked ticks (60_exceptions.md R225, R226) -/

section
variable {s : State}

theorem State.hold_of_none (tick : Option Bool) (h : s.pendingTick = none) : s.hold tick = { s with pendingTick := tick } := by
  rw [State.hold, h, Option.none_or]

/-- A second tick is lost. -/
theorem State.hold_of_held (tick : Option Bool) (h : s.pendingTick ≠ none) : s.hold tick = s := by
  obtain ⟨x, hx⟩ := Option.ne_none_iff_exists'.mp h
  rw [State.hold, hx, Option.some_or, ← hx]

theorem perform_of_masked (i : Instr) (h : s.ie = false) : perform .interrupt i s = .next (s.hold (sampleOperand i)) :=
  if_pos ⟨rfl, h⟩

/-- A tick that occurs while `ie` is 0 goes to what the host holds. -/
theorem step_of_masked_tick {w : Word} {x : Bool} {rest : List Event} (hcfg : s.cfg.legal = true) (hie : s.ie = false)
    (hs : s.sched = .issue .interrupt w :: rest) (hd : decode w = .ok (.sample x)) :
    step s = .next (({ s with sched := rest } : State).hold (some x)) := by
  rw [step_of_issue hcfg hs, issue_of_permitted hd rfl]
  exact perform_of_masked _ hie

end

/-- Settles O11: what the host holds after a tick, and what it releases as `ie` becomes 1. -/
theorem maskedTickWaitsForIe : Obligations.MaskedTickWaitsForIe := by
  intro s w x rest hcfg hie
  refine ⟨fun hs hd => ⟨fun hnone => ?_, fun hheld => ?_⟩, fun hs hheld => ⟨_, step_of_hostIe hcfg hs, ?_⟩⟩
  · rw [step_of_masked_tick hcfg hie hs hd, State.hold_of_none]
    exact hnone
  · rw [step_of_masked_tick hcfg hie hs hd, State.hold_of_held]
    exact hheld
  · rw [State.setIe_of_held (s := { s with sched := rest }) hheld]
    exact exec_sample _ x

/-! ## Who may not issue what (60_exceptions.md R236) -/

/-- The agent may not issue the operation in this state. -/
def WrongContext (a : Agent) (i : Instr) (s : State) : Prop :=
  (a = .interrupt ∧ ∀ x, i ≠ .sample x) ∨ (a = .host ∧ i ≠ .reset) ∨ (a = .task ∧ i = .reset) ∨
    (a = .task ∧ (∃ x, i = .sample x) ∧ ¬ InterruptIdle s)

section
variable {s : State} {a : Agent} {w : Word} {i : Instr}

theorem not_interruptIdle_iff :
    ¬ InterruptIdle s ↔ s.pendingTick ≠ none ∨ s.ticks.flatten ≠ [] ∨ ∃ w, .issue .interrupt w ∈ s.sched := by
  rw [not_and_or, not_and_or, not_forall_not]

/-- The interrupt agent may issue SAMPLE alone, the host RESET alone. -/
theorem permitted_interrupt_iff : permitted .interrupt i s = true ↔ ∃ x, i = .sample x := by
  cases i <;> simp [permitted]

theorem permitted_host_iff : permitted .host i s = true ↔ i = .reset := by
  cases i <;> simp [permitted]

theorem permitted_task_iff :
    permitted .task i s = true ↔ i ≠ .reset ∧ ((∃ x, i = .sample x) → InterruptIdle s) := by
  cases i with
  | sample x => simp [permitted, interruptIdle_iff]
  | _ => simp [permitted]

theorem permitted_eq_false_iff : permitted a i s = false ↔ WrongContext a i s := by
  rw [← Bool.not_eq_true, WrongContext]
  cases a with
  | interrupt => simp [permitted_interrupt_iff]
  | task => rw [permitted_task_iff]; simp [-not_and, not_and_or]
  | host => simp [permitted_host_iff]

theorem issue_of_not_permitted (hd : decode w = .ok i) (hp : permitted a i s = false) :
    issue a w s = .refused .wrongContext := by
  simp [issue, hd, hp]

end

/-- Settles O9: the contexts of R236 are those in which the agent is not permitted to issue the operation. -/
theorem wrongContextIsRefused : Obligations.WrongContextIsRefused := by
  intro s a w rest i hcfg hs hd hcontext
  rw [← not_interruptIdle_iff (s := { s with sched := rest })] at hcontext
  rw [step_of_issue hcfg hs, issue_of_not_permitted hd (permitted_eq_false_iff.mpr hcontext)]

/-! ## Where a step stops (60_exceptions.md R220) -/

section
variable {s : State} {a : Agent} {w : Word} {r : Refusal}

/-- A command word is refused as a reserved word or for its context; an operation that is performed is not refused. -/
theorem issue_refused_cases (h : issue a w s = .refused r) :
    (∃ e, decode w = .error e ∧ r = refusalOf e) ∨ (r = .wrongContext ∧ ∃ i, decode w = .ok i ∧ WrongContext a i s) := by
  cases hd : decode w with
  | error e =>
    rw [issue_of_decode_error hd] at h
    cases h
    exact .inl ⟨e, rfl, rfl⟩
  | ok i =>
    cases hp : permitted a i s with
    | false =>
      rw [issue_of_not_permitted hd hp] at h
      cases h
      exact .inr ⟨rfl, i, rfl, permitted_eq_false_iff.mp hp⟩
    | true =>
      obtain ⟨t, ht⟩ := exists_perform_eq_next a i s
      rw [issue_of_permitted hd hp, ht] at h
      cases h

/-- Under a legal configuration only the issue of a command word can be refused. -/
theorem step_refused_cases (hcfg : s.cfg.legal = true) (h : step s = .refused r) :
    ∃ a w rest, s.sched = .issue a w :: rest ∧ issue a w { s with sched := rest } = .refused r := by
  cases hs : s.sched with
  | nil =>
    rw [step_of_no_event hcfg hs] at h
    cases h
  | cons e rest =>
    cases e with
    | hostIe v =>
      rw [step_of_hostIe hcfg hs] at h
      cases h
    | issue a w => exact ⟨a, w, rest, rfl, step_of_issue hcfg hs ▸ h⟩

end

/-- Settles O12: the configuration is looked at first, and then a refusal is that of a command word. -/
theorem stepStopsOnlyOutsideTheModel : Obligations.StepStopsOnlyOutsideTheModel := by
  refine ⟨Config.legal_iff, fun s => ⟨step_of_illegal, fun hcfg r h => ?_, step_ne_fault s⟩⟩
  obtain ⟨a, w, rest, hs, hissue⟩ := step_refused_cases hcfg h
  exact ⟨a, w, rest, hs, issue_refused_cases hissue⟩

end Sys2Proof.Machine

/-! PROOFS. Reset and hazards (70_reset_and_hazards.md): the registration outlives everything but RESET. -/

namespace Sys2Proof.Machine

/-! ## The sub-steps read the registration and never write it (44_confirmation_filter.md R196, R198)

SAMPLE and the three stage operations have their whole frames already (`State.sample_frame`,
`stageOperationsTouchTheirStageOnly`); the others are rings, and sequences of these. -/

section
variable (s : State)

@[simp] theorem State.rbPush_cb (b : RingId) (v : Byte) : (s.rbPush b v).cb = s.cb := by
  rcases s.rbPush_cases b v with ⟨_, e⟩ | ⟨_, e⟩ <;> simp [e]

@[simp] theorem State.rbPop_cb (b : RingId) : (s.rbPop b).2.cb = s.cb := by
  simp [State.rbPop_eq]

@[simp] theorem State.rbClear_cb (b : RingId) : (s.rbClear b).cb = s.cb := by
  simp [State.rbClear_eq]

@[simp] theorem State.sample_cb (x : Bool) : (s.sample x).cb = s.cb := by
  rw [State.sample_frame]

@[simp] theorem State.fltFrame_cb (c : Code) : (s.fltFrame c).cb = s.cb := by
  rw [stageOperationsTouchTheirStageOnly.2.1 c s _ rfl]

@[simp] theorem State.decPulse_cb (r : PulseRecord) : (s.decPulse r).cb = s.cb := by
  rw [stageOperationsTouchTheirStageOnly.1 r s _ rfl]

@[simp] theorem State.rleBit_cb (x : Bool) : (s.rleBit x).cb = s.cb := by
  rw [stageOperationsTouchTheirStageOnly.2.2 x s _ rfl]

theorem State.foldl_cb {f : State → Bool → State} (hf : ∀ s x, (f s x).cb = s.cb) (xs : List Bool) :
    (xs.foldl f s).cb = s.cb :=
  List.foldlRecOn (motive := fun t => t.cb = s.cb) xs f rfl fun t ht x _ => (hf t x).trans ht

@[simp] theorem State.rleStep_cb : s.rleStep.2.cb = s.cb := by
  rcases s.rleStep_cases with ⟨_, e⟩ | ⟨_, e⟩ <;> rw [e]
  exact State.foldl_cb _ State.rleBit_cb _

@[simp] theorem State.decStep_cb : s.decStep.2.cb = s.cb := by
  unfold State.decStep
  simp only [State.rbLen_eq]
  split
  · rfl
  · split <;> simp

@[simp] theorem State.tick_cb (x : Bool) : (s.tick x).cb = s.cb := by
  rcases s.tick_cases x with ⟨_, e⟩ | ⟨_, e⟩ <;> simp [e]

@[simp] theorem State.interruptPoint_cb : s.interruptPoint.cb = s.cb := by
  rcases s.interruptPoint_cases with ⟨_, e⟩ | ⟨xs, rest, _, e⟩ <;> rw [e]
  exact State.foldl_cb _ State.tick_cb xs

@[simp] theorem State.poll_cb : s.poll.cb = s.cb :=
  State.poll_keeps (P := fun t => t.cb = s.cb) (fun t ht => t.rleStep_cb.trans ht)
    (fun t ht => t.interruptPoint_cb.trans ht) (fun t ht => t.decStep_cb.trans ht) rfl

end

/-! ## Operations (70_reset_and_hazards.md R265) -/

/-- Only REGCB and RESET write the registration. -/
theorem exec_cb {i : Instr} {s t : State} (hregcb : ∀ h, i ≠ .regcb h) (hreset : i ≠ .reset) (he : exec i s = .next t) :
    t.cb = s.cb := by
  cases i with
  | sample x => cases he; exact s.sample_cb x
  | poll => cases he; exact s.poll_cb
  | timer => rw [exec_timer] at he; cases he; rfl
  | regcb h => exact absurd rfl (hregcb h)
  | reset => exact absurd rfl hreset
  | fltFrame c => cases he; exact s.fltFrame_cb c
  | rbPush b v => cases he; exact s.rbPush_cb b v
  | rbPop b => cases he; exact s.rbPop_cb b
  | rbLen b => rw [exec_rbLen] at he; cases he; rfl
  | rbClear b => cases he; exact s.rbClear_cb b
  | rleBit x => cases he; exact s.rleBit_cb x
  | rleStep => cases he; exact s.rleStep_cb
  | decPulse r => cases he; exact s.decPulse_cb r
  | decStep => cases he; exact s.decStep_cb

/-- A second REGCB is ignored (44_confirmation_filter.md R198). -/
theorem exec_regcb_cb_of_registered {h : Handle} {s t : State} (hs : s.cb.registered = true)
    (he : exec (.regcb h) s = .next t) : t.cb = s.cb := by
  rw [(firstRegistrationStays h s).2 hs] at he
  cases he
  rfl

/-- Settles O41: REGCB is the only writer of the registration beside RESET, and leaves the one it finds. -/
theorem registrationSurvivesEverythingButReset : Obligations.RegistrationSurvivesEverythingButReset := by
  intro i s t hreset hs he
  by_cases hregcb : ∃ h, i = .regcb h
  · obtain ⟨h, rfl⟩ := hregcb
    exact exec_regcb_cb_of_registered hs he
  · exact exec_cb (not_exists.mp hregcb) hreset he

end Sys2Proof.Machine
